-- ==== Sys2Proof/Word.lean ====
section
/-!
DEFINITION. The values the rules compute with: the operand word, line levels and line pairs, commands,
captures, measurements, reports, and the named states of the channel (`00_scope.md` section 6). Their bit
codes (`30_encoding.md` section 1) stand in `Sys2Proof/Decode.lean`.
-/

namespace Sys2Proof

/-- One operand word, as the natural number its bits spell, bit 0 the least significant (R42). The words of
an operation have several widths (8, 16, 32, `DUR_W + 1`, `DUR_W + 9`: R60, R61, R67), so the width is not
part of the type: the decoder reads the bits its format names. -/
abbrev Word := Nat

/-- The channel index field of a header, bits 7:4 (R63). -/
abbrev ChIndex := BitVec 4

/-- `Level` of `00_scope.md` section 6. -/
inductive Level
  | low
  | high
  deriving DecidableEq, Repr, Inhabited

/-- A line configuration: the levels of (direction A, direction B) (R6, glossary). -/
structure LineCfg where
  dirA : Level
  dirB : Level
  deriving DecidableEq, Repr, Inhabited

/-- A Position Command, "one of {RETRACT, HOLD, EXTEND}" (R55). -/
inductive Cmd
  | retract
  | hold
  | extend
  deriving DecidableEq, Repr, Inhabited

/-- `LastCmd`: the last delivered command, or `NONE` (R18, R56). -/
inductive LastCmd
  | none
  | cmd (c : Cmd)
  deriving DecidableEq, Repr, Inhabited

/-- The result of one read-pulse-duration call: a duration in ticks, or `TIMEOUT` (R60, R83). -/
inductive Capture
  | dur (t : Nat)
  | timeout
  deriving DecidableEq, Repr, Inhabited

/-- A measurement: a duty cycle in percent, or the "distinguishable 'no signal' condition" (R75, R80). -/
inductive Meas
  | duty (q : ℚ)
  | noSignal
  deriving DecidableEq, Repr

/-- The debouncer's output: "either 'no change' or 'stable command = X'" (R59, R100). -/
inductive Report
  | noChange
  | stable (c : Cmd)
  deriving DecidableEq, Repr, Inhabited

/-- The driver's bookkeeping state (R20). -/
inductive DrvState
  | safeDefault
  | extending
  | holding
  | retracting
  deriving DecidableEq, Repr, Inhabited

/-- The channel's lifecycle (R22). -/
inductive ChState
  | uninit
  | run
  | cfgFault
  deriving DecidableEq, Repr, Inhabited

/-- The sequencer phase (R24). -/
inductive Phase
  | idle
  | measure
  | decode
  | debounce
  | drive
  deriving DecidableEq, Repr, Inhabited

/-- What the reference capture unit is waiting for (R30, R84); `idle` between calls, when its state is dead. -/
inductive CapPhase
  | idle
  | waitLow
  | waitRise
  | countHigh
  deriving DecidableEq, Repr, Inhabited

/-- What DECODE returns for a duty cycle outside 0 to 100 (R6, R93). -/
inductive OorPolicy
  | hold
  | saturate
  deriving DecidableEq, Repr, Inhabited

/-- The conditions a channel records (R145). -/
inductive FaultCode
  | fConfig
  | fNoSignal
  | fWrite
  | eExtTimeout
  deriving DecidableEq, Repr

/-- An operation as it is presented: "one header byte followed by operand words" (R63). -/
structure OpWord where
  header   : BitVec 8
  operands : List Word
  deriving DecidableEq, Repr

end Sys2Proof
end

