-- ==== Sys2Proof/Config.lean ====
section
/-!
DEFINITION. What is fixed for one device and is no state of a channel (`10_state.md` R31), and the values the
spec leaves to no rule at all, as constants without a body.
-/

namespace Sys2Proof

/-- The parameters of the step relation (R5, R6, R31). The spec offers each as an argument of the model; no
rule writes one. `NCH` is the length of the state's list of channels. -/
structure Params where
  /-- `TICK_HZ`, ticks per second; OPEN in the spec (R5, D1). -/
  tickHz      : Nat
  /-- `RETRACT_CFG` (R111). -/
  retractCfg  : LineCfg
  /-- `EXTEND_CFG` (R111, D9). -/
  extendCfg   : LineCfg
  /-- `STOP_CFG`, the levels after the travel limit expires (R111, D9). -/
  stopCfg     : LineCfg
  /-- `OOR_POLICY` (R93, D5). -/
  oorPolicy   : OorPolicy
  /-- `HAS_WR_STATUS`: whether the pin-access layer reports the outcome of a write (R124, D13). -/
  hasWrStatus : Bool
  /-- `DUR_W`, the width of a captured duration (R6, D15). -/
  durW        : Nat
  deriving DecidableEq, Repr

/-- The line levels of SAFE_DEFAULT, "hard-coded" as {HIGH, LOW} (R111, R170, R172). -/
def safeLines : LineCfg := ⟨.high, .low⟩

/-- The defaults of R6. DESIGN CHOICE (log entry 2, unsafe): `TICK_HZ` is OPEN in the spec; this value is the
one of the spec's test vectors, and no statement rests on it. -/
def Params.default : Params where
  tickHz      := 1000000
  retractCfg  := safeLines
  extendCfg   := ⟨.low, .high⟩
  stopCfg     := ⟨.low, .low⟩
  oorPolicy   := .hold
  hasWrStatus := false
  durW        := 32

/-- The conditions the spec puts on the parameters: `TICK_HZ` is positive (R5); `RETRACT_CFG` is the startup
pair (R111); `EXTEND_CFG` differs from each of the other two line configurations (R6). -/
abbrev Params.wf (p : Params) : Prop :=
  0 < p.tickHz ∧ p.retractCfg = safeLines ∧ p.retractCfg ≠ p.extendCfg ∧ p.stopCfg ≠ p.extendCfg

/-- FREE VALUE (R124, U4; log entry 7). After a failed write "each of the two direction pins has either its
old or its new level": `true` picks the new one. The arguments are the channel's index and its counter of
free values. -/
opaque Config.freePin (ch n : Nat) : Bool

/-- FREE VALUE (R14; log entry 5). What a history cell that was never written would read as: "it holds no
value". No rule reads such a cell in a reachable state. -/
opaque Config.unwrittenCell (i : Nat) : Cmd

/-- FREE VALUE (R67, R68, `93_implementation_defined.md` part 2; log entry 8). What the host reads from a
register without a value: "any value on a host read". The arguments are the channel, the register and a
number of the host's own for the read, so that two reads need not agree. -/
opaque Config.unspecifiedRead (ch reg n : Nat) : Nat

end Sys2Proof
end

