-- ==== Sys2Proof/Syntax.lean ====
section
/-!
DEFINITION. The nine operations of `spec/opcode_table.json` (`30_encoding.md` R64), one constructor a row, and
the two operand records: the configuration of INIT and the value operand of DECODE.
-/

namespace Sys2Proof

/-- The Actuator Configuration (R4, R10, R11), on the spec's own types: exact rationals for the frequency and
the percentages, naturals for counts, `TRAVEL` held as `TRAVEL_NUM / TRAVEL_DEN`. -/
structure ChanConfig where
  inPin       : Nat
  enPin       : Nat
  dirAPin     : Nat
  dirBPin     : Nat
  /-- `FREQ`, Hz. -/
  freq        : ℚ
  /-- `DMAX`, percent. -/
  dmax        : ℚ
  /-- `DMIN`, percent. -/
  dmin        : ℚ
  /-- `TOL`, percent of `DMAX - DMIN`. -/
  tol         : ℚ
  nsamp       : Nat
  hcap        : Nat
  travelNum   : Nat
  travelDen   : Nat
  strokeTicks : Nat
  deriving DecidableEq, Repr

/-- The operand of DECODE. A word carries the image `{nosig, acc}` (R61): `noSignal` or `acc`. `duty` is a duty
cycle given as a rational, which "can be given to DECODE only in a model on rationals" and has no word (R61,
`95_test_vectors.md` section 2.8; log entry 11). -/
inductive MeasArg
  | noSignal
  | acc (n : Nat)
  | duty (q : ℚ)
  deriving DecidableEq, Repr

/-- The operations (R64), each with the channel index of its header (R63). -/
inductive Instr
  /-- NOP, R130. -/
  | nop (ch : ChIndex)
  /-- RESET, R170. -/
  | reset (ch : ChIndex)
  /-- INIT, R132. -/
  | init (ch : ChIndex) (cfg : ChanConfig)
  /-- POLL, R136. With `HAS_WR_STATUS` its `wr_ok` is no field of its words (R63). -/
  | poll (ch : ChIndex) (rs : List Capture)
  /-- TICK, R118. With `HAS_WR_STATUS` its `wr_ok` is no field of its words (R63). -/
  | tick (ch : ChIndex)
  /-- MEASURE, R76. -/
  | measure (ch : ChIndex) (rs : List Capture)
  /-- DECODE, R91. -/
  | decode (ch : ChIndex) (m : MeasArg)
  /-- DEBOUNCE, R101. -/
  | debounce (ch : ChIndex) (c : Cmd)
  /-- DRIVE, R112, with the `wr_ok` of its word (R63, R124). -/
  | drive (ch : ChIndex) (r : Report) (wrOk : Bool)
  deriving DecidableEq, Repr

/-- The channel an operation is addressed to (R63). -/
def Instr.channel : Instr → ChIndex
  | .nop ch => ch
  | .reset ch => ch
  | .init ch _ => ch
  | .poll ch _ => ch
  | .tick ch => ch
  | .measure ch _ => ch
  | .decode ch _ => ch
  | .debounce ch _ => ch
  | .drive ch _ _ => ch

end Sys2Proof
end

