-- ==== Sys2Proof/WellFormed.lean ====
section
/-!
DEFINITION. Which operations have an encoding, and which of those a device of `nch` channels with parameters
`p` accepts as words (`30_encoding.md` R60 to R67).
-/

namespace Sys2Proof

/-- `q` is a whole number of units of `1 / unit` that fits `width` bits: the "image" of R67. -/
def hasImage (unit width : Nat) (q : ℚ) : Bool :=
  decide ((q * (unit : ℚ)).den = 1) && decide (0 ≤ q * (unit : ℚ)) && decide ((q * (unit : ℚ)).num < 2 ^ width)

/-- A configuration has an image: every field fits its register (R67). -/
def ChanConfig.encodable (c : ChanConfig) : Bool :=
  decide (c.inPin < 2 ^ 8) && decide (c.enPin < 2 ^ 8) && decide (c.dirAPin < 2 ^ 8) && decide (c.dirBPin < 2 ^ 8) &&
  hasImage 1000 32 c.freq && hasImage 100 16 c.dmax && hasImage 100 16 c.dmin && hasImage 100 16 c.tol &&
  decide (c.nsamp < 2 ^ 8) && decide (c.hcap < 2 ^ 8) && decide (c.travelNum < 2 ^ 16) &&
  decide (c.travelDen < 2 ^ 16) && decide (c.strokeTicks < 2 ^ 32)

/-- A captured duration fits the `DUR_W` bits of its word (R60). -/
def Capture.encodable (durW : Nat) : Capture → Bool
  | .timeout => true
  | .dur t => decide (t < 2 ^ durW)

/-- The operand of DECODE has a word: a sum fits `ACC_W = DUR_W + 8` bits, a bare rational has no image (R61). -/
def MeasArg.encodable (durW : Nat) : MeasArg → Bool
  | .noSignal => true
  | .acc n => decide (n < 2 ^ (durW + 8))
  | .duty _ => false

/-- The operation has an encoding with durations of `durW` bits. -/
def Instr.encodable (durW : Nat) : Instr → Bool
  | .nop _ => true
  | .reset _ => true
  | .init _ cfg => cfg.encodable
  | .poll _ rs => rs.all (Capture.encodable durW)
  | .tick _ => true
  | .measure _ rs => rs.all (Capture.encodable durW)
  | .decode _ m => m.encodable durW
  | .debounce _ _ => true
  | .drive _ _ _ => true

/-- The device takes the operation: its channel exists, and a DRIVE word has `wr_ok = 1` unless
`HAS_WR_STATUS` (R65). -/
def Instr.admitted (p : Params) (nch : Nat) (i : Instr) : Bool :=
  decide (i.channel.toNat < nch) &&
  match i with
  | .nop _ => true
  | .reset _ => true
  | .init _ _ => true
  | .poll _ _ => true
  | .tick _ => true
  | .measure _ _ => true
  | .decode _ _ => true
  | .debounce _ _ => true
  | .drive _ _ wrOk => wrOk || p.hasWrStatus

/-- A well-formed operation of a device: it has an encoding and the device does not refuse the word (R65; the
check of a sample list against the channel's `NSAMP` needs the channel and stands in `decodeFor`). -/
def Instr.wellFormed (p : Params) (nch : Nat) (i : Instr) : Bool :=
  i.encodable p.durW && i.admitted p nch

end Sys2Proof
end

