-- ==== Sys2Proof/Decode.lean ====
section
/-!
DEFINITION. The encodings of `30_encoding.md`: the codes of the values (R55 to R62), the header and operand
words (R63, R64, R67), the decoder, total and refusing by name (R65), and the encoder.
-/

namespace Sys2Proof

/-! ### Fields and codes -/

/-- `w[hi:lo]` (`00_scope.md` section 6). -/
def bitField (w hi lo : Nat) : Nat := w / 2 ^ lo % 2 ^ (hi + 1 - lo)

/-- R57. -/
def Level.code : Level → Nat
  | .low => 0
  | .high => 1

/-- R55. -/
def Cmd.code : Cmd → Nat
  | .retract => 0
  | .hold => 1
  | .extend => 2

/-- R55: `0b11` is reserved. -/
def Cmd.ofCode? : Nat → Option Cmd
  | 0 => some .retract
  | 1 => some .hold
  | 2 => some .extend
  | _ => none

/-- R56. -/
def LastCmd.code : LastCmd → Nat
  | .none => 3
  | .cmd c => c.code

/-- R59: `{stable, c[1:0]}`. -/
def Report.code : Report → Nat
  | .noChange => 0
  | .stable c => 4 + c.code

/-- R59: the patterns `0b001`, `0b010`, `0b011`, `0b111` are reserved. -/
def Report.ofCode? : Nat → Option Report
  | 0 => some .noChange
  | 4 => some (.stable .retract)
  | 5 => some (.stable .hold)
  | 6 => some (.stable .extend)
  | _ => none

/-- R62. -/
def ChState.code : ChState → Nat
  | .uninit => 0
  | .run => 1
  | .cfgFault => 2

/-- R62. -/
def DrvState.code : DrvState → Nat
  | .safeDefault => 0
  | .extending => 1
  | .holding => 2
  | .retracting => 3

/-- R62. -/
def Phase.code : Phase → Nat
  | .idle => 0
  | .measure => 1
  | .decode => 2
  | .debounce => 3
  | .drive => 4

/-- The line vector `{en, dir_a, dir_b}` (R58). -/
def lineVector (en dirA dirB : Level) : Nat := 4 * en.code + 2 * dirA.code + dirB.code

/-- R145: the codes of the recorded conditions (0 is "none"). -/
def FaultCode.code : FaultCode → Nat
  | .fConfig => 1
  | .fNoSignal => 2
  | .fWrite => 3
  | .eExtTimeout => 4

/-! ### Operand words -/

/-- A capture word `{to, t[DUR_W-1:0]}` (R60); bits above `to` are not looked at (log entry 10). -/
def Capture.ofWord (durW : Nat) (w : Word) : Capture :=
  if bitField w durW durW = 1 then .timeout else .dur (w % 2 ^ durW)

/-- R60; a `TIMEOUT` has `t` "written as zero". -/
def Capture.toWord (durW : Nat) : Capture → Word
  | .timeout => 2 ^ durW
  | .dur t => t

/-- A Meas image `{nosig, acc[ACC_W-1:0]}` with `ACC_W = DUR_W + 8` (R61). -/
def MeasArg.ofWord (durW : Nat) (w : Word) : MeasArg :=
  if bitField w (durW + 8) (durW + 8) = 1 then .noSignal else .acc (w % 2 ^ (durW + 8))

/-- R61. A bare rational has no image; the word given for it stands for nothing (`Instr.encodable` is false). -/
def MeasArg.toWord (durW : Nat) : MeasArg → Word
  | .noSignal => 2 ^ (durW + 8)
  | .acc n => n
  | .duty _ => 0

/-- The widths of the configuration registers `0x00` to `0x0C` (R67). -/
def cfgWidths : List Nat := [8, 8, 8, 8, 32, 16, 16, 16, 8, 8, 16, 16, 32]

/-- A register image in units of `1 / unit` as a rational (R67). -/
def ofImage (unit n : Nat) : ℚ := mkRat n unit

/-- The image of a rational in units of `1 / unit` that fits `width` bits, if it has one (R67). -/
def imageOf (unit width : Nat) (q : ℚ) : Option Nat :=
  if hasImage unit width q then some (q * (unit : ℚ)).num.toNat else none

/-- The 13 operand words of INIT, registers `0x00` to `0x0C` in order (R63, R67). -/
def ChanConfig.ofWords : List Word → Option ChanConfig
  | [inPin, enPin, aPin, bPin, freq, dmax, dmin, tol, nsamp, hcap, tnum, tden, stroke] =>
    some {
      inPin := inPin % 2 ^ 8, enPin := enPin % 2 ^ 8, dirAPin := aPin % 2 ^ 8, dirBPin := bPin % 2 ^ 8
      freq := ofImage 1000 (freq % 2 ^ 32), dmax := ofImage 100 (dmax % 2 ^ 16)
      dmin := ofImage 100 (dmin % 2 ^ 16), tol := ofImage 100 (tol % 2 ^ 16)
      nsamp := nsamp % 2 ^ 8, hcap := hcap % 2 ^ 8
      travelNum := tnum % 2 ^ 16, travelDen := tden % 2 ^ 16, strokeTicks := stroke % 2 ^ 32 }
  | _ => none

/-- The configuration image (R67); a value without an image is written as zero (`Instr.encodable` is false). -/
def ChanConfig.toWords (c : ChanConfig) : List Word :=
  [c.inPin, c.enPin, c.dirAPin, c.dirBPin,
   (imageOf 1000 32 c.freq).getD 0, (imageOf 100 16 c.dmax).getD 0, (imageOf 100 16 c.dmin).getD 0,
   (imageOf 100 16 c.tol).getD 0, c.nsamp, c.hcap, c.travelNum, c.travelDen, c.strokeTicks]

/-! ### The decoder -/

/-- Why a word is refused (R65). -/
inductive Invalid
  /-- `op` is `0x9` to `0xF`. -/
  | reservedOp (op : Nat)
  /-- `ch >= NCH`. -/
  | channelIndex (ch : Nat)
  /-- A `Cmd` operand is `0b11`. -/
  | reservedCmd
  /-- A `Report` operand is one of the reserved patterns of R59. -/
  | reservedReport (bits : Nat)
  /-- `wr_ok = 0` when `HAS_WR_STATUS` is false. -/
  | writeVerdict
  /-- A format S word list is shorter than `NSAMP`. -/
  | shortSampleList (found : Nat)
  /-- A word list that is not of the length the format fixes (R63; log entry 10). -/
  | wordCount (found : Nat)
  deriving DecidableEq, Repr

/-- Header bits 3:0 (R63). -/
def OpWord.op (w : OpWord) : Nat := bitField w.header.toNat 3 0

/-- Header bits 7:4 (R63). -/
def OpWord.ch (w : OpWord) : ChIndex := BitVec.ofNat 4 (bitField w.header.toNat 7 4)

/-- The form of a word (R63, R64): which operation it is, whatever the device. -/
def decode (durW : Nat) (w : OpWord) : Except Invalid Instr :=
  match w.op, w.operands with
  | 0, [] => .ok (.nop w.ch)
  | 1, [] => .ok (.reset w.ch)
  | 2, ws =>
    match ChanConfig.ofWords ws with
    | some cfg => .ok (.init w.ch cfg)
    | none => .error (.wordCount ws.length)
  | 3, ws => .ok (.poll w.ch (ws.map (Capture.ofWord durW)))
  | 4, [] => .ok (.tick w.ch)
  | 5, ws => .ok (.measure w.ch (ws.map (Capture.ofWord durW)))
  | 6, [v] => .ok (.decode w.ch (MeasArg.ofWord durW v))
  | 7, [v] =>
    match Cmd.ofCode? (bitField v 1 0) with
    | some c => .ok (.debounce w.ch c)
    | none => .error .reservedCmd
  | 8, [v] =>
    match Report.ofCode? (bitField v 2 0) with
    | some r => .ok (.drive w.ch r (bitField v 3 3 == 1))
    | none => .error (.reservedReport (bitField v 2 0))
  | op, ws => .error (if 9 ≤ op then .reservedOp op else .wordCount ws.length)

/-- What R65 asks of the device rather than of the word's form: the channel exists, and `wr_ok` is 1 unless
`HAS_WR_STATUS`. -/
def deviceCheck (p : Params) (nch : Nat) (i : Instr) : Except Invalid Instr :=
  if nch ≤ i.channel.toNat then .error (.channelIndex i.channel.toNat)
  else match i with
    | .drive _ _ false => if p.hasWrStatus then .ok i else .error .writeVerdict
    | _ => .ok i

/-- The last check of R65: a format S list is not shorter than the channel's `NSAMP`, where the channel has
one (`nsampOf`; none before INIT, when R131 has the operation ignored anyway). -/
def checkSamples (nsampOf : Nat → Option Nat) (i : Instr) : Except Invalid Instr :=
  match i with
  | .poll ch rs | .measure ch rs =>
    match nsampOf ch.toNat with
    | some n => if rs.length < n then .error (.shortSampleList rs.length) else .ok i
    | none => .ok i
  | _ => .ok i

/-- The whole decoder of a device: its form, then the device's own checks (R65). -/
def decodeFor (p : Params) (nch : Nat) (nsampOf : Nat → Option Nat) (w : OpWord) : Except Invalid Instr :=
  (decode p.durW w).bind fun i => (deviceCheck p nch i).bind (checkSamples nsampOf)

/-! ### The encoder -/

/-- The operation code (R64). -/
def Instr.opCode : Instr → Nat
  | .nop _ => 0
  | .reset _ => 1
  | .init _ _ => 2
  | .poll _ _ => 3
  | .tick _ => 4
  | .measure _ _ => 5
  | .decode _ _ => 6
  | .debounce _ _ => 7
  | .drive _ _ _ => 8

/-- The operand words (R63). -/
def Instr.operandWords (durW : Nat) : Instr → List Word
  | .nop _ => []
  | .reset _ => []
  | .init _ cfg => cfg.toWords
  | .poll _ rs => rs.map (Capture.toWord durW)
  | .tick _ => []
  | .measure _ rs => rs.map (Capture.toWord durW)
  | .decode _ m => [m.toWord durW]
  | .debounce _ c => [c.code]
  | .drive _ r wrOk => [r.code + if wrOk then 8 else 0]

/-- The word of an operation: the header `{ch, op}`, then the operand words (R63). -/
def encode (durW : Nat) (i : Instr) : OpWord where
  header   := BitVec.ofNat 8 (16 * i.channel.toNat + i.opCode)
  operands := i.operandWords durW

/-! ### Words numbered as the opcode table numbers them -/

/-- Cut a number into words of the given widths, the first in the lowest bits. -/
def splitWords : List Nat → Nat → List Word
  | [], _ => []
  | width :: widths, bits => bits % 2 ^ width :: splitWords widths (bits / 2 ^ width)

/-- How many operand words follow a table header, and how wide they are (R63). A format S list is given the
length no channel's `NSAMP` exceeds, 255 (R67; log entry 16). -/
def tableWidths (durW op : Nat) : List Nat :=
  match op with
  | 2 => cfgWidths
  | 3 => List.replicate 255 (durW + 1)
  | 5 => List.replicate 255 (durW + 1)
  | 6 => [durW + 9]
  | 7 => [2]
  | 8 => [4]
  | _ => []

/-- The operation word whose bits are `w`, header first; bits from `nbits` up are zero. -/
def tableWord (durW nbits w : Nat) : OpWord :=
  let bits := w % 2 ^ nbits
  { header := BitVec.ofNat 8 bits, operands := splitWords (tableWidths durW (bits % 16)) (bits / 256) }

/-- The instruction the decoder reads from a table word, with the default `DUR_W` (R6). -/
def decodeTableWord (nbits w : Nat) : Option Instr :=
  (decode Params.default.durW (tableWord Params.default.durW nbits w)).toOption

end Sys2Proof
end

