-- ==== Sys2Proof/Machine/State.lean ====
section
/-!
DEFINITION. The state of a device (`10_state.md`): plain data, one record per channel, beside the operations
that are presented and not yet performed. Reset values are R171's; the values it calls unspecified are named
in the assumption log.
-/

namespace Sys2Proof.Machine

/-- The history space (R40 (a)): the cells that were written, by index, strictly rising. A cell that is not
listed "holds no value" (R14; log entry 17). -/
abbrev Memory := List (Nat × Cmd)

/-- The canonical form of the history space: indices strictly rising, so that equal contents are equal lists. -/
abbrev Memory.wf (m : Memory) : Prop := m.Pairwise (fun a b => a.1 < b.1)

/-- `cfg_cause`: one bit per check of R133, named as R70 names them. -/
structure CfgCause where
  cFreq   : Bool := false
  cOrder  : Bool := false
  cRange  : Bool := false
  cTol    : Bool := false
  cNsamp  : Bool := false
  cHcap   : Bool := false
  cTravel : Bool := false
  cStroke : Bool := false
  cPins   : Bool := false
  cWidth  : Bool := false
  deriving DecidableEq, Repr

/-- No check failed (R27, R171). -/
def CfgCause.empty : CfgCause := {}

/-- One channel (`10_state.md` section 1). -/
structure Channel where
  /-- `cfg`; it "holds no value until INIT writes it" (R13; log entry 4). -/
  cfg      : Option ChanConfig
  /-- The history cells `h` (R14). -/
  h        : Memory
  /-- `cnt` (R15). -/
  cnt      : Nat
  /-- `wp` (R16). -/
  wp       : Nat
  /-- `last_cmd` (R18). -/
  lastCmd  : LastCmd
  /-- `en`, `dir_a`, `dir_b` (R19). -/
  en       : Level
  dirA     : Level
  dirB     : Level
  /-- `drv_state` (R20). -/
  drvState : DrvState
  /-- `ext_timer` (R21). -/
  extTimer : Nat
  /-- `ch_state` (R22). -/
  chState  : ChState
  /-- `phase` (R24). -/
  phase    : Phase
  /-- `nosig` (R25). -/
  nosig    : Bool
  /-- `cfg_cause` (R27). -/
  cfgCause : CfgCause
  /-- `wr_fault` (R28). -/
  wrFault  : Bool
  /-- The pipeline latches `acc`, `k`, `meas`, `cmd`, `rpt` (R29). -/
  acc      : Nat
  k        : Nat
  meas     : Meas
  cmd      : Cmd
  rpt      : Report
  /-- The levels on the three output pins (R40 (b)); they are those of `en`, `dir_a`, `dir_b` but after a
  failed write (R19, R124; log entry 14). -/
  pinEn    : Level
  pinA     : Level
  pinB     : Level
  /-- The reference capture unit's `cap_phase`, `cap_wait`, `cap_high` (R30; log entry 13). -/
  capPhase : CapPhase
  capWait  : Nat
  capHigh  : Nat
  /-- The MODEL's own: how many free values this channel has used (log entry 7). -/
  free     : Nat
  deriving DecidableEq, Repr

/-- An operation presented to the device, with the pin-access layer's verdict on the line write it may make:
"an input that arrives from that layer during the operation" (R63, R165), ignored without `HAS_WR_STATUS` (log entry
12). -/
structure Presented where
  word : OpWord
  wrOk : Bool := true
  deriving DecidableEq, Repr

/-- The device: its parameters (R31, never written; log entry 3), its `NCH` channels (R167), and the inputs. -/
structure State where
  params   : Params
  channels : List Channel
  /-- The operations the host and the time base have presented and that are not yet performed, in the order of
  issue (R48, R151). -/
  pending  : List Presented
  /-- The pin-access layer's verdict for the operation in progress (R63, R124). -/
  wrOk     : Bool
  deriving DecidableEq, Repr

/-- Why the machine stops. -/
inductive Fault
  /-- Raised by POLL, MEASURE, DECODE, DEBOUNCE and TICK in a state that no run reaches: the rule reads `cfg`
  and `cfg` holds no value. "a read by the model is a bug of the model (`fault`)"
  (`93_implementation_defined.md` part 2). Safe: the machine stops. -/
  | configurationUnwritten
  deriving DecidableEq, Repr

/-- Why an operation has no meaning. -/
inductive Refusal
  /-- Raised by an arm of `exec` that gives its operation no meaning; no arm does. Safe: the machine stops. -/
  | notModelled (mnemonic : String)
  deriving DecidableEq, Repr

/-- A channel after RESET (R171). The values R171 calls unspecified and dead (the latches) are log entry 6's; the
history has no written cell and `cfg` no value. -/
def Channel.reset : Channel where
  cfg      := none
  h        := []
  cnt      := 0
  wp       := 0
  lastCmd  := .none
  en       := .high
  dirA     := .high
  dirB     := .low
  drvState := .safeDefault
  extTimer := 0
  chState  := .uninit
  phase    := .idle
  nosig    := false
  cfgCause := .empty
  wrFault  := false
  acc      := 0
  k        := 0
  meas     := .noSignal
  cmd      := .hold
  rpt      := .noChange
  pinEn    := .high
  pinA     := .high
  pinB     := .low
  capPhase := .idle
  capWait  := 0
  capHigh  := 0
  free     := 0

/-- A device of `nch` channels with parameters `p`, right after reset, with nothing presented. -/
def State.resetOf (p : Params) (nch : Nat) : State where
  params   := p
  channels := List.replicate nch Channel.reset
  pending  := []
  wrOk     := true

/-- The device with the default parameters of R6 (`NCH = 1`), right after reset. -/
def State.reset : State := State.resetOf Params.default 1

end Sys2Proof.Machine
end

