-- ==== Sys2Proof/Machine/Ops.lean ====
section
/-!
DEFINITION. The named operations the meanings share: the history space, the channels of a device, the output
lines and pins, the record of a condition (R145: this hardware takes no exception; it records), and the taking
of the next presented operation.
-/

namespace Sys2Proof.Machine

/-! ### The history space (`20_memory.md`) -/

/-- What a cell holds, if it was written (R14). -/
def Memory.read? : Memory → Nat → Option Cmd
  | [], _ => none
  | (j, v) :: rest, i => if j = i then some v else Memory.read? rest i

/-- `h[i]`. A cell without a value reads as a free value (log entry 5). -/
def Memory.read (m : Memory) (i : Nat) : Cmd := (m.read? i).getD (Config.unwrittenCell i)

/-- `h[i] <- v`, keeping the indices strictly rising. -/
def Memory.write : Memory → Nat → Cmd → Memory
  | [], i, v => [(i, v)]
  | (j, w) :: rest, i, v =>
    if i < j then (i, v) :: (j, w) :: rest
    else if i = j then (i, v) :: rest
    else (j, w) :: Memory.write rest i v

/-- `MemRead(addr, n)`: `n` consecutive cells from `addr`, "indices taken modulo `HCAP`". -/
def Memory.readSeq (m : Memory) (hcap addr n : Nat) : List Cmd :=
  (List.range n).map fun i => m.read ((addr + i) % hcap)

/-- `all_equal(seq)`: "every element of the sequence equals the first; false on the empty sequence". -/
def allEqual : List Cmd → Bool
  | [] => false
  | c :: cs => cs.all (· == c)

/-- `window()` (R17), oldest first. -/
def Channel.window (hcap : Nat) (c : Channel) : List Cmd :=
  if c.cnt < hcap then c.h.readSeq hcap 0 c.cnt else c.h.readSeq hcap c.wp hcap

/-! ### Lines and pins -/

/-- `lines`: the pair `(dir_a, dir_b)`. -/
def Channel.lines (c : Channel) : LineCfg := ⟨c.dirA, c.dirB⟩

/-- `lines <- l`: both direction lines, and the pins they drive, "in the same instant" (R19, R45). -/
def Channel.putLines (l : LineCfg) (c : Channel) : Channel :=
  { c with dirA := l.dirA, dirB := l.dirB, pinA := l.dirA, pinB := l.dirB }

/-- The line write of this operation is reported failed (R124): only with `HAS_WR_STATUS`. -/
def writeFails (p : Params) (wrOk : Bool) : Bool := p.hasWrStatus && !wrOk

/-- A line write reported good: the lines change, and with `HAS_WR_STATUS` `wr_fault <- 0` (R28, R124). -/
def Channel.goodWrite (p : Params) (l : LineCfg) (c : Channel) : Channel :=
  { c.putLines l with wrFault := c.wrFault && !p.hasWrStatus }

/-- After a failed write a direction pin "has either its old or its new level" (R124, U4; log entry 7). -/
def pinAfterFailure (pick : Bool) (old new : Level) : Level := if pick then new else old

/-! ### Recording a condition (R145) and leaving it (R159) -/

/-- `raise <Fault>`: "record the fault ...; it is not a control transfer to a handler" (`00_scope.md` section 6,
R145, R152, R156 to R158). `F_CONFIG` records the failed checks. -/
def Channel.raise (p : Params) (code : FaultCode) (cause : CfgCause) (c : Channel) : Channel :=
  match code with
  | .fConfig => { c with chState := .cfgFault, cfgCause := cause }
  | .fNoSignal => { c with nosig := true }
  | .fWrite => { c with wrFault := true }
  | .eExtTimeout => { c.goodWrite p p.stopCfg with extTimer := 0, drvState := .holding }

/-- A failed write of `l`: `F_WRITE` is recorded and the state keeps "the last confirmed levels"; each
direction pin is left at its old or its new level (R124, R158). -/
def Channel.failedWrite (p : Params) (ch : Nat) (l : LineCfg) (c : Channel) : Channel :=
  { c.raise p .fWrite .empty with
    pinA := pinAfterFailure (Config.freePin ch c.free) c.pinA l.dirA
    pinB := pinAfterFailure (Config.freePin ch (c.free + 1)) c.pinB l.dirB
    free := c.free + 2 }

/-! ### Channels -/

/-- `NCH` (R167). -/
def State.nch (s : State) : Nat := s.channels.length

/-- Channel `ch`, if the device has it. -/
def State.channel? (s : State) (ch : ChIndex) : Option Channel := s.channels[ch.toNat]?

/-- Channel `ch` replaced; no other channel is touched (R8, R161). -/
def State.setChannel (s : State) (ch : ChIndex) (c : Channel) : State :=
  { s with channels := s.channels.set ch.toNat c }

/-- What an operation makes of its channel. -/
abbrev ChannelOutcome := Host.Outcome Channel Fault Refusal

/-- An operation of one channel as an operation of the device. A channel the device does not have: the word is
refused and "changes no state of any channel" (R65). -/
def State.onChannel (s : State) (ch : ChIndex) (f : Channel → ChannelOutcome) :
    Host.Outcome State Fault Refusal :=
  match s.channel? ch with
  | none => .next s
  | some c =>
    match f c with
    | .next c' => .next (s.setChannel ch c')
    | .fault e => .fault e
    | .refused e => .refused e

/-- The lifecycle guard of the pipeline operations: in any state but `RUN` the operation is "ignored: it changes
no state and raises nothing" (R131; log entry 18). -/
def Channel.whenRun (c : Channel) (f : Channel → ChannelOutcome) : ChannelOutcome :=
  match c.chState with
  | .run => f c
  | .uninit => .next c
  | .cfgFault => .next c

/-- An operation that reads `cfg` (R13): no reachable state reads it without a value. -/
def Channel.withCfg (c : Channel) (f : ChanConfig → ChannelOutcome) : ChannelOutcome :=
  match c.cfg with
  | some cfg => f cfg
  | none => .fault .configurationUnwritten

/-! ### Presented operations -/

/-- The channel's `NSAMP`, once it has a configuration (R13, R65). -/
def State.nsampOf (s : State) (ch : Nat) : Option Nat :=
  match s.channels[ch]? with
  | some c => c.cfg.map (·.nsamp)
  | none => none

/-- The decoder of this device in this state (R65). -/
def State.decodeWord (s : State) (w : OpWord) : Except Invalid Instr :=
  decodeFor s.params s.nch s.nsampOf w

/-- The host or the time base presents an operation after those already presented (R48). -/
def State.present (s : State) (q : Presented) : State := { s with pending := s.pending ++ [q] }

/-- Several operations presented together, in order. -/
def State.presentAll (s : State) (qs : List Presented) : State := { s with pending := s.pending ++ qs }

/-- An operation placed so that it is the next one performed. -/
def State.presentNext (s : State) (q : Presented) : State := { s with pending := q :: s.pending }

/-- Take the next presented operation, with the verdict the pin-access layer gives during it; none if nothing is
presented. -/
def State.takeOperation (s : State) : Option (State × Except Invalid Instr) :=
  match s.pending with
  | [] => none
  | q :: rest => some ({ s with pending := rest, wrOk := q.wrOk }, s.decodeWord q.word)

end Sys2Proof.Machine
end

