-- ==== Sys2Proof/Machine/Operands.lean ====
section
/-!
DEFINITION. The constants of a configuration (R12), the value operand of DECODE (R61) and the sample list of
MEASURE and POLL (R63, R76).
-/

namespace Sys2Proof.Machine

/-- `P = TICK_HZ / FREQ`, the nominal period in ticks (R12). -/
def period (p : Params) (cfg : ChanConfig) : ℚ := (p.tickHz : ℚ) / cfg.freq

/-- `band = (DMAX - DMIN) * TOL / 100` (R12). -/
def band (cfg : ChanConfig) : ℚ := (cfg.dmax - cfg.dmin) * cfg.tol / 100

/-- `TH_EXT = DMAX - band` (R12). -/
def thExt (cfg : ChanConfig) : ℚ := cfg.dmax - band cfg

/-- `TH_RET = DMIN + band` (R12). -/
def thRet (cfg : ChanConfig) : ℚ := cfg.dmin + band cfg

/-- `EXT_LIMIT = floor(TRAVEL_NUM * STROKE_TICKS / TRAVEL_DEN)` (R12). -/
def extLimit (cfg : ChanConfig) : Nat := cfg.travelNum * cfg.strokeTicks / cfg.travelDen

/-- `100 * FREQ * acc / (NSAMP * TICK_HZ)` (R61, R76, R79). -/
def dutyOf (p : Params) (cfg : ChanConfig) (acc : Nat) : ℚ :=
  100 * cfg.freq * (acc : ℚ) / ((cfg.nsamp : ℚ) * (p.tickHz : ℚ))

/-- The `Meas` an operand of DECODE stands for (R61). -/
def measOf (p : Params) (cfg : ChanConfig) : MeasArg → Meas
  | .noSignal => .noSignal
  | .acc n => .duty (dutyOf p cfg n)
  | .duty q => .duty q

/-- The operand of DECODE that hands it a measurement as it is. -/
def argOf : Meas → MeasArg
  | .noSignal => .noSignal
  | .duty q => .duty q

/-- The `NSAMP` captures an operation looks at: the first `NSAMP` of its list (R76; log entry 10). None if the
list is too short: such a word is refused (R65). -/
def samples? (cfg : ChanConfig) (rs : List Capture) : Option (List Capture) :=
  if rs.length < cfg.nsamp then none else some (rs.take cfg.nsamp)

end Sys2Proof.Machine
end

