-- ==== Sys2Proof/Machine/Flags.lean ====
section
/-!
DEFINITION. The flags (`10_state.md` section 7): the validity checks that make `cfg_cause` (R70, R133), and the
derived flag `full` (R26).
-/

namespace Sys2Proof.Machine

/-- Two of the four pins are the same (R70 bit 8). -/
def pinsClash (cfg : ChanConfig) : Bool :=
  !decide (List.Nodup [cfg.inPin, cfg.enPin, cfg.dirAPin, cfg.dirBPin])

/-- The checks the configuration fails (R70, R133). A check that uses a quotient is evaluated only when the
quotient exists. -/
def cfgChecks (p : Params) (cfg : ChanConfig) : CfgCause where
  cFreq   := decide (cfg.freq ≤ 0)
  cOrder  := decide (cfg.dmax ≤ cfg.dmin)
  cRange  := decide (cfg.dmin < 0) || decide (100 < cfg.dmax)
  cTol    := decide (cfg.tol < 0) || decide (50 ≤ cfg.tol)
  cNsamp  := decide (cfg.nsamp = 0)
  cHcap   := decide (cfg.hcap = 0)
  cTravel := decide (cfg.travelDen = 0) || decide (cfg.travelNum = 0) || decide (cfg.travelDen < cfg.travelNum)
  cStroke := decide (cfg.strokeTicks = 0) || (decide (1 ≤ cfg.travelDen) && decide (extLimit cfg = 0))
  cPins   := pinsClash cfg
  cWidth  := decide (0 < cfg.freq) && decide (((2 ^ p.durW : Nat) : ℚ) ≤ period p cfg)

/-- Every check of R133 passes. -/
abbrev Valid (p : Params) (cfg : ChanConfig) : Prop := cfgChecks p cfg = CfgCause.empty

/-- The register image of `cfg_cause` (R70). -/
def causeImage (q : CfgCause) : Nat :=
  q.cFreq.toNat + 2 * q.cOrder.toNat + 4 * q.cRange.toNat + 8 * q.cTol.toNat + 16 * q.cNsamp.toNat +
  32 * q.cHcap.toNat + 64 * q.cTravel.toNat + 128 * q.cStroke.toNat + 256 * q.cPins.toNat +
  512 * q.cWidth.toNat

/-- `full`: `cnt = HCAP`; it "reads 0 while `ch_state != RUN`" (R26, R68). -/
def full (c : Channel) : Bool :=
  match c.chState, c.cfg with
  | .run, some cfg => c.cnt == cfg.hcap
  | _, _ => false

end Sys2Proof.Machine
end

