-- ==== Sys2Proof/Machine/Lifecycle.lean ====
section
/-!
DEFINITION. NOP, RESET and INIT (`44_control.md` sections 1 to 3, `70_reset_and_hazards.md` section 1).
-/

namespace Sys2Proof.Machine

/-- NOP (R130): it "reads and writes nothing, in every lifecycle state". -/
def execNop (ch : ChIndex) (s : State) : Host.Outcome State Fault Refusal :=
  s.onChannel ch fun c => .next c

/-- RESET of a channel (R170). The model's own counter of free values runs on, so that no free value is used
twice (log entry 7). -/
def resetChannel (c : Channel) : Channel := { Channel.reset with free := c.free }

/-- RESET (R170), accepted in every lifecycle state. -/
def execReset (ch : ChIndex) (s : State) : Host.Outcome State Fault Refusal :=
  s.onChannel ch fun c => .next (resetChannel c)

/-- INIT of a channel (R132): ignored unless `UNINIT`; else the configuration and the failed checks are recorded
and the channel runs, or `F_CONFIG` is raised (R146, R156). -/
def initChannel (p : Params) (cfg : ChanConfig) (c : Channel) : Channel :=
  match c.chState with
  | .run => c
  | .cfgFault => c
  | .uninit =>
    let cause := cfgChecks p cfg
    let c1 := { c with cfg := some cfg, cfgCause := cause }
    if cause = .empty then { c1 with chState := .run } else c1.raise p .fConfig cause

/-- INIT (R132). -/
def execInit (ch : ChIndex) (cfg : ChanConfig) (s : State) : Host.Outcome State Fault Refusal :=
  s.onChannel ch fun c => .next (initChannel s.params cfg c)

end Sys2Proof.Machine
end

