-- ==== Sys2Proof/Machine/Debounce.lean ====
section
/-!
DEFINITION. DEBOUNCE, the HistoryDebouncer (`42_debounce.md`).
-/

namespace Sys2Proof.Machine

/-- The push (R101, R102): one cell written at the cursor, the cursor moved on, `cnt` counted up to `HCAP`. -/
def pushCmd (hcap : Nat) (v : Cmd) (c : Channel) : Channel :=
  { c with
    h   := c.h.write c.wp v
    wp  := (c.wp + 1) % hcap
    cnt := if c.cnt < hcap then c.cnt + 1 else c.cnt }

/-- The test (R101, R103) on the state after the push: the window is full, it is uniform, and its command is not
the last delivered one. -/
def stableTest (hcap : Nat) (c : Channel) : Report :=
  if c.cnt = hcap ∧ allEqual (c.window hcap) = true ∧ LastCmd.cmd (c.h.read 0) ≠ c.lastCmd
  then .stable (c.h.read 0)
  else .noChange

/-- DEBOUNCE (R101); the report goes to the latch `rpt` (R29). -/
def debounceChannel (cfg : ChanConfig) (v : Cmd) (c : Channel) : Channel :=
  let c := pushCmd cfg.hcap v c
  { c with rpt := stableTest cfg.hcap c }

/-- DEBOUNCE (R101) under the lifecycle guard (R131). -/
def execDebounce (ch : ChIndex) (v : Cmd) (s : State) : Host.Outcome State Fault Refusal :=
  s.onChannel ch fun c => c.whenRun fun c => c.withCfg fun cfg =>
    .next (debounceChannel cfg v c)

end Sys2Proof.Machine
end

