-- ==== Sys2Proof/Machine/Drive.lean ====
section
/-!
DEFINITION. DRIVE and TICK, the ActuatorDriver (`43_drive.md`), with the write-status option (R124).
-/

namespace Sys2Proof.Machine

/-- A stable command that asserts the line configuration `l` (R115, R116): the lines, the timer from 0, the last
delivered command and `drv_state`; if the write is reported failed, `F_WRITE` and nothing else (R124). -/
def assertLines (p : Params) (ch : Nat) (wrOk : Bool) (l : LineCfg) (v : Cmd) (d : DrvState) (c : Channel) :
    Channel :=
  if writeFails p wrOk then c.failedWrite p ch l
  else { c.goodWrite p l with extTimer := 0, lastCmd := .cmd v, drvState := d }

/-- DRIVE (R112 to R116, R124). -/
def driveChannel (p : Params) (ch : Nat) (wrOk : Bool) (r : Report) (c : Channel) : Channel :=
  match r with
  | .noChange => c
  | .stable .hold => { c with lastCmd := .cmd .hold, drvState := .holding }
  | .stable .retract => assertLines p ch wrOk p.retractCfg .retract .retracting c
  | .stable .extend =>
    if c.lines = p.extendCfg then { c with lastCmd := .cmd .extend, drvState := .extending }
    else assertLines p ch wrOk p.extendCfg .extend .extending c

/-- DRIVE (R112) under the lifecycle guard (R131). Without `HAS_WR_STATUS` a word with `wr_ok = 0` is refused and
changes no state (R65). -/
def execDrive (ch : ChIndex) (r : Report) (wrOk : Bool) (s : State) : Host.Outcome State Fault Refusal :=
  s.onChannel ch fun c => c.whenRun fun c =>
    .next (if wrOk || s.params.hasWrStatus then driveChannel s.params ch.toNat wrOk r c else c)

/-- One tick with `EXT_LIMIT = limit` while the extend configuration is asserted (R118): the timer counts, or
the limit is reached and `E_EXT_TIMEOUT` releases the lines (R152); a release reported failed leaves them
extended and still counts (R124). -/
def tickExtended (p : Params) (ch : Nat) (wrOk : Bool) (limit : Nat) (c : Channel) : Channel :=
  if limit ≤ c.extTimer + 1 then
    if writeFails p wrOk then { c.failedWrite p ch p.stopCfg with extTimer := c.extTimer + 1 }
    else c.raise p .eExtTimeout .empty
  else { c with extTimer := c.extTimer + 1 }

/-- TICK (R118), accepted in every lifecycle state (R131): "the timer runs only while the extend configuration
is asserted". Its `wr_ok` is the pin-access layer's verdict, no field of its word (R63, R124). -/
def execTick (ch : ChIndex) (s : State) : Host.Outcome State Fault Refusal :=
  s.onChannel ch fun c =>
    if c.lines = s.params.extendCfg then
      c.withCfg fun cfg => .next (tickExtended s.params ch.toNat s.wrOk (extLimit cfg) c)
    else .next c

end Sys2Proof.Machine
end

