-- ==== Sys2Proof/Machine/Measure.lean ====
section
/-!
DEFINITION. MEASURE, the PulseWidthMeasurer (`40_measure.md` sections 1 and 2).
-/

namespace Sys2Proof.Machine

/-- The sample loop (R76) from the latches `acc` and `k` on: the final `acc` and `k`, and whether a `TIMEOUT`
ended it; "results after the first TIMEOUT are not looked at". -/
def sampleLoop : List Capture → Nat → Nat → Nat × Nat × Bool
  | [], acc, k => (acc, k, false)
  | .timeout :: _, acc, k => (acc, k + 1, true)
  | .dur t :: rest, acc, k => sampleLoop rest (acc + t) (k + 1)

/-- MEASURE on the samples it looks at (R76): the latches `acc`, `k`, `meas`, and `nosig`; a `TIMEOUT` raises
`F_NO_SIGNAL` (R147, R157). -/
def measureChannel (p : Params) (cfg : ChanConfig) (rs : List Capture) (c : Channel) : Channel :=
  match sampleLoop rs 0 0 with
  | (acc, k, true) => { c.raise p .fNoSignal .empty with acc := acc, k := k, meas := .noSignal }
  | (acc, k, false) => { c with nosig := false, acc := acc, k := k, meas := .duty (dutyOf p cfg acc) }

/-- MEASURE (R76) under the lifecycle guard (R131); a list shorter than `NSAMP` is a refused word (R65). -/
def execMeasure (ch : ChIndex) (rs : List Capture) (s : State) : Host.Outcome State Fault Refusal :=
  s.onChannel ch fun c => c.whenRun fun c => c.withCfg fun cfg =>
    match samples? cfg rs with
    | none => .next c
    | some rs => .next (measureChannel s.params cfg rs c)

end Sys2Proof.Machine
end

