-- ==== Sys2Proof/Machine/Position.lean ====
section
/-!
DEFINITION. DECODE, the PositionDecoder (`41_decode.md`): the operation of that name, not the decoder of
operation words.
-/

namespace Sys2Proof.Machine

/-- The duty cycle is outside 0 to 100 and `OOR_POLICY` makes that a HOLD (R93). -/
def outOfRange (p : Params) (q : ℚ) : Bool :=
  (decide (q < 0) || decide (100 < q)) && decide (p.oorPolicy = .hold)

/-- DECODE (R91, R92, R93): "a pure function: no hidden state" (R90). -/
def position (p : Params) (cfg : ChanConfig) : Meas → Cmd
  | .noSignal => .hold
  | .duty q =>
    if outOfRange p q then .hold
    else if thExt cfg ≤ q then .extend
    else if q ≤ thRet cfg then .retract
    else .hold

/-- DECODE into the latch `cmd` (R29, R91); no other state is written. -/
def decodeChannel (p : Params) (cfg : ChanConfig) (m : Meas) (c : Channel) : Channel :=
  { c with cmd := position p cfg m }

/-- DECODE (R91) under the lifecycle guard (R131). -/
def execDecode (ch : ChIndex) (m : MeasArg) (s : State) : Host.Outcome State Fault Refusal :=
  s.onChannel ch fun c => c.whenRun fun c => c.withCfg fun cfg =>
    .next (decodeChannel s.params cfg (measOf s.params cfg m) c)

end Sys2Proof.Machine
end

