-- ==== Sys2Proof/Machine/Poll.lean ====
section
/-!
DEFINITION. POLL, one pass of the pipeline (`44_control.md` section 4).
-/

namespace Sys2Proof.Machine

/-- The stages after MEASURE, each reading the latch the one before wrote (R29, R136). -/
def afterMeasure (p : Params) (ch : Nat) (wrOk : Bool) (cfg : ChanConfig) (c : Channel) : Channel :=
  let c := { c with phase := .decode }
  let c := decodeChannel p cfg c.meas c
  let c := { c with phase := .debounce }
  let c := debounceChannel cfg c.cmd c
  let c := { c with phase := .drive }
  let c := driveChannel p ch wrOk c.rpt c
  { c with phase := .idle }

/-- The pipeline (R136): MEASURE, DECODE, DEBOUNCE, DRIVE, "always in that order, never skipping a stage" (R24). -/
def pollChannel (p : Params) (ch : Nat) (wrOk : Bool) (cfg : ChanConfig) (rs : List Capture) (c : Channel) :
    Channel :=
  afterMeasure p ch wrOk cfg (measureChannel p cfg rs { c with phase := .measure })

/-- POLL (R136) under the lifecycle guard (R131); a list shorter than `NSAMP` is a refused word (R65). The
`wr_ok` of its DRIVE stage is the pin-access layer's verdict, no field of its word (R63, R124). -/
def execPoll (ch : ChIndex) (rs : List Capture) (s : State) : Host.Outcome State Fault Refusal :=
  s.onChannel ch fun c => c.whenRun fun c => c.withCfg fun cfg =>
    match samples? cfg rs with
    | none => .next c
    | some rs => .next (pollChannel s.params ch.toNat s.wrOk cfg rs c)

end Sys2Proof.Machine
end

