-- ==== Sys2Proof/Machine/Dispatch.lean ====
section
/-! DEFINITION. The meaning of every operation: one arm per constructor of `Instr` (R64). -/

namespace Sys2Proof.Machine

def exec (i : Instr) (s : State) : Host.Outcome State Fault Refusal :=
  match i with
  | .nop ch => Sys2Proof.Machine.execNop ch s
  | .reset ch => Sys2Proof.Machine.execReset ch s
  | .init ch cfg => Sys2Proof.Machine.execInit ch cfg s
  | .poll ch rs => Sys2Proof.Machine.execPoll ch rs s
  | .tick ch => Sys2Proof.Machine.execTick ch s
  | .measure ch rs => Sys2Proof.Machine.execMeasure ch rs s
  | .decode ch m => Sys2Proof.Machine.execDecode ch m s
  | .debounce ch v => Sys2Proof.Machine.execDebounce ch v s
  | .drive ch r wrOk => Sys2Proof.Machine.execDrive ch r wrOk s

end Sys2Proof.Machine
end

