-- ==== Sys2Proof/Machine/Step.lean ====
section
/-!
DEFINITION. One step: the next presented operation is taken and performed, "one at a time in the order they are
issued" (R48). The hardware fetches no instructions (R24); what stands for a fetch is the operation presented
next (log entry 1).
-/

namespace Sys2Proof.Machine

/-- A step. With nothing presented nothing happens (log entry 1). A refused word "changes no state of any
channel and raises no fault flag" (R65): it is consumed. -/
def step (s : State) : Host.Outcome State Fault Refusal :=
  match s.takeOperation with
  | none => .next s
  | some (s', .error _) => .next s'
  | some (s', .ok i) => exec i s'

/-- The state with the table word `w` presented as the next operation (`tableWord`). -/
def State.withFetchWord (s : State) (nbits w : Nat) : State :=
  s.presentNext { word := tableWord s.params.durW nbits w }

end Sys2Proof.Machine
end

