-- ==== Sys2Proof/Machine/Capture.lean ====
section
/-!
DEFINITION. The reference pulse-capture unit (`40_measure.md` section 3, R83 to R86), outside the core: as the
algorithm of R84, as a unit that samples the line once per tick on the state R30 names, and the measurer that
uses it (R86). The line's level at each tick is an input.
-/

namespace Sys2Proof.Machine

/-- `W = ceil(P)`, the bound on one wait for an edge, in ticks (R83). -/
def edgeBound (p : Params) (cfg : ChanConfig) : Nat := (period p cfg).ceil.toNat

/-- `floor(P)`, the longest pulse that is timed (R84). -/
def pulseBound (p : Params) (cfg : ChanConfig) : Nat := (period p cfg).floor.toNat

/-- One loop of R84 from tick `n`, with `left` ticks of its bound left: while the line is at `lv`, time out when
none is left, else go on. The tick at which it ended, and whether the line changed (`some`) or time ran out. -/
def waitWhile (lv : Level) (level : Nat → Level) : Nat → Nat → Nat × Bool
  | 0, n => (n, decide (level n ≠ lv))
  | left + 1, n => if level n = lv then waitWhile lv level left (n + 1) else (n, true)

/-- `capture(n0)` (R84) with the bounds `w` and `f`: WAIT_LOW, WAIT_RISE, COUNT_HIGH. The result, and the tick
at which the next call starts. -/
def capture (w f : Nat) (level : Nat → Level) (n0 : Nat) : Capture × Nat :=
  match waitWhile .high level w n0 with
  | (n, false) => (.timeout, n)
  | (n, true) =>
    match waitWhile .low level w n with
    | (n, false) => (.timeout, n)
    | (n, true) =>
      match waitWhile .high level f n with
      | (m, false) => (.timeout, m)
      | (m, true) => (.dur (m - n), m)

/-- Up to `k` calls, "each call starting at the tick the previous one returned", stopping at the first `TIMEOUT`
(R80, R86); the results in order, and the tick at which the last call ended. -/
def captureList (w f : Nat) (level : Nat → Level) : Nat → Nat → List Capture × Nat
  | 0, n => ([], n)
  | k + 1, n =>
    match capture w f level n with
    | (.timeout, m) => ([.timeout], m)
    | (.dur t, m) =>
      let rest := captureList w f level k m
      (.dur t :: rest.1, rest.2)

/-- The measurer using the reference unit from tick `n0` (R86): MEASURE on the captured results. -/
def measureLine (p : Params) (cfg : ChanConfig) (level : Nat → Level) (n0 : Nat) (c : Channel) : Channel × Nat :=
  let rs := captureList (edgeBound p cfg) (pulseBound p cfg) level cfg.nsamp n0
  (measureChannel p cfg rs.1 c, rs.2)

/-! ### The unit, tick by tick -/

/-- A call of read-pulse-duration starts: the unit waits for a pulse in progress to end; `cap_high` is dead and 0 (log
entry 13). -/
def captureStart (c : Channel) : Channel := { c with capPhase := .waitLow, capWait := 0, capHigh := 0 }

/-- The call ends; the unit's state is dead until the next (R30; its values are log entry 13's). -/
def captureDone (c : Channel) : Channel := { c with capPhase := .idle, capWait := 0, capHigh := 0 }

/-- COUNT_HIGH at one sample of the line, `t` ticks counted so far. R84 leaves `w` as it was here, and it is dead; the
model sets `cap_wait` to 0, its own choice (log entry 13). -/
def sampleCount (f : Nat) (lv : Level) (t : Nat) (c : Channel) : Channel × Option Capture :=
  match lv with
  | .low => (captureDone c, some (.dur t))
  | .high =>
    if t = f then (captureDone c, some .timeout)
    else ({ c with capPhase := .countHigh, capWait := 0, capHigh := t + 1 }, none)

/-- WAIT_RISE at one sample of the line, `n` ticks waited so far. R84 gives `t` no value before COUNT_HIGH; the model
holds `cap_high` at 0 in this wait and in WAIT_LOW, its own choice (log entry 13). -/
def sampleRise (w f : Nat) (lv : Level) (n : Nat) (c : Channel) : Channel × Option Capture :=
  match lv with
  | .high => sampleCount f lv 0 c
  | .low =>
    if n = w then (captureDone c, some .timeout)
    else ({ c with capPhase := .waitRise, capWait := n + 1, capHigh := 0 }, none)

/-- WAIT_LOW at one sample of the line, `n` ticks waited so far. -/
def sampleLow (w f : Nat) (lv : Level) (n : Nat) (c : Channel) : Channel × Option Capture :=
  match lv with
  | .low => sampleRise w f lv 0 c
  | .high =>
    if n = w then (captureDone c, some .timeout)
    else ({ c with capPhase := .waitLow, capWait := n + 1, capHigh := 0 }, none)

/-- The unit samples the line once (R84); the result, if the call ends at this tick. -/
def captureSample (w f : Nat) (lv : Level) (c : Channel) : Channel × Option Capture :=
  match c.capPhase with
  | .idle => (c, none)
  | .waitLow => sampleLow w f lv c.capWait c
  | .waitRise => sampleRise w f lv c.capWait c
  | .countHigh => sampleCount f lv c.capHigh c

/-- At most `fuel` samples from tick `n` on: the result and the tick at which the call ended, if it ended. -/
def captureRun (w f : Nat) (level : Nat → Level) : Nat → Nat → Channel → Channel × Option (Capture × Nat)
  | 0, _, c => (c, none)
  | fuel + 1, n, c =>
    match captureSample w f (level n) c with
    | (c, some r) => (c, some (r, n))
    | (c, none) => captureRun w f level fuel (n + 1) c

end Sys2Proof.Machine
end

