-- ==== Sys2Proof/Machine/Registers.lean ====
section
/-!
DEFINITION. The register space the host reads (`30_encoding.md` section 4, R66 to R70): "a read of a register
has no side effect" (R46).
-/

namespace Sys2Proof.Machine

/-- A value, or the free value of this read where the spec gives none (log entry 8), cut to the field's width. -/
def valueOr (ch reg n width : Nat) (v : Option Nat) : Nat :=
  v.getD (Config.unspecifiedRead ch reg n) % 2 ^ width

/-- `STATUS`, register `0x10` (R68). -/
def statusImage (c : Channel) : Nat :=
  c.chState.code + 4 * c.drvState.code + 16 * c.lastCmd.code + 64 * c.nosig.toNat + 128 * (full c).toNat +
  256 * c.wrFault.toNat + 512 * c.phase.code

/-- `HIST`, register `0x12` (R68); a field wider than its bits shows the low ones (log entry 9). -/
def histImage (c : Channel) : Nat := c.cnt % 2 ^ 8 + 2 ^ 8 * (c.wp % 2 ^ 8)

/-- `HCELL[i]`, register `0x20 + i` (R68), for `i < 224` (log entry 22): reserved, so zero, from `HCAP` on. Whether there is an `HCAP` to
compare with is `cfg`'s; before INIT no cell was written. -/
def hcellImage (ch n i : Nat) (c : Channel) : Nat :=
  match c.cfg with
  | some cfg => if i < cfg.hcap then valueOr ch (0x20 + i) n 2 ((c.h.read? i).map Cmd.code) else 0
  | none => valueOr ch (0x20 + i) n 2 none

/-- A read of register `num` of channel `ch`, the host's read number `n` (R66 to R68). Every number without a
register is "reserved and reads as zero". DESIGN CHOICE (log entry 22): with `HCAP > 224` the cells from 224 on have
no register, since `0x20 + i` is no 8-bit number for them, and a `num` from `2 ^ 8` on is none. -/
def Channel.readRegister (ch n num : Nat) (c : Channel) : Nat :=
  let cfgField (width : Nat) (get : ChanConfig → Option Nat) : Nat := valueOr ch num n width (c.cfg.bind get)
  match num with
  | 0x00 => cfgField 8 fun f => some f.inPin
  | 0x01 => cfgField 8 fun f => some f.enPin
  | 0x02 => cfgField 8 fun f => some f.dirAPin
  | 0x03 => cfgField 8 fun f => some f.dirBPin
  | 0x04 => cfgField 32 fun f => imageOf 1000 32 f.freq
  | 0x05 => cfgField 16 fun f => imageOf 100 16 f.dmax
  | 0x06 => cfgField 16 fun f => imageOf 100 16 f.dmin
  | 0x07 => cfgField 16 fun f => imageOf 100 16 f.tol
  | 0x08 => cfgField 8 fun f => some f.nsamp
  | 0x09 => cfgField 8 fun f => some f.hcap
  | 0x0A => cfgField 16 fun f => some f.travelNum
  | 0x0B => cfgField 16 fun f => some f.travelDen
  | 0x0C => cfgField 32 fun f => some f.strokeTicks
  | 0x10 => statusImage c
  | 0x11 => causeImage c.cfgCause
  | 0x12 => histImage c
  | 0x13 => lineVector c.en c.dirA c.dirB
  | 0x14 => c.extTimer % 2 ^ 32
  | 0x15 => cfgField 32 fun f => if f.travelDen = 0 then none else some (extLimit f)
  | _ => if 0x20 ≤ num ∧ num < 2 ^ 8 then hcellImage ch n (num - 0x20) c else 0

/-- A host read of a register of the device, whose numbers are 8 bits (R66; log entry 22); a channel the device does not have has no registers. -/
def State.readRegister (s : State) (ch : ChIndex) (num : BitVec 8) (n : Nat) : Option Nat :=
  (s.channel? ch).map (Channel.readRegister ch.toNat n num.toNat)

end Sys2Proof.Machine
end

