-- ==== Sys2Proof/Machine/Agents.lean ====
section
/-!
DEFINITION. What the agents outside the channel do with its operations: the pseudo-operations (`30_encoding.md`
R72, `44_control.md` R139), the time base, the startup and the polling loop (R135, R140, R141, R151), and the
tie-break of a clocked implementation (R154).
-/

namespace Sys2Proof.Machine

/-- One outcome after another: the first fault or refusal stands. -/
def andThen (r : Host.Outcome State Fault Refusal) (f : State → Host.Outcome State Fault Refusal) :
    Host.Outcome State Fault Refusal :=
  match r with
  | .next s => f s
  | .fault e => .fault e
  | .refused e => .refused e

/-- Operations one after another. -/
def execAll : List Instr → State → Host.Outcome State Fault Refusal
  | [], s => .next s
  | i :: is, s => andThen (exec i s) (execAll is)

/-- An operation with the pin-access layer's verdict on the line write it may make (R63, R124). -/
structure Issued where
  op   : Instr
  wrOk : Bool := true
  deriving DecidableEq, Repr

/-- Operations one after another, each with a verdict of its own. -/
def performAll : List Issued → State → Host.Outcome State Fault Refusal
  | [], s => .next s
  | q :: qs, s => andThen (exec q.op { s with wrOk := q.wrOk }) (performAll qs)

/-- `polld`: a poll whose averaged duty cycle, or its absence, is given directly; it writes `nosig` as the poll it
stands for (R72, R139). -/
def polld (ch : ChIndex) (m : Meas) (s : State) : Host.Outcome State Fault Refusal :=
  s.onChannel ch fun c => c.whenRun fun c => c.withCfg fun cfg =>
    let c := { c with meas := m, nosig := decide (m = .noSignal) }
    .next (afterMeasure s.params ch.toNat s.wrOk cfg c)

/-- `pollc`: a poll whose decoded command is given directly; it leaves `nosig` unchanged (R72, R139). -/
def pollc (ch : ChIndex) (v : Cmd) (s : State) : Host.Outcome State Fault Refusal :=
  s.onChannel ch fun c => c.whenRun fun c => c.withCfg fun cfg =>
    let c := debounceChannel cfg v c
    .next (driveChannel s.params ch.toNat s.wrOk c.rpt c)

/-- `tick <n>`: "`tick` repeated `n` times" (R72, R139), the `k`-th of them with the verdict `ok k` (R63, R124). -/
def tickTimes (ch : ChIndex) (ok : Nat → Bool) (n : Nat) (s : State) : Host.Outcome State Fault Refusal :=
  performAll ((List.range n).map fun k => ⟨.tick ch, ok k⟩) s

/-- The channel indices of the device, in order. -/
def State.channelIndices (s : State) : List ChIndex := (List.range s.nch).map (BitVec.ofNat 4)

/-- "One TICK of the time base is a TICK of every channel" (R141), each with its own verdict (R124). -/
def timeBaseTick (ok : ChIndex → Bool) (s : State) : Host.Outcome State Fault Refusal :=
  performAll (s.channelIndices.map fun ch => ⟨.tick ch, ok ch⟩) s

/-- Startup (R135, R177): "RESET of every channel ..., then INIT of every channel". -/
def startup (cfgs : ChIndex → ChanConfig) (s : State) : Host.Outcome State Fault Refusal :=
  performAll ((s.channelIndices.map fun ch => ⟨.reset ch, true⟩) ++
    s.channelIndices.map fun ch => ⟨.init ch (cfgs ch), true⟩) s

/-- One iteration of the polling loop: each channel polled once, in index order (R141, D19), with the captures
its input line yields and its own verdict (R124). -/
def pollRound (captures : ChIndex → List Capture) (ok : ChIndex → Bool) (s : State) :
    Host.Outcome State Fault Refusal :=
  performAll (s.channelIndices.map fun ch => ⟨.poll ch (captures ch), ok ch⟩) s

/-- The first `k` iterations of the polling loop, which "repeats this pipeline indefinitely" (R140). -/
def pollLoop (captures : Nat → ChIndex → List Capture) (ok : Nat → ChIndex → Bool) :
    Nat → State → Host.Outcome State Fault Refusal
  | 0, s => .next s
  | k + 1, s => andThen (pollLoop captures ok k s) (pollRound (captures k) (ok k))

/-- "RESET of every channel ..., then INIT of every channel, then the polling loop" (R135), up to its iteration
`k`. -/
def controlLoop (cfgs : ChIndex → ChanConfig) (captures : Nat → ChIndex → List Capture)
    (ok : Nat → ChIndex → Bool) (k : Nat) (s : State) : Host.Outcome State Fault Refusal :=
  andThen (startup cfgs s) (pollLoop captures ok k)

/-- The channel the host addresses with its `n`-th operation, in a device of `nch` channels (R141). -/
def hostChannel (nch n : Nat) : ChIndex := BitVec.ofNat 4 (n % nch)

/-- The `n`-th operation of the host, from 0: RESET of each channel, INIT of each channel, and then POLL of each
channel in turn, for ever; "the host issues nothing else" (R135, R140, R141). `rs` are the captures of a POLL. -/
def hostIssue (nch : Nat) (cfgs : ChIndex → ChanConfig) (rs : List Capture) (n : Nat) : Instr :=
  let ch := hostChannel nch n
  if n < nch then .reset ch
  else if n < 2 * nch then .init ch (cfgs ch)
  else .poll ch rs

/-- The operations one tick of the time base presents: a TICK of every channel (R141, R151). -/
def State.tickWords (s : State) (ok : ChIndex → Bool) : List Presented :=
  s.channelIndices.map fun ch => ⟨encode s.params.durW (.tick ch), ok ch⟩

/-- A TICK and an operation of the host due in the same cycle: "it performs the TICK first" (R154, D12; log
entry 15). -/
def State.presentTogether (s : State) (tick op : Presented) : State := (s.present tick).present op

end Sys2Proof.Machine
end

