-- ==== Sys2Proof/Safety.lean ====
section
/-!
DEFINITION. What claims about the channel are said in: the invariant of a channel (`10_state.md` R23 and the
invariants of its other rules), the runs of a device, and which words it refuses (R65).
-/

namespace Sys2Proof.Machine

/-- What holds of a channel of a device with parameters `p` between operations. -/
structure ChannelInv (p : Params) (c : Channel) : Prop where
  /-- R23, R19: "`en = HIGH` in every reachable state". -/
  enHigh : c.en = .high ∧ c.pinEn = .high
  /-- R23: `lines` is one of the three line configurations. -/
  linesLegal : c.lines = p.retractCfg ∨ c.lines = p.extendCfg ∨ c.lines = p.stopCfg
  /-- R23: `lines = EXTEND_CFG` implies `last_cmd != NONE`. -/
  extendedCommanded : c.lines = p.extendCfg → c.lastCmd ≠ .none
  /-- R23: what holds while `ch_state != RUN`. -/
  notRunning : c.chState ≠ .run → c.cnt = 0 ∧ c.wp = 0 ∧ c.lastCmd = .none ∧ c.lines = p.retractCfg ∧
    c.drvState = .safeDefault ∧ c.extTimer = 0
  /-- R13, R22: `cfg` has a value from INIT on. -/
  cfgWritten : c.chState = .uninit ↔ c.cfg = none
  /-- R22: a running channel's configuration is valid. -/
  runValid : c.chState = .run → ∀ cfg, c.cfg = some cfg → Valid p cfg
  /-- R27: `ch_state = CFG_FAULT` exactly when `cfg_cause` is non-empty. -/
  faultCaused : c.chState = .cfgFault ↔ c.cfgCause ≠ .empty
  /-- R15: "length ≤ capacity at all times". -/
  cntBounded : ∀ cfg, c.cfg = some cfg → c.cnt ≤ cfg.hcap
  /-- R16, R23: `cnt < HCAP` implies `wp = cnt`. -/
  cursorAtCount : ∀ cfg, c.cfg = some cfg → c.cnt < cfg.hcap → c.wp = c.cnt
  /-- R16: `wp` is an index of a cell. -/
  cursorInRange : c.chState = .run → ∀ cfg, c.cfg = some cfg → c.wp < cfg.hcap
  /-- The history space is in its canonical form. -/
  historyCanonical : c.h.wf
  /-- R14, R103: the cells with a value are the first `cnt`. -/
  cellsWritten : ∀ i, (c.h.read? i).isSome = true ↔ i < c.cnt
  /-- R21: `ext_timer = 0` whenever `lines != EXTEND_CFG`. -/
  timerStopped : c.lines ≠ p.extendCfg → c.extTimer = 0
  /-- R21: `ext_timer < EXT_LIMIT` whenever `lines = EXTEND_CFG`, without `HAS_WR_STATUS`. -/
  timerBounded : p.hasWrStatus = false → c.lines = p.extendCfg → ∀ cfg, c.cfg = some cfg →
    c.extTimer < extLimit cfg
  /-- R28, R19: without `HAS_WR_STATUS` no write fails, and the pins follow the lines. -/
  writesGood : p.hasWrStatus = false → c.wrFault = false ∧ c.pinA = c.dirA ∧ c.pinB = c.dirB
  /-- R24: `phase = IDLE` in every state between operations. -/
  phaseIdle : c.phase = .idle

/-- The invariant of a device: legal parameters, at most as many channels as a header can name (R63), and the
invariant of each channel. -/
def State.Inv (s : State) : Prop :=
  s.params.wf ∧ s.nch ≤ 16 ∧ ∀ c ∈ s.channels, ChannelInv s.params c

/-- The runs of a device: the host and the time base present any operations, with any verdict of the pin-access
layer, at any time, and the device performs them (R140, R151, U11). -/
inductive Run : State → State → Prop
  | start (s : State) : Run s s
  | present (s t : State) (q : Presented) : Run s t → Run s (t.present q)
  | step (s t u : State) : Run s t → step t = .next u → Run s u

/-- The runs of a device from `s` under the host of R140 and the time base, after the host presented its first `n`
operations: the host presents RESET and INIT of each channel and then POLLs for ever, and nothing else
(`hostIssue`); the time base presents a TICK of every channel, at any time (R141, R151, U11). A POLL has exactly the
`NSAMP` captures its channel's configuration asks for (R136), of any values, and each line write any verdict. -/
inductive HostRun (cfgs : ChIndex → ChanConfig) (s : State) : Nat → State → Prop
  | start : HostRun cfgs s 0 s
  | issue (n : Nat) (t : State) (rs : List Capture) (ok : Bool) : HostRun cfgs s n t →
      rs.length = (cfgs (hostChannel t.nch n)).nsamp →
      (hostIssue t.nch cfgs rs n).encodable t.params.durW = true →
      HostRun cfgs s (n + 1) (t.present ⟨encode t.params.durW (hostIssue t.nch cfgs rs n), ok⟩)
  | timeBase (n : Nat) (t : State) (ok : ChIndex → Bool) : HostRun cfgs s n t →
      HostRun cfgs s n (t.presentAll (t.tickWords ok))
  | step (n : Nat) (t u : State) : HostRun cfgs s n t → step t = .next u → HostRun cfgs s n u

/-- R65's list of the words a device refuses, on the bits of the word (R55, R59, R63). -/
def RefusedWord (s : State) (w : OpWord) : Prop :=
  let op := w.header.toNat % 16
  let ch := w.header.toNat / 16
  9 ≤ op ∨ s.nch ≤ ch ∨
  (op = 7 ∧ ∃ v, w.operands = [v] ∧ v % 4 = 3) ∨
  (op = 8 ∧ ∃ v, w.operands = [v] ∧ (v % 8 = 1 ∨ v % 8 = 2 ∨ v % 8 = 3 ∨ v % 8 = 7)) ∨
  (op = 8 ∧ s.params.hasWrStatus = false ∧ ∃ v, w.operands = [v] ∧ v / 8 % 2 = 0) ∨
  ((op = 3 ∨ op = 5) ∧ ∃ c cfg, s.channels[ch]? = some c ∧ c.cfg = some cfg ∧ w.operands.length < cfg.nsamp)

/-- The word has the number of operand words its format fixes (R63); a format S list is R65's to judge. -/
def RightLength (w : OpWord) : Prop :=
  let op := w.header.toNat % 16
  (op = 0 ∨ op = 1 ∨ op = 4 → w.operands.length = 0) ∧ (op = 2 → w.operands.length = 13) ∧
  (op = 6 ∨ op = 7 ∨ op = 8 → w.operands.length = 1)

end Sys2Proof.Machine
end

