-- ==== Sys2Proof/Certificates/Slice0/Obligations.lean ====
section
/-!
DEFINITION. The statements for the provers. In a statement about one channel, `c` is channel `ch` of `s` and
the next state is written out: `s.setChannel ch c'` is `s` with that channel replaced, so every field that is
not named is unchanged. `h` is a header byte: its low four bits the operation code, its high four the channel (R63).
-/

open Sys2Proof Sys2Proof.Machine

/-! ### The step and the words -/

/-- A step performs the operation presented next, with the verdict presented with it; with nothing presented
nothing happens (the latter is log entry 1's). -/
def Obligations.StepPerformsTheNextOperation : Prop :=
  (∀ (s : State) (q : Presented) (rest : List Presented) (i : Instr),
    s.pending = q :: rest → s.decodeWord q.word = .ok i →
    step s = exec i { s with pending := rest, wrOk := q.wrOk }) ∧
  (∀ s : State, s.pending = [] → step s = .next s)

/-- A well-formed operation, presented as its word, is the one the step performs. A format S list is not
shorter than the channel's `NSAMP`; that a longer one is performed is the model's choice (log entry 10). -/
def Obligations.EncodedOperationIsPerformed : Prop :=
  ∀ (s : State) (i : Instr) (ok : Bool) (rest : List Presented),
    s.pending = ⟨encode s.params.durW i, ok⟩ :: rest →
    i.wellFormed s.params s.nch = true →
    (∀ ch rs, i = .poll ch rs ∨ i = .measure ch rs →
      ∀ c cfg, s.channel? ch = some c → c.cfg = some cfg → cfg.nsamp ≤ rs.length) →
    step s = exec i { s with pending := rest, wrOk := ok }

/-- Decoding the encoding of any operation that has one gives it back (R55 to R64, R67). -/
def Obligations.DecodeOfEncodeIsTheOperation : Prop :=
  ∀ (durW : Nat) (i : Instr), i.encodable durW = true → decode durW (encode durW i) = .ok i

/-- The header of a word names its operation, by the codes of the table, and its channel; a format S word has one
operand word per capture (R63, R64). -/
def Obligations.HeaderNamesTheOperation : Prop :=
  ∀ (d : Nat) (w : OpWord) (i : Instr), decode d w = .ok i →
    i.channel.toNat = w.header.toNat / 16 ∧
    (w.header.toNat % 16 = 0 ↔ ∃ ch, i = .nop ch) ∧ (w.header.toNat % 16 = 1 ↔ ∃ ch, i = .reset ch) ∧
    (w.header.toNat % 16 = 2 ↔ ∃ ch f, i = .init ch f) ∧ (w.header.toNat % 16 = 3 ↔ ∃ ch rs, i = .poll ch rs) ∧
    (w.header.toNat % 16 = 4 ↔ ∃ ch, i = .tick ch) ∧ (w.header.toNat % 16 = 5 ↔ ∃ ch rs, i = .measure ch rs) ∧
    (w.header.toNat % 16 = 6 ↔ ∃ ch m, i = .decode ch m) ∧ (w.header.toNat % 16 = 7 ↔ ∃ ch v, i = .debounce ch v) ∧
    (w.header.toNat % 16 = 8 ↔ ∃ ch r ok, i = .drive ch r ok) ∧
    ∀ ch rs, i = .poll ch rs ∨ i = .measure ch rs → w.operands.length = rs.length

/-- Words written out from the spec's own examples (`30_encoding.md` section 6, `95_test_vectors.md` sections 0 and
2.8). -/
def Obligations.ExampleWordsDecode : Prop :=
  decode 32 ⟨0x00, []⟩ = .ok (.nop 0) ∧
  decode 32 ⟨0x11, []⟩ = .ok (.reset 1) ∧
  decode 32 ⟨0x03, [0x0_00000AF0, 0x1_00000000]⟩ = .ok (.poll 0 [.dur 2800, .timeout]) ∧
  decode 32 ⟨0x14, []⟩ = .ok (.tick 1) ∧
  decode 32 ⟨0x05, [0x0_00000AE6, 0x0_00000AD2]⟩ = .ok (.measure 0 [.dur 2790, .dur 2770]) ∧
  decode 32 ⟨0x06, [0x15E0]⟩ = .ok (.decode 0 (.acc 5600)) ∧
  decode 32 ⟨0x07, [0b10]⟩ = .ok (.debounce 0 .extend) ∧
  decode 32 ⟨0x08, [0b1100]⟩ = .ok (.drive 0 (.stable .retract) true) ∧
  decode 32 ⟨0x0B, []⟩ = .error (.reservedOp 11)

/-- A refused word changes no state of any channel and raises no fault flag; it is consumed (R65). -/
def Obligations.RefusedWordChangesNoState : Prop :=
  ∀ (s : State) (q : Presented) (rest : List Presented),
    s.pending = q :: rest → RefusedWord s q.word →
    (∃ e, s.decodeWord q.word = .error e) ∧ step s = .next { s with pending := rest, wrOk := q.wrOk }

/-- A device takes exactly the words of the right length that R65 does not refuse. MODEL'S CHOICES in it: a word with
another number of operand words than its format fixes is refused and a sample list longer than `NSAMP` is taken (log
entry 10); a short list before INIT, when there is no `NSAMP`, is taken (log entry 18). -/
def Obligations.WordIsTakenUnlessRefused : Prop :=
  ∀ (s : State) (w : OpWord),
    (∃ i, s.decodeWord w = .ok i) ↔ (¬ RefusedWord s w ∧ RightLength w)

/-- An operation addressed to a channel the device does not have changes nothing. -/
def Obligations.AbsentChannelChangesNothing : Prop :=
  ∀ (s : State) (i : Instr), s.nch ≤ i.channel.toNat → exec i s = .next s

/-! ### Reset and the lifecycle -/

/-- RESET, the word `{ch, 0x1}`, gives the documented values, in every lifecycle state and at any time (R170), and
writes all three output pins (R44). -/
def Obligations.ResetGivesTheDocumentedValues : Prop :=
  (∀ (d : Nat) (ch : ChIndex) (h : BitVec 8), h.toNat = 16 * ch.toNat + 1 → decode d ⟨h, []⟩ = .ok (.reset ch)) ∧
  ∀ (s : State) (ch : ChIndex) (c : Channel), s.channel? ch = some c →
    ∃ c' : Channel, exec (.reset ch) s = .next (s.setChannel ch c') ∧
      c'.en = .high ∧ c'.dirA = .high ∧ c'.dirB = .low ∧ c'.drvState = .safeDefault ∧ c'.extTimer = 0 ∧
      c'.lastCmd = .none ∧ c'.cnt = 0 ∧ c'.wp = 0 ∧ (∀ i, c'.h.read? i = none) ∧ c'.nosig = false ∧
      c'.cfgCause = .empty ∧ c'.wrFault = false ∧ c'.phase = .idle ∧ c'.chState = .uninit ∧ c'.cfg = none ∧
      c'.pinEn = .high ∧ c'.pinA = .high ∧ c'.pinB = .low

/-- NOP, the word `{ch, 0x0}`, changes nothing, in every lifecycle state (R130). -/
def Obligations.NopChangesNothing : Prop :=
  (∀ (d : Nat) (ch : ChIndex) (h : BitVec 8), h.toNat = 16 * ch.toNat → decode d ⟨h, []⟩ = .ok (.nop ch)) ∧
  ∀ (s : State) (ch : ChIndex), exec (.nop ch) s = .next s

/-- The lifecycle guard (R131): what a lifecycle state ignores is without any effect, and a TICK has none while
the channel does not run. -/
def Obligations.LifecycleGuardIgnores : Prop :=
  ∀ (s : State) (ch : ChIndex) (c : Channel), s.channel? ch = some c →
    (c.chState ≠ .uninit → ∀ cfg, exec (.init ch cfg) s = .next s) ∧
    (c.chState ≠ .run →
      (∀ rs, exec (.poll ch rs) s = .next s) ∧ (∀ rs, exec (.measure ch rs) s = .next s) ∧
      (∀ m, exec (.decode ch m) s = .next s) ∧ (∀ v, exec (.debounce ch v) s = .next s) ∧
      (∀ r ok, exec (.drive ch r ok) s = .next s)) ∧
    (ChannelInv s.params c → s.params.wf → c.chState ≠ .run → exec (.tick ch) s = .next s)

/-- INIT, the word `{ch, 0x2}` and the configuration image, of an `UNINIT` channel records the configuration and
every failed check, and the channel runs or is in `CFG_FAULT`; in any other state it is ignored (R132, with the checks of R133 on the bits of R70). -/
def Obligations.InitChecksTheConfiguration : Prop :=
  (∀ (d : Nat) (ch : ChIndex) (h : BitVec 8) (f : ChanConfig), h.toNat = 16 * ch.toNat + 2 → f.encodable = true →
    decode d ⟨h, f.toWords⟩ = .ok (.init ch f)) ∧
  ∀ (s : State) (ch : ChIndex) (c : Channel) (f : ChanConfig), s.channel? ch = some c →
    (c.chState ≠ .uninit → exec (.init ch f) s = .next s) ∧
    (c.chState = .uninit → ∃ cause : CfgCause,
      exec (.init ch f) s = .next (s.setChannel ch { c with
        cfg := some f, cfgCause := cause, chState := if cause = .empty then .run else .cfgFault }) ∧
      (cause.cFreq = true ↔ f.freq ≤ 0) ∧
      (cause.cOrder = true ↔ f.dmin ≥ f.dmax) ∧
      (cause.cRange = true ↔ (f.dmin < 0 ∨ f.dmax > 100)) ∧
      (cause.cTol = true ↔ (f.tol < 0 ∨ f.tol ≥ 50)) ∧
      (cause.cNsamp = true ↔ f.nsamp = 0) ∧
      (cause.cHcap = true ↔ f.hcap = 0) ∧
      (cause.cTravel = true ↔ (f.travelDen = 0 ∨
        (f.travelNum : ℚ) / (f.travelDen : ℚ) ≤ 0 ∨ (f.travelNum : ℚ) / (f.travelDen : ℚ) > 1)) ∧
      (cause.cStroke = true ↔ (f.strokeTicks = 0 ∨ (1 ≤ f.travelDen ∧
        ⌊(f.travelNum : ℚ) * (f.strokeTicks : ℚ) / (f.travelDen : ℚ)⌋ = 0))) ∧
      (cause.cPins = true ↔ (f.inPin = f.enPin ∨ f.inPin = f.dirAPin ∨ f.inPin = f.dirBPin ∨
        f.enPin = f.dirAPin ∨ f.enPin = f.dirBPin ∨ f.dirAPin = f.dirBPin)) ∧
      (cause.cWidth = true ↔ (f.freq > 0 ∧ (s.params.tickHz : ℚ) / f.freq ≥ (2 : ℚ) ^ s.params.durW)))

/-- On `F_CONFIG` only `ch_state`, `cfg_cause` and `cfg` change, and from then on every operation but RESET is
without effect (R156). -/
def Obligations.ConfigurationFaultIsLeftOnlyByReset : Prop :=
  ∀ (s : State) (ch : ChIndex) (c : Channel), s.params.wf → s.channel? ch = some c → ChannelInv s.params c →
    (∀ f : ChanConfig, c.chState = .uninit → ¬ Valid s.params f →
      exec (.init ch f) s = .next (s.setChannel ch { c with
        cfg := some f, cfgCause := cfgChecks s.params f, chState := .cfgFault })) ∧
    (c.chState = .cfgFault → ∀ i : Instr, i.channel = ch → i ≠ .reset ch → exec i s = .next s)

/-- RESET, then INIT with a valid configuration, brings a channel from any lifecycle state to `RUN`, with the lines at
SAFE_DEFAULT and an empty history (R159, R177). -/
def Obligations.ResetThenInitRuns : Prop :=
  ∀ (s : State) (ch : ChIndex) (c : Channel) (f : ChanConfig), s.channel? ch = some c → Valid s.params f →
    ∃ c' : Channel, execAll [.reset ch, .init ch f] s = .next (s.setChannel ch c') ∧
      c'.chState = .run ∧ c'.cfg = some f ∧ c'.cfgCause = .empty ∧ c'.en = .high ∧ c'.lines = safeLines ∧
      c'.drvState = .safeDefault ∧ c'.extTimer = 0 ∧ c'.lastCmd = .none ∧ c'.window f.hcap = []

/-! ### MEASURE and DECODE -/

/-- MEASURE, the word `{ch, 0x5}` and the captures, sums the captured durations and reports the duty cycle, or
`NO_SIGNAL` from the first `TIMEOUT` on; it writes `nosig` and its latches and nothing else (R76). How many results `k` counts at a `TIMEOUT` is log
entry 6's, and is left open here. -/
def Obligations.MeasureSumsUntilTimeout : Prop :=
  (∀ (d : Nat) (ch : ChIndex) (h : BitVec 8) (ws : List Word), h.toNat = 16 * ch.toNat + 5 →
    decode d ⟨h, ws⟩ = .ok (.measure ch (ws.map (Capture.ofWord d)))) ∧
  ∀ (s : State) (ch : ChIndex) (c : Channel) (f : ChanConfig) (ts : List Nat),
    s.channel? ch = some c → c.chState = .run → c.cfg = some f →
    (ts.length = f.nsamp →
      exec (.measure ch (ts.map .dur)) s = .next (s.setChannel ch { c with
        acc := ts.sum, k := f.nsamp, nosig := false
        meas := .duty (100 * f.freq * (ts.sum : ℚ) / ((f.nsamp : ℚ) * (s.params.tickHz : ℚ))) })) ∧
    (∀ rest : List Capture, ts.length + 1 + rest.length = f.nsamp →
      ∃ n, exec (.measure ch (ts.map .dur ++ .timeout :: rest)) s = .next (s.setChannel ch { c with
        acc := ts.sum, k := n, nosig := true, meas := .noSignal }))

/-- The measured duty cycle is the arithmetic mean of the samples' duty cycles, each against the nominal period
`P = TICK_HZ / FREQ` (R77, R78). -/
def Obligations.MeasureIsTheMeanDutyCycle : Prop :=
  ∀ (s : State) (ch : ChIndex) (c : Channel) (f : ChanConfig) (ts : List Nat),
    s.channel? ch = some c → c.chState = .run → c.cfg = some f → ts.length = f.nsamp →
    ∃ c' : Channel, exec (.measure ch (ts.map .dur)) s = .next (s.setChannel ch c') ∧
      c'.meas = .duty ((ts.map fun t : Nat => (t : ℚ) / ((s.params.tickHz : ℚ) / f.freq) * 100).sum / (f.nsamp : ℚ))

/-- MODEL'S CHOICE (log entry 10): capture words beyond the channel's `NSAMP` are not looked at. -/
def Obligations.CapturesBeyondNsampAreNotLookedAt : Prop :=
  ∀ (s : State) (ch : ChIndex) (c : Channel) (f : ChanConfig) (rs extra : List Capture),
    s.channel? ch = some c → c.cfg = some f → f.nsamp ≤ rs.length →
    exec (.measure ch (rs ++ extra)) s = exec (.measure ch rs) s ∧
    exec (.poll ch (rs ++ extra)) s = exec (.poll ch rs) s

/-- DECODE, the word `{ch, 0x6}` and a `Meas` image, compares the duty cycle with the two thresholds, after
`NO_SIGNAL` and the range; it writes its latch and nothing else (R91). A sum `acc` stands for `100 * FREQ * acc / (NSAMP * TICK_HZ)` (R61). -/
def Obligations.DecodeComparesWithTheThresholds : Prop :=
  (∀ (d : Nat) (ch : ChIndex) (h : BitVec 8) (w : Word), h.toNat = 16 * ch.toNat + 6 →
    decode d ⟨h, [w]⟩ = .ok (.decode ch (MeasArg.ofWord d w))) ∧
  ∀ (s : State) (ch : ChIndex) (c : Channel) (f : ChanConfig) (m : MeasArg),
    s.channel? ch = some c → c.chState = .run → c.cfg = some f →
    ∃ v : Cmd, exec (.decode ch m) s = .next (s.setChannel ch { c with cmd := v }) ∧
      (m = .noSignal → v = .hold) ∧
      ∀ q : ℚ, (m = .duty q ∨ ∃ n : Nat, m = .acc n ∧
          q = 100 * f.freq * (n : ℚ) / ((f.nsamp : ℚ) * (s.params.tickHz : ℚ))) →
        let bnd := (f.dmax - f.dmin) * f.tol / 100
        let oor := s.params.oorPolicy = .hold ∧ (q < 0 ∨ q > 100)
        (oor → v = .hold) ∧
        (¬ oor → q ≥ f.dmax - bnd → v = .extend) ∧
        (¬ oor → ¬ q ≥ f.dmax - bnd → q ≤ f.dmin + bnd → v = .retract) ∧
        (¬ oor → ¬ q ≥ f.dmax - bnd → ¬ q ≤ f.dmin + bnd → v = .hold)

/-- The comparisons without a division, by cross-multiplication (R94). -/
def Obligations.DecodeByCrossMultiplication : Prop :=
  ∀ (s : State) (ch : ChIndex) (c : Channel) (f : ChanConfig) (n : Nat),
    s.channel? ch = some c → c.chState = .run → c.cfg = some f → Valid s.params f → 0 < s.params.tickHz →
    let lhs : ℚ := f.freq * (n : ℚ)
    let scale : ℚ := (f.nsamp : ℚ) * (s.params.tickHz : ℚ)
    let v : Cmd :=
      if s.params.oorPolicy = .hold ∧ lhs > scale then .hold
      else if 100 * lhs ≥ thExt f * scale then .extend
      else if 100 * lhs ≤ thRet f * scale then .retract
      else .hold
    exec (.decode ch (.acc n)) s = .next (s.setChannel ch { c with cmd := v })

/-- The dead zone holds, the configured maximum extends, the minimum retracts, the midpoint holds, and DECODE is
monotone on 0 to 100 (R95; `Cmd.code` is the order RETRACT < HOLD < EXTEND). -/
def Obligations.DecodeBoundariesAndMonotonicity : Prop :=
  ∀ (p : Params) (f : ChanConfig), Valid p f →
    (∀ q, thRet f < q → q < thExt f → position p f (.duty q) = .hold) ∧
    position p f (.duty f.dmax) = .extend ∧
    position p f (.duty f.dmin) = .retract ∧
    position p f (.duty ((f.dmax + f.dmin) / 2)) = .hold ∧
    ∀ q r : ℚ, 0 ≤ q → q ≤ r → r ≤ 100 → (position p f (.duty q)).code ≤ (position p f (.duty r)).code

/-! ### DEBOUNCE -/

/-- The push appends to the window, and at capacity evicts the oldest; it writes one cell, at the cursor, and moves the
cursor (R102). -/
def Obligations.DebouncePushesOntoTheWindow : Prop :=
  ∀ (s : State) (ch : ChIndex) (c : Channel) (f : ChanConfig) (v : Cmd),
    s.channel? ch = some c → ChannelInv s.params c → c.chState = .run → c.cfg = some f →
    ∃ c' : Channel, exec (.debounce ch v) s = .next (s.setChannel ch c') ∧
      c'.window f.hcap =
        (if (c.window f.hcap).length < f.hcap then c.window f.hcap ++ [v] else (c.window f.hcap).tail ++ [v]) ∧
      c'.h.read? c.wp = some v ∧ (∀ i, i ≠ c.wp → c'.h.read? i = c.h.read? i) ∧ c'.wp = (c.wp + 1) % f.hcap

/-- The report is `STABLE(x)` exactly when the window is full and uniformly `x` and `x` is not the last delivered
command; otherwise it is `NO_CHANGE`. When the window is full every cell has been written (R103). -/
def Obligations.DebounceReportsExactlyWhenStable : Prop :=
  ∀ (s : State) (ch : ChIndex) (c : Channel) (f : ChanConfig) (v : Cmd),
    s.channel? ch = some c → ChannelInv s.params c → c.chState = .run → c.cfg = some f →
    ∃ c' : Channel, exec (.debounce ch v) s = .next (s.setChannel ch c') ∧
      (∀ x, c'.rpt = .stable x ↔
        (c'.cnt = f.hcap ∧ (∀ y ∈ c'.window f.hcap, y = x) ∧ LastCmd.cmd x ≠ c.lastCmd)) ∧
      ((¬ ∃ x, c'.rpt = .stable x) → c'.rpt = .noChange) ∧
      (c'.cnt = f.hcap → ∀ i, i < f.hcap → (c'.h.read? i).isSome = true) ∧
      (f.hcap = 1 → LastCmd.cmd v ≠ c.lastCmd → c'.rpt = .stable v)

/-- DEBOUNCE, the word `{ch, 0x7}` and a `Cmd`, pushes the command, writing one cell at the cursor, the cursor and
the count, and reports the test of the state after the push; it writes nothing else (R101). -/
def Obligations.DebouncePushesAndTests : Prop :=
  (∀ (d : Nat) (ch : ChIndex) (h : BitVec 8) (v : Cmd) (w : Word), h.toNat = 16 * ch.toNat + 7 → w % 4 = v.code →
    decode d ⟨h, [w]⟩ = .ok (.debounce ch v)) ∧
  ∀ (s : State) (ch : ChIndex) (c : Channel) (f : ChanConfig) (v : Cmd),
    s.channel? ch = some c → c.chState = .run → c.cfg = some f →
    ∃ (c' : Channel) (m : Memory) (r : Report),
      exec (.debounce ch v) s = .next (s.setChannel ch c') ∧
      c' = { c with h := m, wp := (c.wp + 1) % f.hcap, cnt := if c.cnt < f.hcap then c.cnt + 1 else c.cnt, rpt := r } ∧
      m.read? c.wp = some v ∧ (∀ i, i ≠ c.wp → m.read? i = c.h.read? i) ∧
      (c'.cnt = f.hcap → allEqual (c'.window f.hcap) = true → LastCmd.cmd (m.read 0) ≠ c.lastCmd →
        r = .stable (m.read 0)) ∧
      (¬ (c'.cnt = f.hcap ∧ allEqual (c'.window f.hcap) = true ∧ LastCmd.cmd (m.read 0) ≠ c.lastCmd) → r = .noChange)

/-- No `STABLE` report before the window is full, for any sequence of pushes (R106 (a)). -/
def Obligations.NoStableReportBeforeTheWindowIsFull : Prop :=
  ∀ (s : State) (ch : ChIndex) (c : Channel) (f : ChanConfig) (vs : List Cmd),
    s.channel? ch = some c → c.chState = .run → c.cfg = some f → c.cnt + vs.length < f.hcap →
    ∃ c' : Channel, execAll (vs.map (.debounce ch)) s = .next (s.setChannel ch c') ∧
      (vs ≠ [] → c'.rpt = .noChange)

/-- `HCAP` agreeing commands in a row fill the window and are reported (R103, R106 (d)). -/
def Obligations.HcapAgreeingCommandsAreReported : Prop :=
  ∀ (s : State) (ch : ChIndex) (c : Channel) (f : ChanConfig) (v : Cmd),
    s.channel? ch = some c → ChannelInv s.params c → c.chState = .run → c.cfg = some f →
    LastCmd.cmd v ≠ c.lastCmd →
    ∃ c' : Channel, execAll (List.replicate f.hcap (.debounce ch v)) s = .next (s.setChannel ch c') ∧
      c'.rpt = .stable v ∧ c'.window f.hcap = List.replicate f.hcap v

/-! ### DRIVE and TICK -/

/-- DRIVE, the word `{ch, 0x8}` with a `Report` in bits 2:0 and `wr_ok` in bit 3, without `HAS_WR_STATUS`, for each
report (R112). -/
def Obligations.DriveActsOnTheReport : Prop :=
  (∀ (d : Nat) (ch : ChIndex) (h : BitVec 8) (r : Report) (w : Word), h.toNat = 16 * ch.toNat + 8 → w % 8 = r.code →
    decode d ⟨h, [w]⟩ = .ok (.drive ch r (w / 8 % 2 == 1))) ∧
  ∀ (s : State) (ch : ChIndex) (c : Channel),
    s.channel? ch = some c → c.chState = .run → s.params.hasWrStatus = false →
    exec (.drive ch .noChange true) s = .next s ∧
    exec (.drive ch (.stable .hold) true) s =
      .next (s.setChannel ch { c with lastCmd := .cmd .hold, drvState := .holding }) ∧
    exec (.drive ch (.stable .retract) true) s = .next (s.setChannel ch { c with
      dirA := s.params.retractCfg.dirA, dirB := s.params.retractCfg.dirB
      pinA := s.params.retractCfg.dirA, pinB := s.params.retractCfg.dirB
      extTimer := 0, lastCmd := .cmd .retract, drvState := .retracting }) ∧
    (c.lines ≠ s.params.extendCfg → exec (.drive ch (.stable .extend) true) s = .next (s.setChannel ch { c with
      dirA := s.params.extendCfg.dirA, dirB := s.params.extendCfg.dirB
      pinA := s.params.extendCfg.dirA, pinB := s.params.extendCfg.dirB
      extTimer := 0, lastCmd := .cmd .extend, drvState := .extending })) ∧
    (c.lines = s.params.extendCfg → exec (.drive ch (.stable .extend) true) s = .next (s.setChannel ch { c with
      lastCmd := .cmd .extend, drvState := .extending }))

/-- DRIVE with `HAS_WR_STATUS` (R124): a good write acts and clears `wr_fault`; a failed write sets `wr_fault` and
changes no other state of the channel, and each direction pin has its old or its new level (`free` is the
model's own counter, log entry 7); an operation that writes no line ignores `wr_ok`. -/
def Obligations.DriveReportsWriteStatus : Prop :=
  ∀ (s : State) (ch : ChIndex) (c : Channel),
    s.channel? ch = some c → c.chState = .run → s.params.hasWrStatus = true →
    (∀ ok, exec (.drive ch .noChange ok) s = .next s) ∧
    (∀ ok, exec (.drive ch (.stable .hold) ok) s =
      .next (s.setChannel ch { c with lastCmd := .cmd .hold, drvState := .holding })) ∧
    (∀ ok, c.lines = s.params.extendCfg → exec (.drive ch (.stable .extend) ok) s =
      .next (s.setChannel ch { c with lastCmd := .cmd .extend, drvState := .extending })) ∧
    ∀ (v : Cmd) (l : LineCfg) (d : DrvState),
      (v = .retract ∧ l = s.params.retractCfg ∧ d = .retracting) ∨
        (v = .extend ∧ l = s.params.extendCfg ∧ d = .extending ∧ c.lines ≠ s.params.extendCfg) →
      exec (.drive ch (.stable v) true) s = .next (s.setChannel ch { c with
        dirA := l.dirA, dirB := l.dirB, pinA := l.dirA, pinB := l.dirB
        extTimer := 0, lastCmd := .cmd v, drvState := d, wrFault := false }) ∧
      ∃ (a b : Level) (n : Nat), (a = c.pinA ∨ a = l.dirA) ∧ (b = c.pinB ∨ b = l.dirB) ∧
        exec (.drive ch (.stable v) false) s = .next (s.setChannel ch { c with
          wrFault := true, pinA := a, pinB := b, free := n })

/-- TICK, the word `{ch, 0x4}`, without `HAS_WR_STATUS` (R118): the timer counts while the extend configuration is
asserted, and on the tick that reaches `EXT_LIMIT` the lines are released; else nothing. -/
def Obligations.TickCountsAndReleases : Prop :=
  (∀ (d : Nat) (ch : ChIndex) (h : BitVec 8), h.toNat = 16 * ch.toNat + 4 → decode d ⟨h, []⟩ = .ok (.tick ch)) ∧
  ∀ (s : State) (ch : ChIndex) (c : Channel),
    s.channel? ch = some c → s.params.hasWrStatus = false →
    (c.lines ≠ s.params.extendCfg → exec (.tick ch) s = .next s) ∧
    ∀ f : ChanConfig, c.lines = s.params.extendCfg → c.cfg = some f →
      (c.extTimer + 1 < f.travelNum * f.strokeTicks / f.travelDen → exec (.tick ch) s =
        .next (s.setChannel ch { c with extTimer := c.extTimer + 1 })) ∧
      (c.extTimer + 1 ≥ f.travelNum * f.strokeTicks / f.travelDen → exec (.tick ch) s =
        .next (s.setChannel ch { c with
          dirA := s.params.stopCfg.dirA, dirB := s.params.stopCfg.dirB
          pinA := s.params.stopCfg.dirA, pinB := s.params.stopCfg.dirB
          extTimer := 0, drvState := .holding }))

/-- TICK with `HAS_WR_STATUS` (R124): a release reported good acts and clears `wr_fault`; one reported failed sets
`wr_fault`, leaves the lines extended and counts the timer on; a TICK that writes no line ignores the verdict. -/
def Obligations.TickReportsWriteStatus : Prop :=
  ∀ (s : State) (ch : ChIndex) (c : Channel),
    s.channel? ch = some c → s.params.hasWrStatus = true →
    (c.lines ≠ s.params.extendCfg → exec (.tick ch) s = .next s) ∧
    ∀ f : ChanConfig, c.lines = s.params.extendCfg → c.cfg = some f →
      (c.extTimer + 1 < extLimit f → exec (.tick ch) s =
        .next (s.setChannel ch { c with extTimer := c.extTimer + 1 })) ∧
      (c.extTimer + 1 ≥ extLimit f → s.wrOk = true → exec (.tick ch) s =
        .next (s.setChannel ch { c with
          dirA := s.params.stopCfg.dirA, dirB := s.params.stopCfg.dirB
          pinA := s.params.stopCfg.dirA, pinB := s.params.stopCfg.dirB
          extTimer := 0, drvState := .holding, wrFault := false })) ∧
      (c.extTimer + 1 ≥ extLimit f → s.wrOk = false → ∃ (a b : Level) (n : Nat),
        (a = c.pinA ∨ a = s.params.stopCfg.dirA) ∧ (b = c.pinB ∨ b = s.params.stopCfg.dirB) ∧
        exec (.tick ch) s = .next (s.setChannel ch { c with
          extTimer := c.extTimer + 1, wrFault := true, pinA := a, pinB := b, free := n }))

/-- An extension is asserted for exactly `EXT_LIMIT` ticks from the timer's start (R119), whatever the verdicts: without
`HAS_WR_STATUS` they are not looked at. -/
def Obligations.ExtensionLastsExactlyTheLimit : Prop :=
  ∀ (s : State) (ch : ChIndex) (c : Channel) (f : ChanConfig) (ok : Nat → Bool),
    s.channel? ch = some c → s.params.hasWrStatus = false → c.cfg = some f →
    c.lines = s.params.extendCfg → c.extTimer < extLimit f →
    let left := extLimit f - c.extTimer
    (∀ n, n < left → tickTimes ch ok n s = .next ({ s with wrOk := if n = 0 then s.wrOk else ok (n - 1) }.setChannel ch
      { c with extTimer := c.extTimer + n })) ∧
    tickTimes ch ok left s = .next ({ s with wrOk := ok (left - 1) }.setChannel ch { c with
      dirA := s.params.stopCfg.dirA, dirB := s.params.stopCfg.dirB
      pinA := s.params.stopCfg.dirA, pinB := s.params.stopCfg.dirB
      extTimer := 0, drvState := .holding })

/-- A release that failed is retried on every tick (R124): from the tick that reaches the limit on, `n` ticks reported
failed leave the lines extended, count the timer on and set `wr_fault`, and the first one reported good releases the
lines and clears it. -/
def Obligations.FailedReleaseIsRetriedOnEveryTick : Prop :=
  ∀ (s : State) (ch : ChIndex) (c : Channel) (f : ChanConfig) (ok : Nat → Bool) (n : Nat),
    s.channel? ch = some c → s.params.hasWrStatus = true → c.cfg = some f →
    c.lines = s.params.extendCfg → c.extTimer + 1 ≥ extLimit f →
    (∀ k, k < n → ok k = false) → ok n = true →
    ∃ (t : State) (c₁ c₂ : Channel),
      tickTimes ch ok n s = .next t ∧ t.channel? ch = some c₁ ∧
      c₁.lines = c.lines ∧ c₁.extTimer = c.extTimer + n ∧ c₁.drvState = c.drvState ∧ c₁.lastCmd = c.lastCmd ∧
      (0 < n → c₁.wrFault = true) ∧
      tickTimes ch ok (n + 1) s = .next ({ s with wrOk := true }.setChannel ch c₂) ∧
      c₂.lines = s.params.stopCfg ∧ c₂.pinA = s.params.stopCfg.dirA ∧ c₂.pinB = s.params.stopCfg.dirB ∧
      c₂.extTimer = 0 ∧ c₂.drvState = .holding ∧ c₂.lastCmd = c.lastCmd ∧ c₂.wrFault = false

/-- Re-extension requires an intervening non-EXTEND stable command (R120): over any POLLs and TICKs from a state
whose lines are released and whose last delivered command is EXTEND, the extend configuration is asserted again
only after a RETRACT or a HOLD was delivered. -/
def Obligations.ReextensionNeedsAnotherCommand : Prop :=
  ∀ (s t : State) (ch : ChIndex) (c c' : Channel) (ops : List Instr),
    s.channel? ch = some c → c.lastCmd = .cmd .extend → c.lines ≠ s.params.extendCfg →
    (∀ i ∈ ops, i = .tick ch ∨ ∃ rs, i = .poll ch rs) →
    execAll ops s = .next t → t.channel? ch = some c' → c'.lines = s.params.extendCfg →
    ∃ (before after : List Instr) (m : State) (cm : Channel), ops = before ++ after ∧
      execAll before s = .next m ∧ m.channel? ch = some cm ∧
      (cm.lastCmd = .cmd .retract ∨ cm.lastCmd = .cmd .hold)

/-- Stable EXTEND, then stable RETRACT, then stable HOLD ends with the lines of the RETRACT (R123 (b)). -/
def Obligations.RoundTripEndsRetracted : Prop :=
  ∀ (s : State) (ch : ChIndex) (c : Channel),
    s.channel? ch = some c → c.chState = .run → s.params.hasWrStatus = false →
    ∃ c' cr : Channel,
      execAll [.drive ch (.stable .extend) true, .drive ch (.stable .retract) true] s =
        .next (s.setChannel ch cr) ∧
      execAll [.drive ch (.stable .extend) true, .drive ch (.stable .retract) true,
        .drive ch (.stable .hold) true] s = .next (s.setChannel ch c') ∧
      c'.lines = cr.lines ∧ c'.lines = s.params.retractCfg ∧ c'.lastCmd = .cmd .hold ∧ c'.drvState = .holding

/-! ### POLL -/

/-- POLL, the word `{ch, 0x3}` and the captures, is its four stages in order, each on what the one before handed it,
and is ignored unless the channel runs (R136). Its DRIVE stage has the verdict of the pin-access layer, which counts
as good without `HAS_WR_STATUS` (R124). -/
def Obligations.PollIsItsFourStages : Prop :=
  (∀ (d : Nat) (ch : ChIndex) (h : BitVec 8) (ws : List Word), h.toNat = 16 * ch.toNat + 3 →
    decode d ⟨h, ws⟩ = .ok (.poll ch (ws.map (Capture.ofWord d)))) ∧
  ∀ (s : State) (ch : ChIndex) (c : Channel) (rs : List Capture), s.channel? ch = some c →
    (c.chState ≠ .run → exec (.poll ch rs) s = .next s) ∧
    ∀ f : ChanConfig, c.chState = .run → c.cfg = some f → rs.length = f.nsamp →
      ∃ c1 c2 c3 c4 : Channel,
        exec (.measure ch rs) s = .next (s.setChannel ch c1) ∧
        exec (.decode ch (argOf c1.meas)) (s.setChannel ch c1) = .next (s.setChannel ch c2) ∧
        exec (.debounce ch c2.cmd) (s.setChannel ch c2) = .next (s.setChannel ch c3) ∧
        exec (.drive ch c3.rpt (s.wrOk || !s.params.hasWrStatus)) (s.setChannel ch c3) =
          .next (s.setChannel ch c4) ∧
        exec (.poll ch rs) s = .next (s.setChannel ch { c4 with phase := .idle })

/-- What a POLL leaves alone: the configuration and lifecycle, the enable line, the capture unit, and every
history cell but the one at the cursor, which takes the decoded command. That a list longer than `NSAMP` is performed
is the model's choice (log entry 10). -/
def Obligations.PollFrame : Prop :=
  ∀ (s : State) (ch : ChIndex) (c : Channel) (f : ChanConfig) (rs : List Capture),
    s.channel? ch = some c → c.chState = .run → c.cfg = some f → f.nsamp ≤ rs.length →
    ∃ c' : Channel, exec (.poll ch rs) s = .next (s.setChannel ch c') ∧
      c'.cfg = c.cfg ∧ c'.chState = c.chState ∧ c'.cfgCause = c.cfgCause ∧ c'.en = c.en ∧ c'.pinEn = c.pinEn ∧
      c'.capPhase = c.capPhase ∧ c'.capWait = c.capWait ∧ c'.capHigh = c.capHigh ∧ c'.phase = .idle ∧
      c'.wp = (c.wp + 1) % f.hcap ∧ c'.cnt = (if c.cnt < f.hcap then c.cnt + 1 else c.cnt) ∧
      c'.h.read? c.wp = some c'.cmd ∧ ∀ i, i ≠ c.wp → c'.h.read? i = c.h.read? i

/-- A POLL without a signal records it, decodes to HOLD and moves no line (R147, R182). That only the first `NSAMP`
captures of a longer list count is the model's choice (log entry 10). -/
def Obligations.NoSignalPollKeepsTheLines : Prop :=
  ∀ (s : State) (ch : ChIndex) (c : Channel) (f : ChanConfig) (rs : List Capture),
    s.channel? ch = some c → ChannelInv s.params c → c.chState = .run → c.cfg = some f →
    f.nsamp ≤ rs.length → Capture.timeout ∈ rs.take f.nsamp →
    ∃ c' : Channel, exec (.poll ch rs) s = .next (s.setChannel ch c') ∧
      c'.nosig = true ∧ c'.cmd = .hold ∧ c'.chState = .run ∧
      c'.en = c.en ∧ c'.lines = c.lines ∧ c'.pinA = c.pinA ∧ c'.pinB = c.pinB ∧ c'.extTimer = c.extTimer

/-- A write that failed is retried by the next POLL if that decodes the same command, whatever its captures are (R124):
the report stands, because `last_cmd` did not change. With a good verdict the command then acts; with a bad one the
lines, timer, `last_cmd` and `drv_state` stay once more. That a list longer than `NSAMP` is performed is the model's choice (log entry 10). -/
def Obligations.FailedWriteIsRetriedByTheNextPoll : Prop :=
  ∀ (s : State) (ch : ChIndex) (c c' : Channel) (f : ChanConfig) (rs : List Capture) (x : Cmd),
    s.channel? ch = some c → ChannelInv s.params c → c.chState = .run → c.cfg = some f → f.nsamp ≤ rs.length →
    s.params.hasWrStatus = true → s.wrOk = false →
    exec (.poll ch rs) s = .next (s.setChannel ch c') → c'.rpt = .stable x → x ≠ .hold →
    (x = .extend → c.lines ≠ s.params.extendCfg) →
    let l := if x = .extend then s.params.extendCfg else s.params.retractCfg
    c'.wrFault = true ∧ c'.lastCmd = c.lastCmd ∧ c'.lines = c.lines ∧ c'.drvState = c.drvState ∧
      c'.extTimer = c.extTimer ∧
    ∀ (rs' : List Capture) (ok : Bool), f.nsamp ≤ rs'.length →
      position s.params f (measureChannel s.params f (rs'.take f.nsamp) c').meas = x →
      ∃ c'' : Channel,
        exec (.poll ch rs') { s.setChannel ch c' with wrOk := ok } = .next ({ s with wrOk := ok }.setChannel ch c'') ∧
        c''.rpt = .stable x ∧
        (ok = true → c''.lines = l ∧ c''.pinA = l.dirA ∧ c''.pinB = l.dirB ∧ c''.extTimer = 0 ∧ c''.lastCmd = .cmd x ∧
          c''.drvState = (if x = .extend then .extending else .retracting) ∧ c''.wrFault = false) ∧
        (ok = false → c''.lines = c.lines ∧ c''.extTimer = c.extTimer ∧ c''.lastCmd = c.lastCmd ∧
          c''.drvState = c.drvState ∧ c''.wrFault = true)

/-- `polld` and `pollc` are the POLL they abbreviate, but for the latches of the stages they leave out (R139). That
a list longer than `NSAMP` is performed is the model's choice (log entry 10). -/
def Obligations.PollAbbreviationsAgree : Prop :=
  ∀ (s : State) (ch : ChIndex) (c : Channel) (f : ChanConfig) (rs : List Capture),
    s.channel? ch = some c → c.chState = .run → c.cfg = some f → f.nsamp ≤ rs.length →
    ∃ c1 c' : Channel,
      exec (.measure ch rs) s = .next (s.setChannel ch c1) ∧
      exec (.poll ch rs) s = .next (s.setChannel ch c') ∧
      polld ch c1.meas s = .next (s.setChannel ch { c' with acc := c.acc, k := c.k }) ∧
      pollc ch c'.cmd s = .next (s.setChannel ch { c' with
        acc := c.acc, k := c.k, meas := c.meas, cmd := c.cmd, nosig := c.nosig, phase := c.phase })

/-- A TICK and a MEASURE do not disturb each other: either order has the same outcome (R82, R137). -/
def Obligations.TickCommutesWithMeasure : Prop :=
  ∀ (s : State) (ch : ChIndex) (rs : List Capture),
    andThen (exec (.tick ch) s) (exec (.measure ch rs)) = andThen (exec (.measure ch rs) s) (exec (.tick ch))

/-- The first actuation cannot come before the `HCAP`-th poll (R135, R180): from an empty history with nothing
delivered, any TICKs and fewer than `HCAP` POLLs leave the lines and pins as they are. -/
def Obligations.NoActuationBeforeHcapPolls : Prop :=
  ∀ (s : State) (ch : ChIndex) (c : Channel) (f : ChanConfig) (ops : List Instr),
    s.Inv → s.channel? ch = some c → c.cfg = some f → c.cnt = 0 → c.lastCmd = .none →
    (∀ i ∈ ops, i = .tick ch ∨ ∃ rs, i = .poll ch rs) →
    (ops.filter (fun i => i != .tick ch)).length < f.hcap →
    ∃ c' : Channel, execAll ops s = .next (s.setChannel ch c') ∧
      c'.lines = c.lines ∧ c'.pinA = c.pinA ∧ c'.pinB = c.pinB ∧ c'.drvState = c.drvState ∧ c'.lastCmd = .none

/-- End to end (L1-8 of `95_test_vectors.md`, R107): from an empty history with nothing delivered, over any number of
POLLs whose mean duty cycle lies in the EXTEND band, no POLL before the `HCAP`-th moves a line or reports, the
`HCAP`-th extends, and no later one reports again or moves a line. -/
def Obligations.HcapExtendPollsExtendOnce : Prop :=
  ∀ (s : State) (ch : ChIndex) (c : Channel) (f : ChanConfig) (tss : List (List Nat)),
    s.Inv → s.channel? ch = some c → c.chState = .run → c.cfg = some f → c.cnt = 0 → c.lastCmd = .none →
    s.params.hasWrStatus = false →
    (∀ us ∈ tss, us.length = f.nsamp ∧ thExt f ≤ dutyOf s.params f us.sum ∧ dutyOf s.params f us.sum ≤ 100) →
    ∃ c' : Channel, execAll (tss.map fun us => .poll ch (us.map .dur)) s = .next (s.setChannel ch c') ∧
      (tss.length < f.hcap → c'.lines = c.lines ∧ c'.pinA = c.pinA ∧ c'.pinB = c.pinB ∧ c'.drvState = c.drvState ∧
        c'.lastCmd = .none ∧ (0 < tss.length → c'.rpt = .noChange)) ∧
      (tss.length = f.hcap → c'.rpt = .stable .extend) ∧
      (f.hcap < tss.length → c'.rpt = .noChange) ∧
      (f.hcap ≤ tss.length → c'.lines = s.params.extendCfg ∧ c'.pinA = c'.dirA ∧ c'.pinB = c'.dirB ∧ c'.en = .high ∧
        c'.drvState = .extending ∧ c'.extTimer = 0 ∧ c'.lastCmd = .cmd .extend)

/-! ### The whole machine -/

/-- The state right after reset meets the invariant, for any legal parameters and up to 16 channels. -/
def Obligations.InvHoldsAfterReset : Prop :=
  ∀ (p : Params) (nch : Nat), p.wf → nch ≤ 16 → (State.resetOf p nch).Inv

/-- Every step keeps the invariant (R15, R16, R19, R21 to R24, R27, R28). -/
def Obligations.StepKeepsTheInvariant : Prop :=
  ∀ s t : State, s.Inv → step s = .next t → t.Inv

/-- A device never stops: whatever is presented from reset on, every reachable state meets the invariant and has
a next state, with the enable line HIGH on every channel (R138, R169). -/
def Obligations.ReachableDeviceNeverStops : Prop :=
  ∀ (p : Params) (nch : Nat) (t : State), p.wf → nch ≤ 16 → Run (State.resetOf p nch) t →
    t.Inv ∧ (∃ u, step t = .next u) ∧ ∀ c ∈ t.channels, c.en = .high ∧ c.pinEn = .high

/-- One channel shares no state with any other (R8): an operation writes its own channel only, and what it makes
of that channel depends on that channel, the parameters and the verdict only. -/
def Obligations.ChannelsShareNoState : Prop :=
  (∀ (i : Instr) (s t : State), exec i s = .next t →
    t.params = s.params ∧ t.pending = s.pending ∧ t.wrOk = s.wrOk ∧ t.nch = s.nch ∧
    ∀ j : ChIndex, j ≠ i.channel → t.channel? j = s.channel? j) ∧
  (∀ (i : Instr) (s₁ s₂ t₁ : State), s₁.params = s₂.params → s₁.wrOk = s₂.wrOk →
    s₁.channel? i.channel = s₂.channel? i.channel → exec i s₁ = .next t₁ →
    ∃ t₂, exec i s₂ = .next t₂ ∧ t₁.channel? i.channel = t₂.channel? i.channel)

/-- Operations on different channels commute, so every interleaving of the channels is equal to every other
(R49, R168). -/
def Obligations.OperationsOnDifferentChannelsCommute : Prop :=
  ∀ (i j : Instr) (s : State), i.channel ≠ j.channel →
    andThen (exec i s) (exec j) = andThen (exec j s) (exec i)

/-- Who writes what (R161 and the summary of `10_state.md`): POLL stands with its stages, and RESET writes
everything. -/
def Obligations.EachElementHasItsWriters : Prop :=
  ∀ (i : Instr) (s t : State) (c c' : Channel), exec i s = .next t →
    s.channel? i.channel = some c → t.channel? i.channel = some c' → i ≠ .reset i.channel →
    (c'.en = c.en ∧ c'.pinEn = c.pinEn) ∧
    (c'.cfg ≠ c.cfg ∨ c'.cfgCause ≠ c.cfgCause ∨ c'.chState ≠ c.chState →
      ∃ f, i = .init i.channel f ∧ c.chState = .uninit) ∧
    (c'.h ≠ c.h ∨ c'.cnt ≠ c.cnt ∨ c'.wp ≠ c.wp →
      (∃ v, i = .debounce i.channel v) ∨ ∃ rs, i = .poll i.channel rs) ∧
    (c'.lastCmd ≠ c.lastCmd → (∃ r ok, i = .drive i.channel r ok) ∨ ∃ rs, i = .poll i.channel rs) ∧
    (c'.lines ≠ c.lines ∨ c'.drvState ≠ c.drvState ∨ c'.extTimer ≠ c.extTimer ∨ c'.wrFault ≠ c.wrFault ∨
        c'.pinA ≠ c.pinA ∨ c'.pinB ≠ c.pinB →
      i = .tick i.channel ∨ (∃ r ok, i = .drive i.channel r ok) ∨ ∃ rs, i = .poll i.channel rs) ∧
    (c'.nosig ≠ c.nosig → (∃ rs, i = .measure i.channel rs) ∨ ∃ rs, i = .poll i.channel rs) ∧
    (c'.phase ≠ c.phase → ∃ rs, i = .poll i.channel rs)

/-- One TICK of the time base is a TICK of every channel (R141), each with its own verdict (R124). -/
def Obligations.TimeBaseTicksEveryChannel : Prop :=
  ∀ (s : State) (ok : ChIndex → Bool), s.Inv → ∃ t, timeBaseTick ok s = .next t ∧
    ∀ (ch : ChIndex) (c : Channel), s.channel? ch = some c →
      ∃ c' : Channel, exec (.tick ch) { s with wrOk := ok ch } = .next ({ s with wrOk := ok ch }.setChannel ch c') ∧
        t.channel? ch = some c'

/-! ### The host -/

/-- Startup resets and initializes every channel (R135, R177): whatever state it starts from, each channel runs, or is
in `CFG_FAULT` if its configuration is invalid, with lines and pins at SAFE_DEFAULT, nothing delivered and an empty
window. -/
def Obligations.StartupInitializesEveryChannel : Prop :=
  ∀ (s : State) (cfgs : ChIndex → ChanConfig), s.nch ≤ 16 → ∃ t, startup cfgs s = .next t ∧
    t.params = s.params ∧ t.nch = s.nch ∧
    ∀ (ch : ChIndex), (s.channel? ch).isSome = true → ∃ c' : Channel, t.channel? ch = some c' ∧
      c'.cfg = some (cfgs ch) ∧ c'.cfgCause = cfgChecks s.params (cfgs ch) ∧
      c'.chState = (if Valid s.params (cfgs ch) then .run else .cfgFault) ∧
      c'.en = .high ∧ c'.lines = safeLines ∧ c'.pinEn = .high ∧ c'.pinA = .high ∧ c'.pinB = .low ∧
      c'.drvState = .safeDefault ∧ c'.lastCmd = .none ∧ c'.cnt = 0 ∧ c'.extTimer = 0

/-- One iteration of the polling loop polls every channel once, each with its own captures and verdict; a channel that
does not run is skipped and holds up no other (R141). -/
def Obligations.PollRoundPollsEveryChannel : Prop :=
  ∀ (s : State) (captures : ChIndex → List Capture) (ok : ChIndex → Bool), s.Inv →
    ∃ t, pollRound captures ok s = .next t ∧ t.Inv ∧
      ∀ (ch : ChIndex) (c : Channel), s.channel? ch = some c →
        ∃ c' : Channel, exec (.poll ch (captures ch)) { s with wrOk := ok ch } =
            .next ({ s with wrOk := ok ch }.setChannel ch c') ∧
          t.channel? ch = some c' ∧ (c.chState ≠ .run → c' = c)

/-- The control loop, startup and `k` iterations of polling, is the host's first `(k + 2) * NCH` operations performed
one after another (R135, R140, R141). -/
def Obligations.ControlLoopIsWhatTheHostIssues : Prop :=
  ∀ (s : State) (cfgs : ChIndex → ChanConfig) (captures : Nat → ChIndex → List Capture)
    (ok : Nat → ChIndex → Bool) (k : Nat),
    controlLoop cfgs captures ok k s = performAll ((List.range ((k + 2) * s.nch)).map fun n =>
      ⟨hostIssue s.nch cfgs (captures (n / s.nch - 2) (hostChannel s.nch n)) n,
        decide (n < 2 * s.nch) || ok (n / s.nch - 2) (hostChannel s.nch n)⟩) s

/-- A run under the host and the time base is a run of the device, which never stops (R138, R140). -/
def Obligations.HostRunNeverStops : Prop :=
  ∀ (p : Params) (nch : Nat) (cfgs : ChIndex → ChanConfig) (n : Nat) (t : State), p.wf → nch ≤ 16 →
    HostRun cfgs (State.resetOf p nch) n t → Run (State.resetOf p nch) t ∧ t.Inv ∧ ∃ u, step t = .next u

/-- Until the host presents the `HCAP`-th POLL of a channel, its operation number `(HCAP + 1) * NCH + ch` counted from
0, the channel's lines and pins are at SAFE_DEFAULT, however the ticks of the time base fall (R123 (a), R135, R180). -/
def Obligations.HostRunStaysAtSafeDefaultBeforeTheHcapthPoll : Prop :=
  ∀ (p : Params) (nch : Nat) (cfgs : ChIndex → ChanConfig) (n : Nat) (t : State) (ch : ChIndex) (c : Channel),
    p.wf → nch ≤ 16 → HostRun cfgs (State.resetOf p nch) n t → t.channel? ch = some c →
    n ≤ ((cfgs ch).hcap + 1) * nch + ch.toNat →
    c.en = .high ∧ c.lines = safeLines ∧ c.pinEn = .high ∧ c.pinA = .high ∧ c.pinB = .low ∧
      c.drvState = .safeDefault ∧ c.lastCmd = .none

/-! ### Registers -/

/-- The status registers and history cells show the state, field by field (R68, with the codes of R55, R56, R58,
R62). MODEL'S CHOICES in it: a field wider than its register shows its low bits (log entry 9), and a cell from 224 on,
for which `0x20 + i` is no 8-bit number, has no register (log entry 22). -/
def Obligations.StatusRegistersShowTheState : Prop :=
  ∀ (s : State) (ch : ChIndex) (c : Channel) (n : Nat), s.channel? ch = some c →
    (∃ v, s.readRegister ch 0x10 n = some v ∧
      bitField v 1 0 = c.chState.code ∧ bitField v 3 2 = c.drvState.code ∧ bitField v 5 4 = c.lastCmd.code ∧
      bitField v 6 6 = c.nosig.toNat ∧ bitField v 8 8 = c.wrFault.toNat ∧
      (bitField v 7 7 = 1 ↔ c.chState = .run ∧ ∃ f, c.cfg = some f ∧ c.cnt = f.hcap) ∧
      bitField v 11 9 = c.phase.code ∧ bitField v 15 12 = 0) ∧
    (∃ v, s.readRegister ch 0x12 n = some v ∧ bitField v 7 0 = c.cnt % 2 ^ 8 ∧ bitField v 15 8 = c.wp % 2 ^ 8) ∧
    (∃ v, s.readRegister ch 0x13 n = some v ∧ bitField v 2 2 = c.en.code ∧ bitField v 1 1 = c.dirA.code ∧
      bitField v 0 0 = c.dirB.code ∧ bitField v 7 3 = 0) ∧
    s.readRegister ch 0x14 n = some (c.extTimer % 2 ^ 32) ∧
    ∀ f : ChanConfig, c.cfg = some f →
      (f.travelDen ≠ 0 → s.readRegister ch 0x15 n = some (extLimit f % 2 ^ 32)) ∧
      ∀ (i : Nat) (v : Cmd), i < f.hcap → 0x20 + i < 2 ^ 8 → c.h.read? i = some v →
        s.readRegister ch (BitVec.ofNat 8 (0x20 + i)) n = some v.code

/-- A register number without a register is reserved and reads as zero (R66), history cells from `HCAP` on
included (R68). -/
def Obligations.ReservedRegistersReadZero : Prop :=
  ∀ (s : State) (ch : ChIndex) (c : Channel) (num : BitVec 8) (n : Nat), s.channel? ch = some c →
    ((0x0C < num.toNat ∧ num.toNat < 0x10) ∨ (0x15 < num.toNat ∧ num.toNat < 0x20) ∨
      (∃ f, c.cfg = some f ∧ 0x20 + f.hcap ≤ num.toNat)) →
    s.readRegister ch num n = some 0

/-- The bits of `CAUSE` are the checks, and the bits above are zero (R70). -/
def Obligations.CauseRegisterShowsTheChecks : Prop :=
  ∀ (s : State) (ch : ChIndex) (c : Channel) (n : Nat), s.channel? ch = some c →
    ∃ v, s.readRegister ch 0x11 n = some v ∧
      bitField v 0 0 = c.cfgCause.cFreq.toNat ∧ bitField v 1 1 = c.cfgCause.cOrder.toNat ∧
      bitField v 2 2 = c.cfgCause.cRange.toNat ∧ bitField v 3 3 = c.cfgCause.cTol.toNat ∧
      bitField v 4 4 = c.cfgCause.cNsamp.toNat ∧ bitField v 5 5 = c.cfgCause.cHcap.toNat ∧
      bitField v 6 6 = c.cfgCause.cTravel.toNat ∧ bitField v 7 7 = c.cfgCause.cStroke.toNat ∧
      bitField v 8 8 = c.cfgCause.cPins.toNat ∧ bitField v 9 9 = c.cfgCause.cWidth.toNat ∧
      bitField v 15 10 = 0

/-- After INIT the configuration registers `0x00` to `0x0C` read back the 13 words INIT was given (R67). -/
def Obligations.ConfigurationRegistersReadBack : Prop :=
  ∀ (s t : State) (ch : ChIndex) (c : Channel) (f : ChanConfig) (j : Nat) (w : Word) (n : Nat),
    s.channel? ch = some c → c.chState = .uninit → f.encodable = true →
    exec (.init ch f) s = .next t → ((encode s.params.durW (.init ch f)).operands)[j]? = some w →
    t.readRegister ch (BitVec.ofNat 8 j) n = some w

/-! ### The reference capture unit -/

/-- A call of the reference unit returns a duration between 1 and `floor(P)` or a `TIMEOUT`, after at most
`2 * W + floor(P)` ticks beyond its first sample; a stuck line times out after `W` ticks (R85). -/
def Obligations.CaptureIsBounded : Prop :=
  ∀ (w f n0 : Nat) (level : Nat → Level),
    (∀ t m, capture w f level n0 = (.dur t, m) → 1 ≤ t ∧ t ≤ f ∧ level m = .low) ∧
    n0 ≤ (capture w f level n0).2 ∧ (capture w f level n0).2 ≤ n0 + (2 * w + f) ∧
    ((∀ n, level n = .high) → capture w f level n0 = (.timeout, n0 + w)) ∧
    ((∀ n, level n = .low) → capture w f level n0 = (.timeout, n0 + w))

/-- The unit that samples the line once per tick on the state of R30 computes the algorithm of R84. MODEL'S CHOICES in
it: the unit sees one sample a tick and ends a call idle, with both counters 0 (log entry 13). -/
def Obligations.CaptureUnitRefinesTheAlgorithm : Prop :=
  ∀ (w f n0 : Nat) (level : Nat → Level) (c : Channel),
    captureRun w f level (2 * w + f + 1) n0 (captureStart c) = (captureDone c, some (capture w f level n0))

/-- The measurer on the reference unit reports a duty cycle in (0, 100] or `NO_SIGNAL`, within the bound of R86. -/
def Obligations.LineMeasurementIsInRange : Prop :=
  ∀ (p : Params) (f : ChanConfig) (level : Nat → Level) (n0 : Nat) (c : Channel), Valid p f → 0 < p.tickHz →
    ((measureLine p f level n0 c).1.meas = .noSignal ∨
      ∃ q, (measureLine p f level n0 c).1.meas = .duty q ∧ 0 < q ∧ q ≤ 100) ∧
    (measureLine p f level n0 c).2 ≤ n0 + f.nsamp * (2 * edgeBound p f + pulseBound p f + 1)
end

