-- ==== Sys2Proof/Laws/State.lean ====
section
/-!
SUPPORT. What each update of a state or of a channel leaves in each field: one lemma a field, true by `rfl`.
-/

namespace Sys2Proof.Machine

/-! ### The device -/

@[simp] theorem State.setChannel_params (s : State) (ch : ChIndex) (c : Channel) :
    (s.setChannel ch c).params = s.params := rfl
@[simp] theorem State.setChannel_pending (s : State) (ch : ChIndex) (c : Channel) :
    (s.setChannel ch c).pending = s.pending := rfl
@[simp] theorem State.setChannel_wrOk (s : State) (ch : ChIndex) (c : Channel) :
    (s.setChannel ch c).wrOk = s.wrOk := rfl
theorem State.setChannel_channels (s : State) (ch : ChIndex) (c : Channel) :
    (s.setChannel ch c).channels = s.channels.set ch.toNat c := rfl
@[simp] theorem State.setChannel_nch (s : State) (ch : ChIndex) (c : Channel) :
    (s.setChannel ch c).nch = s.nch := by simp [State.nch, State.setChannel]

theorem State.channel?_lt {s : State} {ch : ChIndex} {c : Channel} (h : s.channel? ch = some c) :
    ch.toNat < s.channels.length := (List.getElem?_eq_some_iff.mp h).1

theorem State.channel?_setChannel_self {s : State} {ch : ChIndex} {c : Channel} (h : s.channel? ch = some c)
    (c' : Channel) : (s.setChannel ch c').channel? ch = some c' := by
  simp [State.channel?, State.setChannel, State.channel?_lt h]

theorem State.channel?_setChannel_ne (s : State) {ch j : ChIndex} (c : Channel) (h : j ≠ ch) :
    (s.setChannel ch c).channel? j = s.channel? j := by
  have : ch.toNat ≠ j.toNat := fun e => h (BitVec.eq_of_toNat_eq e.symm)
  simp [State.channel?, State.setChannel, List.getElem?_set_ne this]

/-- A channel set to what it is: nothing changed. -/
theorem State.setChannel_self {s : State} {ch : ChIndex} {c : Channel} (h : s.channel? ch = some c) :
    s.setChannel ch c = s := by
  obtain ⟨hlt, he⟩ := List.getElem?_eq_some_iff.mp h
  simp only [State.setChannel]
  rw [← he, List.set_getElem_self]

@[simp] theorem State.setChannel_setChannel (s : State) (ch : ChIndex) (c c' : Channel) :
    (s.setChannel ch c).setChannel ch c' = s.setChannel ch c' := by
  simp [State.setChannel]

/-- Updates of different channels commute. -/
theorem State.setChannel_comm (s : State) {ch j : ChIndex} (c d : Channel) (h : j ≠ ch) :
    (s.setChannel ch c).setChannel j d = (s.setChannel j d).setChannel ch c := by
  have : ch.toNat ≠ j.toNat := fun e => h (BitVec.eq_of_toNat_eq e.symm)
  simp only [State.setChannel]
  rw [List.set_comm _ _ this]

@[simp] theorem State.presentNext_pending (s : State) (q : Presented) :
    (s.presentNext q).pending = q :: s.pending := rfl
@[simp] theorem State.presentNext_channels (s : State) (q : Presented) :
    (s.presentNext q).channels = s.channels := rfl
@[simp] theorem State.present_pending (s : State) (q : Presented) :
    (s.present q).pending = s.pending ++ [q] := rfl
@[simp] theorem State.present_channels (s : State) (q : Presented) :
    (s.present q).channels = s.channels := rfl
@[simp] theorem State.present_params (s : State) (q : Presented) :
    (s.present q).params = s.params := rfl
@[simp] theorem State.presentAll_pending (s : State) (qs : List Presented) :
    (s.presentAll qs).pending = s.pending ++ qs := rfl
@[simp] theorem State.presentAll_channels (s : State) (qs : List Presented) :
    (s.presentAll qs).channels = s.channels := rfl
@[simp] theorem State.presentAll_params (s : State) (qs : List Presented) :
    (s.presentAll qs).params = s.params := rfl

/-! ### A channel, update by update -/


@[simp] theorem Channel.putLines_cfg (l : LineCfg) (c : Channel) :
    (c.putLines l).cfg = c.cfg := rfl
@[simp] theorem Channel.putLines_h (l : LineCfg) (c : Channel) :
    (c.putLines l).h = c.h := rfl
@[simp] theorem Channel.putLines_cnt (l : LineCfg) (c : Channel) :
    (c.putLines l).cnt = c.cnt := rfl
@[simp] theorem Channel.putLines_wp (l : LineCfg) (c : Channel) :
    (c.putLines l).wp = c.wp := rfl
@[simp] theorem Channel.putLines_lastCmd (l : LineCfg) (c : Channel) :
    (c.putLines l).lastCmd = c.lastCmd := rfl
@[simp] theorem Channel.putLines_en (l : LineCfg) (c : Channel) :
    (c.putLines l).en = c.en := rfl
@[simp] theorem Channel.putLines_dirA (l : LineCfg) (c : Channel) :
    (c.putLines l).dirA = l.dirA := rfl
@[simp] theorem Channel.putLines_dirB (l : LineCfg) (c : Channel) :
    (c.putLines l).dirB = l.dirB := rfl
@[simp] theorem Channel.putLines_drvState (l : LineCfg) (c : Channel) :
    (c.putLines l).drvState = c.drvState := rfl
@[simp] theorem Channel.putLines_extTimer (l : LineCfg) (c : Channel) :
    (c.putLines l).extTimer = c.extTimer := rfl
@[simp] theorem Channel.putLines_chState (l : LineCfg) (c : Channel) :
    (c.putLines l).chState = c.chState := rfl
@[simp] theorem Channel.putLines_phase (l : LineCfg) (c : Channel) :
    (c.putLines l).phase = c.phase := rfl
@[simp] theorem Channel.putLines_nosig (l : LineCfg) (c : Channel) :
    (c.putLines l).nosig = c.nosig := rfl
@[simp] theorem Channel.putLines_cfgCause (l : LineCfg) (c : Channel) :
    (c.putLines l).cfgCause = c.cfgCause := rfl
@[simp] theorem Channel.putLines_wrFault (l : LineCfg) (c : Channel) :
    (c.putLines l).wrFault = c.wrFault := rfl
@[simp] theorem Channel.putLines_acc (l : LineCfg) (c : Channel) :
    (c.putLines l).acc = c.acc := rfl
@[simp] theorem Channel.putLines_k (l : LineCfg) (c : Channel) :
    (c.putLines l).k = c.k := rfl
@[simp] theorem Channel.putLines_meas (l : LineCfg) (c : Channel) :
    (c.putLines l).meas = c.meas := rfl
@[simp] theorem Channel.putLines_cmd (l : LineCfg) (c : Channel) :
    (c.putLines l).cmd = c.cmd := rfl
@[simp] theorem Channel.putLines_rpt (l : LineCfg) (c : Channel) :
    (c.putLines l).rpt = c.rpt := rfl
@[simp] theorem Channel.putLines_pinEn (l : LineCfg) (c : Channel) :
    (c.putLines l).pinEn = c.pinEn := rfl
@[simp] theorem Channel.putLines_pinA (l : LineCfg) (c : Channel) :
    (c.putLines l).pinA = l.dirA := rfl
@[simp] theorem Channel.putLines_pinB (l : LineCfg) (c : Channel) :
    (c.putLines l).pinB = l.dirB := rfl
@[simp] theorem Channel.putLines_capPhase (l : LineCfg) (c : Channel) :
    (c.putLines l).capPhase = c.capPhase := rfl
@[simp] theorem Channel.putLines_capWait (l : LineCfg) (c : Channel) :
    (c.putLines l).capWait = c.capWait := rfl
@[simp] theorem Channel.putLines_capHigh (l : LineCfg) (c : Channel) :
    (c.putLines l).capHigh = c.capHigh := rfl
@[simp] theorem Channel.putLines_free (l : LineCfg) (c : Channel) :
    (c.putLines l).free = c.free := rfl

@[simp] theorem Channel.goodWrite_cfg (p : Params) (l : LineCfg) (c : Channel) :
    (c.goodWrite p l).cfg = c.cfg := rfl
@[simp] theorem Channel.goodWrite_h (p : Params) (l : LineCfg) (c : Channel) :
    (c.goodWrite p l).h = c.h := rfl
@[simp] theorem Channel.goodWrite_cnt (p : Params) (l : LineCfg) (c : Channel) :
    (c.goodWrite p l).cnt = c.cnt := rfl
@[simp] theorem Channel.goodWrite_wp (p : Params) (l : LineCfg) (c : Channel) :
    (c.goodWrite p l).wp = c.wp := rfl
@[simp] theorem Channel.goodWrite_lastCmd (p : Params) (l : LineCfg) (c : Channel) :
    (c.goodWrite p l).lastCmd = c.lastCmd := rfl
@[simp] theorem Channel.goodWrite_en (p : Params) (l : LineCfg) (c : Channel) :
    (c.goodWrite p l).en = c.en := rfl
@[simp] theorem Channel.goodWrite_dirA (p : Params) (l : LineCfg) (c : Channel) :
    (c.goodWrite p l).dirA = l.dirA := rfl
@[simp] theorem Channel.goodWrite_dirB (p : Params) (l : LineCfg) (c : Channel) :
    (c.goodWrite p l).dirB = l.dirB := rfl
@[simp] theorem Channel.goodWrite_drvState (p : Params) (l : LineCfg) (c : Channel) :
    (c.goodWrite p l).drvState = c.drvState := rfl
@[simp] theorem Channel.goodWrite_extTimer (p : Params) (l : LineCfg) (c : Channel) :
    (c.goodWrite p l).extTimer = c.extTimer := rfl
@[simp] theorem Channel.goodWrite_chState (p : Params) (l : LineCfg) (c : Channel) :
    (c.goodWrite p l).chState = c.chState := rfl
@[simp] theorem Channel.goodWrite_phase (p : Params) (l : LineCfg) (c : Channel) :
    (c.goodWrite p l).phase = c.phase := rfl
@[simp] theorem Channel.goodWrite_nosig (p : Params) (l : LineCfg) (c : Channel) :
    (c.goodWrite p l).nosig = c.nosig := rfl
@[simp] theorem Channel.goodWrite_cfgCause (p : Params) (l : LineCfg) (c : Channel) :
    (c.goodWrite p l).cfgCause = c.cfgCause := rfl
@[simp] theorem Channel.goodWrite_wrFault (p : Params) (l : LineCfg) (c : Channel) :
    (c.goodWrite p l).wrFault = (c.wrFault && !p.hasWrStatus) := rfl
@[simp] theorem Channel.goodWrite_acc (p : Params) (l : LineCfg) (c : Channel) :
    (c.goodWrite p l).acc = c.acc := rfl
@[simp] theorem Channel.goodWrite_k (p : Params) (l : LineCfg) (c : Channel) :
    (c.goodWrite p l).k = c.k := rfl
@[simp] theorem Channel.goodWrite_meas (p : Params) (l : LineCfg) (c : Channel) :
    (c.goodWrite p l).meas = c.meas := rfl
@[simp] theorem Channel.goodWrite_cmd (p : Params) (l : LineCfg) (c : Channel) :
    (c.goodWrite p l).cmd = c.cmd := rfl
@[simp] theorem Channel.goodWrite_rpt (p : Params) (l : LineCfg) (c : Channel) :
    (c.goodWrite p l).rpt = c.rpt := rfl
@[simp] theorem Channel.goodWrite_pinEn (p : Params) (l : LineCfg) (c : Channel) :
    (c.goodWrite p l).pinEn = c.pinEn := rfl
@[simp] theorem Channel.goodWrite_pinA (p : Params) (l : LineCfg) (c : Channel) :
    (c.goodWrite p l).pinA = l.dirA := rfl
@[simp] theorem Channel.goodWrite_pinB (p : Params) (l : LineCfg) (c : Channel) :
    (c.goodWrite p l).pinB = l.dirB := rfl
@[simp] theorem Channel.goodWrite_capPhase (p : Params) (l : LineCfg) (c : Channel) :
    (c.goodWrite p l).capPhase = c.capPhase := rfl
@[simp] theorem Channel.goodWrite_capWait (p : Params) (l : LineCfg) (c : Channel) :
    (c.goodWrite p l).capWait = c.capWait := rfl
@[simp] theorem Channel.goodWrite_capHigh (p : Params) (l : LineCfg) (c : Channel) :
    (c.goodWrite p l).capHigh = c.capHigh := rfl
@[simp] theorem Channel.goodWrite_free (p : Params) (l : LineCfg) (c : Channel) :
    (c.goodWrite p l).free = c.free := rfl

@[simp] theorem Channel.failedWrite_cfg (p : Params) (ch : Nat) (l : LineCfg) (c : Channel) :
    (c.failedWrite p ch l).cfg = c.cfg := rfl
@[simp] theorem Channel.failedWrite_h (p : Params) (ch : Nat) (l : LineCfg) (c : Channel) :
    (c.failedWrite p ch l).h = c.h := rfl
@[simp] theorem Channel.failedWrite_cnt (p : Params) (ch : Nat) (l : LineCfg) (c : Channel) :
    (c.failedWrite p ch l).cnt = c.cnt := rfl
@[simp] theorem Channel.failedWrite_wp (p : Params) (ch : Nat) (l : LineCfg) (c : Channel) :
    (c.failedWrite p ch l).wp = c.wp := rfl
@[simp] theorem Channel.failedWrite_lastCmd (p : Params) (ch : Nat) (l : LineCfg) (c : Channel) :
    (c.failedWrite p ch l).lastCmd = c.lastCmd := rfl
@[simp] theorem Channel.failedWrite_en (p : Params) (ch : Nat) (l : LineCfg) (c : Channel) :
    (c.failedWrite p ch l).en = c.en := rfl
@[simp] theorem Channel.failedWrite_dirA (p : Params) (ch : Nat) (l : LineCfg) (c : Channel) :
    (c.failedWrite p ch l).dirA = c.dirA := rfl
@[simp] theorem Channel.failedWrite_dirB (p : Params) (ch : Nat) (l : LineCfg) (c : Channel) :
    (c.failedWrite p ch l).dirB = c.dirB := rfl
@[simp] theorem Channel.failedWrite_drvState (p : Params) (ch : Nat) (l : LineCfg) (c : Channel) :
    (c.failedWrite p ch l).drvState = c.drvState := rfl
@[simp] theorem Channel.failedWrite_extTimer (p : Params) (ch : Nat) (l : LineCfg) (c : Channel) :
    (c.failedWrite p ch l).extTimer = c.extTimer := rfl
@[simp] theorem Channel.failedWrite_chState (p : Params) (ch : Nat) (l : LineCfg) (c : Channel) :
    (c.failedWrite p ch l).chState = c.chState := rfl
@[simp] theorem Channel.failedWrite_phase (p : Params) (ch : Nat) (l : LineCfg) (c : Channel) :
    (c.failedWrite p ch l).phase = c.phase := rfl
@[simp] theorem Channel.failedWrite_nosig (p : Params) (ch : Nat) (l : LineCfg) (c : Channel) :
    (c.failedWrite p ch l).nosig = c.nosig := rfl
@[simp] theorem Channel.failedWrite_cfgCause (p : Params) (ch : Nat) (l : LineCfg) (c : Channel) :
    (c.failedWrite p ch l).cfgCause = c.cfgCause := rfl
@[simp] theorem Channel.failedWrite_wrFault (p : Params) (ch : Nat) (l : LineCfg) (c : Channel) :
    (c.failedWrite p ch l).wrFault = true := rfl
@[simp] theorem Channel.failedWrite_acc (p : Params) (ch : Nat) (l : LineCfg) (c : Channel) :
    (c.failedWrite p ch l).acc = c.acc := rfl
@[simp] theorem Channel.failedWrite_k (p : Params) (ch : Nat) (l : LineCfg) (c : Channel) :
    (c.failedWrite p ch l).k = c.k := rfl
@[simp] theorem Channel.failedWrite_meas (p : Params) (ch : Nat) (l : LineCfg) (c : Channel) :
    (c.failedWrite p ch l).meas = c.meas := rfl
@[simp] theorem Channel.failedWrite_cmd (p : Params) (ch : Nat) (l : LineCfg) (c : Channel) :
    (c.failedWrite p ch l).cmd = c.cmd := rfl
@[simp] theorem Channel.failedWrite_rpt (p : Params) (ch : Nat) (l : LineCfg) (c : Channel) :
    (c.failedWrite p ch l).rpt = c.rpt := rfl
@[simp] theorem Channel.failedWrite_pinEn (p : Params) (ch : Nat) (l : LineCfg) (c : Channel) :
    (c.failedWrite p ch l).pinEn = c.pinEn := rfl
@[simp] theorem Channel.failedWrite_capPhase (p : Params) (ch : Nat) (l : LineCfg) (c : Channel) :
    (c.failedWrite p ch l).capPhase = c.capPhase := rfl
@[simp] theorem Channel.failedWrite_capWait (p : Params) (ch : Nat) (l : LineCfg) (c : Channel) :
    (c.failedWrite p ch l).capWait = c.capWait := rfl
@[simp] theorem Channel.failedWrite_capHigh (p : Params) (ch : Nat) (l : LineCfg) (c : Channel) :
    (c.failedWrite p ch l).capHigh = c.capHigh := rfl
@[simp] theorem Channel.failedWrite_free (p : Params) (ch : Nat) (l : LineCfg) (c : Channel) :
    (c.failedWrite p ch l).free = c.free + 2 := rfl

@[simp] theorem Channel.push_cfg (hcap : Nat) (v : Cmd) (c : Channel) :
    (pushCmd hcap v c).cfg = c.cfg := rfl
@[simp] theorem Channel.push_h (hcap : Nat) (v : Cmd) (c : Channel) :
    (pushCmd hcap v c).h = c.h.write c.wp v := rfl
@[simp] theorem Channel.push_cnt (hcap : Nat) (v : Cmd) (c : Channel) :
    (pushCmd hcap v c).cnt = if c.cnt < hcap then c.cnt + 1 else c.cnt := rfl
@[simp] theorem Channel.push_wp (hcap : Nat) (v : Cmd) (c : Channel) :
    (pushCmd hcap v c).wp = (c.wp + 1) % hcap := rfl
@[simp] theorem Channel.push_lastCmd (hcap : Nat) (v : Cmd) (c : Channel) :
    (pushCmd hcap v c).lastCmd = c.lastCmd := rfl
@[simp] theorem Channel.push_en (hcap : Nat) (v : Cmd) (c : Channel) :
    (pushCmd hcap v c).en = c.en := rfl
@[simp] theorem Channel.push_dirA (hcap : Nat) (v : Cmd) (c : Channel) :
    (pushCmd hcap v c).dirA = c.dirA := rfl
@[simp] theorem Channel.push_dirB (hcap : Nat) (v : Cmd) (c : Channel) :
    (pushCmd hcap v c).dirB = c.dirB := rfl
@[simp] theorem Channel.push_drvState (hcap : Nat) (v : Cmd) (c : Channel) :
    (pushCmd hcap v c).drvState = c.drvState := rfl
@[simp] theorem Channel.push_extTimer (hcap : Nat) (v : Cmd) (c : Channel) :
    (pushCmd hcap v c).extTimer = c.extTimer := rfl
@[simp] theorem Channel.push_chState (hcap : Nat) (v : Cmd) (c : Channel) :
    (pushCmd hcap v c).chState = c.chState := rfl
@[simp] theorem Channel.push_phase (hcap : Nat) (v : Cmd) (c : Channel) :
    (pushCmd hcap v c).phase = c.phase := rfl
@[simp] theorem Channel.push_nosig (hcap : Nat) (v : Cmd) (c : Channel) :
    (pushCmd hcap v c).nosig = c.nosig := rfl
@[simp] theorem Channel.push_cfgCause (hcap : Nat) (v : Cmd) (c : Channel) :
    (pushCmd hcap v c).cfgCause = c.cfgCause := rfl
@[simp] theorem Channel.push_wrFault (hcap : Nat) (v : Cmd) (c : Channel) :
    (pushCmd hcap v c).wrFault = c.wrFault := rfl
@[simp] theorem Channel.push_acc (hcap : Nat) (v : Cmd) (c : Channel) :
    (pushCmd hcap v c).acc = c.acc := rfl
@[simp] theorem Channel.push_k (hcap : Nat) (v : Cmd) (c : Channel) :
    (pushCmd hcap v c).k = c.k := rfl
@[simp] theorem Channel.push_meas (hcap : Nat) (v : Cmd) (c : Channel) :
    (pushCmd hcap v c).meas = c.meas := rfl
@[simp] theorem Channel.push_cmd (hcap : Nat) (v : Cmd) (c : Channel) :
    (pushCmd hcap v c).cmd = c.cmd := rfl
@[simp] theorem Channel.push_rpt (hcap : Nat) (v : Cmd) (c : Channel) :
    (pushCmd hcap v c).rpt = c.rpt := rfl
@[simp] theorem Channel.push_pinEn (hcap : Nat) (v : Cmd) (c : Channel) :
    (pushCmd hcap v c).pinEn = c.pinEn := rfl
@[simp] theorem Channel.push_pinA (hcap : Nat) (v : Cmd) (c : Channel) :
    (pushCmd hcap v c).pinA = c.pinA := rfl
@[simp] theorem Channel.push_pinB (hcap : Nat) (v : Cmd) (c : Channel) :
    (pushCmd hcap v c).pinB = c.pinB := rfl
@[simp] theorem Channel.push_capPhase (hcap : Nat) (v : Cmd) (c : Channel) :
    (pushCmd hcap v c).capPhase = c.capPhase := rfl
@[simp] theorem Channel.push_capWait (hcap : Nat) (v : Cmd) (c : Channel) :
    (pushCmd hcap v c).capWait = c.capWait := rfl
@[simp] theorem Channel.push_capHigh (hcap : Nat) (v : Cmd) (c : Channel) :
    (pushCmd hcap v c).capHigh = c.capHigh := rfl
@[simp] theorem Channel.push_free (hcap : Nat) (v : Cmd) (c : Channel) :
    (pushCmd hcap v c).free = c.free := rfl

@[simp] theorem Channel.goodWrite_lines (p : Params) (l : LineCfg) (c : Channel) : (c.goodWrite p l).lines = l := rfl
@[simp] theorem Channel.failedWrite_lines (p : Params) (ch : Nat) (l : LineCfg) (c : Channel) :
    (c.failedWrite p ch l).lines = c.lines := rfl
@[simp] theorem Channel.push_lines (hcap : Nat) (v : Cmd) (c : Channel) : (pushCmd hcap v c).lines = c.lines := rfl

/-- After a failed write a pin has its old or its new level (R124). -/
theorem pinAfterFailure_old_or_new (pick : Bool) (old new : Level) :
    pinAfterFailure pick old new = old ∨ pinAfterFailure pick old new = new := by
  cases pick <;> simp [pinAfterFailure]

end Sys2Proof.Machine
end

