-- ==== Sys2Proof/Laws/Ops.lean ====
section
/-!
SUPPORT. What the shared operations do, said once: an operation on a channel of a device, the lifecycle guard,
the read of the configuration, and every operation of the table as an operation on its channel.
-/

namespace Sys2Proof.Machine

theorem State.onChannel_some {s : State} {ch : ChIndex} {c : Channel} (h : s.channel? ch = some c)
    (f : Channel → ChannelOutcome) :
    s.onChannel ch f = match f c with
      | .next c' => .next (s.setChannel ch c')
      | .fault e => .fault e
      | .refused e => .refused e := by
  cases hf : f c <;> simp [State.onChannel, h, hf]

theorem State.onChannel_none {s : State} {ch : ChIndex} (h : s.channel? ch = none)
    (f : Channel → ChannelOutcome) : s.onChannel ch f = .next s := by
  simp only [State.onChannel, h]

theorem State.onChannel_next {s : State} {ch : ChIndex} {c c' : Channel} {f : Channel → ChannelOutcome}
    (h : s.channel? ch = some c) (hf : f c = .next c') : s.onChannel ch f = .next (s.setChannel ch c') := by
  rw [State.onChannel_some h, hf]

/-- If an operation on a channel answers a next state, the device has no such channel and nothing changed, or
that channel alone was replaced. -/
theorem State.onChannel_eq_next {s t : State} {ch : ChIndex} {f : Channel → ChannelOutcome}
    (h : s.onChannel ch f = .next t) :
    (s.channel? ch = none ∧ t = s) ∨
    ∃ c c', s.channel? ch = some c ∧ f c = .next c' ∧ t = s.setChannel ch c' := by
  cases hc : s.channel? ch with
  | none =>
    rw [State.onChannel_none hc] at h
    exact .inl ⟨rfl, by injection h with h; exact h.symm⟩
  | some c =>
    rw [State.onChannel_some hc] at h
    cases hf : f c with
    | next c' =>
      rw [hf] at h
      exact .inr ⟨c, c', rfl, hf, by injection h with h; exact h.symm⟩
    | fault e => rw [hf] at h; cases h
    | refused e => rw [hf] at h; cases h

@[simp] theorem Channel.whenRun_run {c : Channel} (h : c.chState = .run) (f : Channel → ChannelOutcome) :
    c.whenRun f = f c := by simp [Channel.whenRun, h]

theorem Channel.whenRun_not {c : Channel} (h : c.chState ≠ .run) (f : Channel → ChannelOutcome) :
    c.whenRun f = .next c := by
  unfold Channel.whenRun
  cases hc : c.chState <;> simp_all

@[simp] theorem Channel.withCfg_some {c : Channel} {cfg : ChanConfig} (h : c.cfg = some cfg)
    (f : ChanConfig → ChannelOutcome) : c.withCfg f = f cfg := by simp [Channel.withCfg, h]

theorem Channel.withCfg_none {c : Channel} (h : c.cfg = none) (f : ChanConfig → ChannelOutcome) :
    c.withCfg f = .fault .configurationUnwritten := by simp [Channel.withCfg, h]

theorem samples?_of_le {cfg : ChanConfig} {rs : List Capture} (h : cfg.nsamp ≤ rs.length) :
    samples? cfg rs = some (rs.take cfg.nsamp) := by
  simp [samples?, Nat.not_lt.mpr h]

theorem samples?_of_eq {cfg : ChanConfig} {rs : List Capture} (h : rs.length = cfg.nsamp) :
    samples? cfg rs = some rs := by
  rw [samples?_of_le h.ge, ← h, List.take_length]

/-- What each operation makes of its channel, given the parameters and the verdict of the pin-access layer. -/
def channelEffect (p : Params) (wrOk : Bool) : Instr → Channel → ChannelOutcome
  | .nop _, c => .next c
  | .reset _, c => .next (resetChannel c)
  | .init _ cfg, c => .next (initChannel p cfg c)
  | .poll ch rs, c => c.whenRun fun c => c.withCfg fun cfg =>
    match samples? cfg rs with
    | none => .next c
    | some rs => .next (pollChannel p ch.toNat wrOk cfg rs c)
  | .tick ch, c =>
    if c.lines = p.extendCfg then
      c.withCfg fun cfg => .next (tickExtended p ch.toNat wrOk (extLimit cfg) c)
    else .next c
  | .measure _ rs, c => c.whenRun fun c => c.withCfg fun cfg =>
    match samples? cfg rs with
    | none => .next c
    | some rs => .next (measureChannel p cfg rs c)
  | .decode _ m, c => c.whenRun fun c => c.withCfg fun cfg => .next (decodeChannel p cfg (measOf p cfg m) c)
  | .debounce _ v, c => c.whenRun fun c => c.withCfg fun cfg => .next (debounceChannel cfg v c)
  | .drive ch r ok, c => c.whenRun fun c =>
    .next (if ok || p.hasWrStatus then driveChannel p ch.toNat ok r c else c)

/-- Every operation is an operation on its own channel: the parameters and the verdict are all it sees of the
rest of the device (R8). -/
theorem exec_eq_onChannel (i : Instr) (s : State) :
    exec i s = s.onChannel i.channel (channelEffect s.params s.wrOk i) := by
  cases i <;> rfl

theorem exec_next {i : Instr} {s : State} {c c' : Channel} (h : s.channel? i.channel = some c)
    (hf : channelEffect s.params s.wrOk i c = .next c') : exec i s = .next (s.setChannel i.channel c') := by
  rw [exec_eq_onChannel]
  exact State.onChannel_next h hf

/-- If an operation answers a next state, nothing changed or its own channel alone was replaced. -/
theorem exec_eq_next {i : Instr} {s t : State} (h : exec i s = .next t) :
    (s.channel? i.channel = none ∧ t = s) ∨
    ∃ c c', s.channel? i.channel = some c ∧ channelEffect s.params s.wrOk i c = .next c' ∧
      t = s.setChannel i.channel c' := by
  rw [exec_eq_onChannel] at h
  exact State.onChannel_eq_next h

/-! ### When each operation takes effect (R131) -/

section
variable {p : Params} {ok : Bool} {c : Channel} {cfg : ChanConfig}

theorem channelEffect_poll_run (ch : ChIndex) {rs us : List Capture} (hr : c.chState = .run)
    (hc : c.cfg = some cfg) (hs : samples? cfg rs = some us) :
    channelEffect p ok (.poll ch rs) c = .next (pollChannel p ch.toNat ok cfg us c) := by
  simp only [channelEffect, Channel.whenRun_run hr, Channel.withCfg_some hc, hs]

theorem channelEffect_measure_run (ch : ChIndex) {rs us : List Capture} (hr : c.chState = .run)
    (hc : c.cfg = some cfg) (hs : samples? cfg rs = some us) :
    channelEffect p ok (.measure ch rs) c = .next (measureChannel p cfg us c) := by
  simp only [channelEffect, Channel.whenRun_run hr, Channel.withCfg_some hc, hs]

theorem channelEffect_decode_run (ch : ChIndex) (m : MeasArg) (hr : c.chState = .run) (hc : c.cfg = some cfg) :
    channelEffect p ok (.decode ch m) c = .next (decodeChannel p cfg (measOf p cfg m) c) := by
  simp only [channelEffect, Channel.whenRun_run hr, Channel.withCfg_some hc]

theorem channelEffect_debounce_run (ch : ChIndex) (v : Cmd) (hr : c.chState = .run) (hc : c.cfg = some cfg) :
    channelEffect p ok (.debounce ch v) c = .next (debounceChannel cfg v c) := by
  simp only [channelEffect, Channel.whenRun_run hr, Channel.withCfg_some hc]

theorem channelEffect_drive_run (ch : ChIndex) (r : Report) (wrOk : Bool) (hr : c.chState = .run)
    (hw : (wrOk || p.hasWrStatus) = true) :
    channelEffect p ok (.drive ch r wrOk) c = .next (driveChannel p ch.toNat wrOk r c) := by
  simp only [channelEffect, Channel.whenRun_run hr, hw, if_true]

theorem channelEffect_tick_extended (ch : ChIndex) (hl : c.lines = p.extendCfg) (hc : c.cfg = some cfg) :
    channelEffect p ok (.tick ch) c = .next (tickExtended p ch.toNat ok (extLimit cfg) c) := by
  simp only [channelEffect, if_pos hl, Channel.withCfg_some hc]

theorem channelEffect_tick_idle (ch : ChIndex) (hl : c.lines ≠ p.extendCfg) :
    channelEffect p ok (.tick ch) c = .next c := by
  simp only [channelEffect, if_neg hl]

theorem channelEffect_poll_short (ch : ChIndex) {rs : List Capture} (hr : c.chState = .run)
    (hc : c.cfg = some cfg) (hs : samples? cfg rs = none) : channelEffect p ok (.poll ch rs) c = .next c := by
  simp only [channelEffect, Channel.whenRun_run hr, Channel.withCfg_some hc, hs]

theorem channelEffect_measure_short (ch : ChIndex) {rs : List Capture} (hr : c.chState = .run)
    (hc : c.cfg = some cfg) (hs : samples? cfg rs = none) : channelEffect p ok (.measure ch rs) c = .next c := by
  simp only [channelEffect, Channel.whenRun_run hr, Channel.withCfg_some hc, hs]

end

end Sys2Proof.Machine
end

