-- ==== Sys2Proof/Laws/Agents.lean ====
section
/-!
SUPPORT. Sequences of operations (R139, R141), the host's operations (R140), and one wait of the reference capture unit (R84).
-/

namespace Sys2Proof.Machine

theorem execAll_cons (i : Instr) (is : List Instr) (s : State) :
    execAll (i :: is) s = andThen (exec i s) (execAll is) := rfl

theorem execAll_append (is js : List Instr) (s : State) :
    execAll (is ++ js) s = andThen (execAll is s) (execAll js) := by
  induction is generalizing s with
  | nil => rfl
  | cons i is ih =>
    simp only [List.cons_append, execAll_cons]
    cases exec i s with
    | next t => exact ih t
    | fault e => rfl
    | refused e => rfl

theorem performAll_cons (q : Issued) (qs : List Issued) (s : State) :
    performAll (q :: qs) s = andThen (exec q.op { s with wrOk := q.wrOk }) (performAll qs) := rfl

theorem performAll_append (qs rs : List Issued) (s : State) :
    performAll (qs ++ rs) s = andThen (performAll qs s) (performAll rs) := by
  induction qs generalizing s with
  | nil => rfl
  | cons q qs ih =>
    simp only [List.cons_append, performAll_cons]
    cases exec q.op { s with wrOk := q.wrOk } with
    | next t => exact ih t
    | fault e => rfl
    | refused e => rfl

/-- An operation keeps the parameters, the presented operations, the verdict and the number of channels. -/
theorem exec_keeps {i : Instr} {s t : State} (h : exec i s = .next t) :
    t.params = s.params ∧ t.pending = s.pending ∧ t.wrOk = s.wrOk ∧ t.nch = s.nch := by
  rcases exec_eq_next h with ⟨-, rfl⟩ | ⟨c, c', -, -, rfl⟩
  · exact ⟨rfl, rfl, rfl, rfl⟩
  · exact ⟨rfl, rfl, rfl, by simp⟩

/-- Operations with verdicts keep the parameters, the presented operations and the number of channels. -/
theorem performAll_keeps {qs : List Issued} {s t : State} (h : performAll qs s = .next t) :
    t.params = s.params ∧ t.pending = s.pending ∧ t.nch = s.nch := by
  induction qs generalizing s with
  | nil => injection h with h; subst h; exact ⟨rfl, rfl, rfl⟩
  | cons q qs ih =>
    rw [performAll_cons] at h
    cases he : exec q.op { s with wrOk := q.wrOk } with
    | next u =>
      rw [he] at h
      obtain ⟨h1, h2, h3⟩ := ih h
      obtain ⟨k1, k2, -, k4⟩ := exec_keeps he
      exact ⟨h1.trans k1, h2.trans k2, h3.trans k4⟩
    | fault e => rw [he] at h; cases h
    | refused e => rw [he] at h; cases h

theorem tickTimes_zero (ch : ChIndex) (ok : Nat → Bool) (s : State) : tickTimes ch ok 0 s = .next s := rfl

/-- One tick more: after the first `n`, a TICK with the verdict `ok n`. -/
theorem tickTimes_succ (ch : ChIndex) (ok : Nat → Bool) (n : Nat) (s : State) :
    tickTimes ch ok (n + 1) s =
      andThen (tickTimes ch ok n s) (fun t => exec (.tick ch) { t with wrOk := ok n }) := by
  simp only [tickTimes, List.range_succ, List.map_append, performAll_append]
  congr 1
  funext t
  simp only [List.map_cons, List.map_nil, performAll_cons]
  cases exec (.tick ch) { t with wrOk := ok n } <;> rfl

/-- The host's operations go to the channels in turn (R141). -/
@[simp] theorem hostIssue_channel (nch : Nat) (cfgs : ChIndex → ChanConfig) (rs : List Capture) (n : Nat) :
    (hostIssue nch cfgs rs n).channel = hostChannel nch n := by
  simp only [hostIssue]
  split
  · rfl
  · split <;> rfl

/-- One wait of R84: it ends within its bound, and if it ends on a change the line has changed. -/
theorem waitWhile_bounds (lv : Level) (level : Nat → Level) (left n : Nat) :
    n ≤ (waitWhile lv level left n).1 ∧ (waitWhile lv level left n).1 ≤ n + left ∧
    ((waitWhile lv level left n).2 = true → level (waitWhile lv level left n).1 ≠ lv) ∧
    (level n = lv → (waitWhile lv level left n).2 = true → n < (waitWhile lv level left n).1) := by
  induction left generalizing n with
  | zero => refine ⟨le_refl _, le_refl _, ?_, ?_⟩ <;> simp +contextual [waitWhile]
  | succ l ih =>
    unfold waitWhile
    by_cases h : level n = lv
    · rw [if_pos h]
      obtain ⟨h1, h2, h3, -⟩ := ih (n + 1)
      exact ⟨by omega, by omega, h3, fun _ _ => by omega⟩
    · rw [if_neg h]
      exact ⟨le_refl _, by simp, fun _ => h, fun x => absurd x h⟩

end Sys2Proof.Machine
end

