-- ==== Sys2Proof/Laws/Encoding.lean ====
section
/-!
SUPPORT. The laws of the value encodings (R55 to R67): the header fields, the images of rationals, and the words of
the operands.
-/

namespace Sys2Proof

/-- Header bits 3:0 are the operation code (R63). -/
theorem OpWord.op_encode (durW : Nat) (i : Instr) : (encode durW i).op = i.opCode := by
  have h := i.channel.isLt
  have h2 : i.opCode < 16 := by cases i <;> simp [Instr.opCode]
  simp only [encode, OpWord.op, bitField, BitVec.toNat_ofNat]
  omega

/-- Header bits 7:4 are the channel (R63). -/
theorem OpWord.ch_encode (durW : Nat) (i : Instr) : (encode durW i).ch = i.channel := by
  have h := i.channel.isLt
  have h2 : i.opCode < 16 := by cases i <;> simp [Instr.opCode]
  apply BitVec.eq_of_toNat_eq
  simp only [encode, OpWord.ch, bitField, BitVec.toNat_ofNat]
  omega

/-- A value with an image is the value of its image, and the image fits its register (R67). -/
theorem ofImage_imageOf {unit width : Nat} {q : ℚ} (hu : 0 < unit) (h : hasImage unit width q = true) :
    (imageOf unit width q).getD 0 < 2 ^ width ∧ ofImage unit ((imageOf unit width q).getD 0) = q := by
  simp only [imageOf, h, if_true, Option.getD_some]
  simp only [hasImage, Bool.and_eq_true, decide_eq_true_eq] at h
  obtain ⟨⟨hd, h0⟩, hlt⟩ := h
  have hn : 0 ≤ (q * (unit : ℚ)).num := Rat.num_nonneg.mpr h0
  have hq : ((q * (unit : ℚ)).num : ℚ) = q * unit := by exact_mod_cast (Rat.den_eq_one_iff _).mp hd
  refine ⟨by zify; rw [Int.toNat_of_nonneg hn]; exact_mod_cast hlt, ?_⟩
  unfold ofImage
  rw [Rat.mkRat_eq_div, Int.toNat_of_nonneg hn, hq]
  field_simp

/-- A capture word of `DUR_W + 1` bits (R60). -/
theorem Capture.ofWord_toWord {durW : Nat} {r : Capture} (h : r.encodable durW = true) :
    Capture.ofWord durW (r.toWord durW) = r := by
  cases r with
  | timeout => simp [Capture.ofWord, Capture.toWord, bitField]
  | dur t =>
    simp only [Capture.encodable, decide_eq_true_eq] at h
    simp [Capture.ofWord, Capture.toWord, bitField, Nat.div_eq_of_lt h, Nat.mod_eq_of_lt h]

/-- A `Meas` image of `DUR_W + 9` bits (R61). -/
theorem MeasArg.ofWord_toWord {durW : Nat} {m : MeasArg} (h : m.encodable durW = true) :
    MeasArg.ofWord durW (m.toWord durW) = m := by
  cases m with
  | noSignal => simp [MeasArg.ofWord, MeasArg.toWord, bitField]
  | acc n =>
    simp only [MeasArg.encodable, decide_eq_true_eq] at h
    simp [MeasArg.ofWord, MeasArg.toWord, bitField, Nat.div_eq_of_lt h, Nat.mod_eq_of_lt h]
  | duty q => simp [MeasArg.encodable] at h

end Sys2Proof
end

