-- ==== Sys2Proof/Laws/Memory.lean ====
section
/-!
SUPPORT. The laws of the history space: a read after a write, the canonical form, and reads in sequence.
-/

namespace Sys2Proof.Machine

@[simp] theorem Memory.read?_nil (i : Nat) : Memory.read? [] i = none := rfl

/-- A read after a write: the value written at its index, every other cell as before. -/
theorem Memory.read?_write (m : Memory) (i : Nat) (v : Cmd) (j : Nat) :
    (m.write i v).read? j = if j = i then some v else m.read? j := by
  induction m with
  | nil =>
    by_cases h : j = i
    · simp [Memory.write, Memory.read?, h]
    · simp [Memory.write, Memory.read?, h, Ne.symm h]
  | cons e rest ih =>
    obtain ⟨k, w⟩ := e
    by_cases hik : i < k
    · by_cases h : j = i
      · simp [Memory.write, Memory.read?, hik, h]
      · simp [Memory.write, Memory.read?, hik, h, Ne.symm h]
    · by_cases hk : i = k
      · subst hk
        by_cases h : j = i
        · simp [Memory.write, Memory.read?, h]
        · simp [Memory.write, Memory.read?, h, Ne.symm h]
      · by_cases hkj : k = j
        · subst hkj
          simp [Memory.write, Memory.read?, hik, hk, Ne.symm hk]
        · simp [Memory.write, Memory.read?, hik, hk, hkj, ih]

@[simp] theorem Memory.read?_write_self (m : Memory) (i : Nat) (v : Cmd) : (m.write i v).read? i = some v := by
  simp [Memory.read?_write]

theorem Memory.read?_write_ne (m : Memory) {i j : Nat} (v : Cmd) (h : j ≠ i) :
    (m.write i v).read? j = m.read? j := by
  simp [Memory.read?_write, h]

@[simp] theorem Memory.read_write_self (m : Memory) (i : Nat) (v : Cmd) : (m.write i v).read i = v := by
  simp [Memory.read]

theorem Memory.read_write_ne (m : Memory) {i j : Nat} (v : Cmd) (h : j ≠ i) :
    (m.write i v).read j = m.read j := by
  simp [Memory.read, Memory.read?_write_ne m v h]

/-- The indices a write leaves: the old ones and the written one. -/
theorem Memory.mem_write (m : Memory) (i : Nat) (v : Cmd) (e : Nat × Cmd) (h : e ∈ m.write i v) :
    e = (i, v) ∨ e ∈ m := by
  induction m with
  | nil => simpa [Memory.write] using h
  | cons d rest ih =>
    obtain ⟨k, w⟩ := d
    unfold Memory.write at h
    split at h
    · simpa using h
    · split at h
      · rcases List.mem_cons.mp h with h | h
        · exact .inl h
        · exact .inr (List.mem_cons_of_mem _ h)
      · rcases List.mem_cons.mp h with h | h
        · exact .inr (h ▸ List.mem_cons_self)
        · rcases ih h with h | h
          · exact .inl h
          · exact .inr (List.mem_cons_of_mem _ h)

/-- A write keeps the canonical form. -/
theorem Memory.write_wf (m : Memory) (i : Nat) (v : Cmd) (h : m.wf) : (m.write i v).wf := by
  induction m with
  | nil => simp [Memory.write, Memory.wf]
  | cons d rest ih =>
    obtain ⟨k, w⟩ := d
    obtain ⟨hd, ht⟩ := List.pairwise_cons.mp h
    unfold Memory.write
    split
    · refine List.pairwise_cons.mpr ⟨fun e he => ?_, h⟩
      rcases List.mem_cons.mp he with he | he
      · simp [he]; assumption
      · have := hd e he; simp only at *; omega
    · split
      · subst_vars
        exact List.pairwise_cons.mpr ⟨hd, ht⟩
      · refine List.pairwise_cons.mpr ⟨fun e he => ?_, ih ht⟩
        rcases Memory.mem_write rest i v e he with he | he
        · subst he; simp only; omega
        · exact hd e he

/-- The empty history is canonical: what a channel holds after reset (R171). -/
theorem Memory.reset_wf : Memory.wf Channel.reset.h := by decide

@[simp] theorem Memory.length_readSeq (m : Memory) (hcap addr n : Nat) : (m.readSeq hcap addr n).length = n := by
  simp [Memory.readSeq]

theorem Memory.getElem_readSeq (m : Memory) (hcap addr n i : Nat) (h : i < (m.readSeq hcap addr n).length) :
    (m.readSeq hcap addr n)[i] = m.read ((addr + i) % hcap) := by
  simp [Memory.readSeq]

/-- `all_equal`: some value is every element's, and there is one. -/
theorem allEqual_iff (l : List Cmd) : allEqual l = true ↔ ∃ x, l ≠ [] ∧ ∀ y ∈ l, y = x := by
  cases l with
  | nil => simp [allEqual]
  | cons a t => simp [allEqual]

@[simp] theorem Channel.length_window (hcap : Nat) (c : Channel) :
    (c.window hcap).length = if c.cnt < hcap then c.cnt else hcap := by
  unfold Channel.window
  split <;> simp

end Sys2Proof.Machine
end

