-- ==== Sys2Proof/Laws/Operands.lean ====
section
/-!
SUPPORT. What a valid configuration gives (R133), the order of its thresholds (R12), and what a running channel
of a device in its invariant satisfies.
-/

namespace Sys2Proof.Machine

/-- The checks of R133, as bounds on the fields. -/
theorem Valid.bounds {p : Params} {f : ChanConfig} (h : Valid p f) :
    0 < f.freq ∧ f.dmin < f.dmax ∧ 0 ≤ f.dmin ∧ f.dmax ≤ 100 ∧ 0 ≤ f.tol ∧ f.tol < 50 ∧ 0 < f.nsamp ∧ 0 < f.hcap ∧
    0 < f.travelDen ∧ 0 < f.travelNum ∧ f.travelNum ≤ f.travelDen ∧ 0 < f.strokeTicks ∧ 0 < extLimit f := by
  simp only [Valid, cfgChecks, CfgCause.empty, CfgCause.mk.injEq, decide_eq_false_iff_not, Bool.or_eq_false_iff,
    Bool.and_eq_false_iff, not_le, not_lt] at h
  obtain ⟨h1, h2, ⟨h3, h4⟩, ⟨h5, h6⟩, h7, h8, ⟨⟨h9, h10⟩, h11⟩, ⟨h12, h13⟩, -, -⟩ := h
  have hlim : 0 < extLimit f := by
    rcases h13 with h | h
    · omega
    · exact Nat.pos_of_ne_zero h
  exact ⟨h1, h2, h3, h4, h5, h6, Nat.pos_of_ne_zero h7, Nat.pos_of_ne_zero h8, Nat.pos_of_ne_zero h9,
    Nat.pos_of_ne_zero h10, h11, Nat.pos_of_ne_zero h12, hlim⟩

/-- `TH_RET < TH_EXT` and where they lie (R12). -/
theorem Valid.thresholds {p : Params} {f : ChanConfig} (h : Valid p f) :
    0 ≤ band f ∧ thRet f < thExt f ∧ f.dmin ≤ thRet f ∧ thExt f ≤ f.dmax ∧ 0 ≤ thRet f ∧ thExt f ≤ 100 ∧
    thRet f < (f.dmax + f.dmin) / 2 ∧ (f.dmax + f.dmin) / 2 < thExt f := by
  obtain ⟨-, h2, h3, h4, h5, h6, -⟩ := h.bounds
  have hb : 0 ≤ band f := by
    have := mul_nonneg (sub_nonneg.mpr h2.le) h5
    unfold band
    linarith [div_nonneg this (by norm_num : (0 : ℚ) ≤ 100)]
  have hb2 : band f < (f.dmax - f.dmin) / 2 := by
    have : (f.dmax - f.dmin) * f.tol < (f.dmax - f.dmin) * 50 := mul_lt_mul_of_pos_left h6 (by linarith)
    unfold band
    linarith
  unfold thRet thExt
  refine ⟨hb, ?_, ?_, ?_, ?_, ?_, ?_, ?_⟩ <;> linarith

end Sys2Proof.Machine
end

