-- ==== Sys2Proof/Laws/PerInstr.lean ====
section
/-!
SUPPORT. A statement about every operation as syntax, proved constructor by constructor: the header byte of its word
is `{ch, op}` with the code of the opcode table (R63, R64).
-/

namespace Sys2Proof.Laws.EncodedHeader

/-- The header of the word of `i` names its operation and its channel, whatever `DUR_W` is. -/
def Statement (i : Instr) : Prop :=
  ∀ durW : Nat, (encode durW i).op = i.opCode ∧ (encode durW i).ch = i.channel ∧ i.opCode ≤ 8

theorem nop (ch : ChIndex) : Statement (.nop ch) :=
  fun d => ⟨OpWord.op_encode d _, OpWord.ch_encode d _, by simp [Instr.opCode]⟩

theorem reset (ch : ChIndex) : Statement (.reset ch) :=
  fun d => ⟨OpWord.op_encode d _, OpWord.ch_encode d _, by simp [Instr.opCode]⟩

theorem init (ch : ChIndex) (cfg : ChanConfig) : Statement (.init ch cfg) :=
  fun d => ⟨OpWord.op_encode d _, OpWord.ch_encode d _, by simp [Instr.opCode]⟩

theorem poll (ch : ChIndex) (rs : List Capture) : Statement (.poll ch rs) :=
  fun d => ⟨OpWord.op_encode d _, OpWord.ch_encode d _, by simp [Instr.opCode]⟩

theorem tick (ch : ChIndex) : Statement (.tick ch) :=
  fun d => ⟨OpWord.op_encode d _, OpWord.ch_encode d _, by simp [Instr.opCode]⟩

theorem measure (ch : ChIndex) (rs : List Capture) : Statement (.measure ch rs) :=
  fun d => ⟨OpWord.op_encode d _, OpWord.ch_encode d _, by simp [Instr.opCode]⟩

theorem decode (ch : ChIndex) (m : MeasArg) : Statement (.decode ch m) :=
  fun d => ⟨OpWord.op_encode d _, OpWord.ch_encode d _, by simp [Instr.opCode]⟩

theorem debounce (ch : ChIndex) (c : Cmd) : Statement (.debounce ch c) :=
  fun d => ⟨OpWord.op_encode d _, OpWord.ch_encode d _, by simp [Instr.opCode]⟩

theorem drive (ch : ChIndex) (r : Report) (wrOk : Bool) : Statement (.drive ch r wrOk) :=
  fun d => ⟨OpWord.op_encode d _, OpWord.ch_encode d _, by simp [Instr.opCode]⟩

end Sys2Proof.Laws.EncodedHeader
end

