-- ==== Sys2Proof/Laws/Stages.lean ====
section
/-!
SUPPORT. The stages of the pipeline, said once each: the sample loop, the push and the test of the debouncer, the
driver, and the order of the stages in a poll.
-/

namespace Sys2Proof.Machine

/-- Without a `TIMEOUT` the loop sums all durations and counts all results (R76). -/
theorem sampleLoop_durations (ts : List Nat) (acc k : Nat) :
    sampleLoop (ts.map .dur) acc k = (acc + ts.sum, k + ts.length, false) := by
  induction ts generalizing acc k with
  | nil => rfl
  | cons t rest ih =>
    simp only [List.map_cons, sampleLoop, ih, List.sum_cons, List.length_cons]
    congr 1
    · omega
    · congr 1; omega

/-- The first `TIMEOUT` ends the loop (R76, R80). -/
theorem sampleLoop_timeout (ts : List Nat) (rest : List Capture) (acc k : Nat) :
    sampleLoop (ts.map .dur ++ .timeout :: rest) acc k = (acc + ts.sum, k + ts.length + 1, true) := by
  induction ts generalizing acc k with
  | nil => simp [sampleLoop]
  | cons t us ih =>
    simp only [List.map_cons, List.cons_append, sampleLoop, ih, List.sum_cons, List.length_cons]
    congr 1
    · omega
    · congr 1; omega

/-- A list of captures has no `TIMEOUT`, or a first one. -/
theorem captures_split (rs : List Capture) :
    (∃ ts : List Nat, rs = ts.map .dur) ∨ ∃ (ts : List Nat) (rest : List Capture), rs = ts.map .dur ++ .timeout :: rest := by
  induction rs with
  | nil => exact .inl ⟨[], rfl⟩
  | cons r rest ih =>
    cases r with
    | timeout => exact .inr ⟨[], rest, rfl⟩
    | dur t =>
      rcases ih with ⟨ts, h⟩ | ⟨ts, more, h⟩
      · exact .inl ⟨t :: ts, by simp [h]⟩
      · exact .inr ⟨t :: ts, more, by simp [h]⟩

/-- MEASURE on durations only (R76). -/
theorem measureChannel_durations (p : Params) (cfg : ChanConfig) (ts : List Nat) (c : Channel) :
    measureChannel p cfg (ts.map .dur) c =
      { c with nosig := false, acc := ts.sum, k := ts.length, meas := .duty (dutyOf p cfg ts.sum) } := by
  simp [measureChannel, sampleLoop_durations]

/-- MEASURE with a `TIMEOUT` (R76, R80). -/
theorem measureChannel_timeout (p : Params) (cfg : ChanConfig) (ts : List Nat) (rest : List Capture) (c : Channel) :
    measureChannel p cfg (ts.map .dur ++ .timeout :: rest) c =
      { c with nosig := true, acc := ts.sum, k := ts.length + 1, meas := .noSignal } := by
  simp [measureChannel, sampleLoop_timeout, Channel.raise]

/-- What MEASURE writes (R76): its latches and `nosig`. -/
theorem measureChannel_frame (p : Params) (cfg : ChanConfig) (rs : List Capture) (c : Channel) :
    ∃ a k m b, measureChannel p cfg rs c = { c with acc := a, k := k, meas := m, nosig := b } := by
  rcases captures_split rs with ⟨ts, h⟩ | ⟨ts, rest, h⟩
  · exact ⟨_, _, _, _, by rw [h, measureChannel_durations]⟩
  · exact ⟨_, _, _, _, by rw [h, measureChannel_timeout]⟩

/-- The debouncer's channel: the pushed one, with the report of the test in its latch (R101). -/
theorem debounceChannel_eq (cfg : ChanConfig) (v : Cmd) (c : Channel) :
    debounceChannel cfg v c = { pushCmd cfg.hcap v c with rpt := stableTest cfg.hcap (pushCmd cfg.hcap v c) } := rfl

/-- The test reports `x` exactly when the window is full and uniformly `x`, and `x` was not the last delivered
command (R103). -/
theorem stableTest_eq_stable (hcap : Nat) (c : Channel) (x : Cmd) (hpos : 0 < hcap) (hw : c.wp < hcap) :
    stableTest hcap c = .stable x ↔
      c.cnt = hcap ∧ (∀ y ∈ c.window hcap, y = x) ∧ LastCmd.cmd x ≠ c.lastCmd := by
  have key : ∀ z, c.cnt = hcap → (∀ y ∈ c.window hcap, y = z) → c.h.read 0 = z := by
    intro z hfull hall
    apply hall
    have : ¬ c.cnt < hcap := by omega
    rw [Channel.window, if_neg this, Memory.readSeq, List.mem_map]
    refine ⟨(hcap - c.wp) % hcap, List.mem_range.mpr (Nat.mod_lt _ hpos), ?_⟩
    congr 1
    rcases Nat.eq_zero_or_pos c.wp with h0 | h0
    · simp [h0]
    · rw [Nat.mod_eq_of_lt (show hcap - c.wp < hcap by omega), show c.wp + (hcap - c.wp) = hcap by omega,
        Nat.mod_self]
  constructor
  · intro h
    unfold stableTest at h
    split at h
    · rename_i hc
      obtain ⟨hfull, hall, hne⟩ := hc
      injection h with h
      obtain ⟨z, -, hz⟩ := (allEqual_iff _).mp hall
      have := key z hfull hz
      subst h; rw [this] at hne ⊢
      exact ⟨hfull, hz, hne⟩
    · cases h
  · rintro ⟨hfull, hall, hne⟩
    have hx := key x hfull hall
    have hlen : (c.window hcap) ≠ [] := by
      intro e
      have := Channel.length_window hcap c
      rw [e, if_neg (by omega)] at this
      simp at this; omega
    unfold stableTest
    rw [if_pos ⟨hfull, (allEqual_iff _).mpr ⟨x, hlen, hall⟩, by rw [hx]; exact hne⟩, hx]

/-- The push on the window (R102): appended below capacity, the oldest evicted at capacity. -/
theorem window_pushCmd (hcap : Nat) (v : Cmd) (c : Channel) (hpos : 0 < hcap) (hle : c.cnt ≤ hcap)
    (hwp : c.wp < hcap) (hcur : c.cnt < hcap → c.wp = c.cnt) :
    (pushCmd hcap v c).window hcap =
      if c.cnt < hcap then c.window hcap ++ [v] else (c.window hcap).tail ++ [v] := by
  have hlenL : ((pushCmd hcap v c).window hcap).length = if c.cnt < hcap then c.cnt + 1 else hcap := by
    rw [Channel.length_window, Channel.push_cnt]
    by_cases h : c.cnt < hcap
    · simp [h]; omega
    · simp [h]
  have hget : ∀ i, i < ((pushCmd hcap v c).window hcap).length →
      ((pushCmd hcap v c).window hcap)[i]? =
        some ((c.h.write c.wp v).read (if c.cnt + 1 < hcap then i % hcap else ((c.wp + 1) % hcap + i) % hcap)) := by
    intro i hi
    rw [List.getElem?_eq_getElem hi]
    congr 1
    simp only [Channel.window, Channel.push_cnt, Channel.push_h, Channel.push_wp]
    by_cases hc : c.cnt < hcap
    · by_cases h1 : c.cnt + 1 < hcap
      · simp only [if_pos hc, if_pos h1]
        rw [Memory.getElem_readSeq, Nat.zero_add]
      · simp only [if_pos hc, if_neg h1]
        rw [Memory.getElem_readSeq]
    · simp only [if_neg hc, if_neg (show ¬ c.cnt + 1 < hcap by omega)]
      rw [Memory.getElem_readSeq]
  apply List.ext_getElem?
  intro i
  by_cases hi : i < ((pushCmd hcap v c).window hcap).length
  · rw [hget i hi]
    rw [hlenL] at hi
    by_cases hc : c.cnt < hcap
    · rw [if_pos hc] at hi ⊢
      have hwc := hcur hc
      have hidx : (if c.cnt + 1 < hcap then i % hcap else ((c.wp + 1) % hcap + i) % hcap) = i := by
        split
        · exact Nat.mod_eq_of_lt (by omega)
        · rw [hwc, show c.cnt + 1 = hcap by omega, Nat.mod_self, Nat.zero_add, Nat.mod_eq_of_lt (by omega)]
      rw [hidx, List.getElem?_append]
      have hl : (c.window hcap).length = c.cnt := by simp [hc]
      rw [hl]
      by_cases h : i < c.cnt
      · rw [if_pos h, Memory.read_write_ne _ _ (by omega), List.getElem?_eq_getElem (by omega)]
        congr 1
        simp only [Channel.window, if_pos hc]
        rw [Memory.getElem_readSeq, Nat.zero_add, Nat.mod_eq_of_lt (by omega)]
      · have : i = c.wp := by omega
        subst this
        rw [if_neg h, Memory.read_write_self, hwc, Nat.sub_self]
        rfl
    · rw [if_neg hc] at hi ⊢
      have hl : (c.window hcap).length = hcap := by simp [hc]
      rw [if_neg (by omega), List.getElem?_append]
      have hlt : ((c.window hcap).tail).length = hcap - 1 := by simp [hl]
      rw [hlt]
      have hmod : ((c.wp + 1) % hcap + i) % hcap = (c.wp + (1 + i)) % hcap := by
        rw [Nat.mod_add_mod, Nat.add_assoc]
      rw [hmod]
      by_cases h : i < hcap - 1
      · rw [if_pos h]
        have hne : (c.wp + (1 + i)) % hcap ≠ c.wp := by
          intro e
          rcases Nat.lt_or_ge (c.wp + (1 + i)) hcap with h' | h'
          · rw [Nat.mod_eq_of_lt h'] at e; omega
          · rw [Nat.mod_eq_sub_mod h', Nat.mod_eq_of_lt (by omega)] at e; omega
        rw [Memory.read_write_ne _ _ hne, List.getElem?_tail, List.getElem?_eq_getElem (by omega)]
        congr 1
        simp only [Channel.window, if_neg hc]
        rw [Memory.getElem_readSeq, Nat.add_comm 1 i]
      · have hi' : i = hcap - 1 := by omega
        have : (c.wp + (1 + i)) % hcap = c.wp := by
          rw [hi', show c.wp + (1 + (hcap - 1)) = c.wp + hcap by omega, Nat.add_mod_right, Nat.mod_eq_of_lt hwp]
        rw [this, if_neg h, Memory.read_write_self, hi', Nat.sub_self]
        rfl
  · rw [List.getElem?_eq_none (by omega), List.getElem?_eq_none]
    rw [hlenL] at hi
    by_cases hc : c.cnt < hcap
    · simp only [if_pos hc] at hi ⊢
      simp [hc]; omega
    · simp only [if_neg hc] at hi ⊢
      simp [hc]; omega

/-- DRIVE does not look at the sequencer phase. -/
theorem driveChannel_phase (p : Params) (ch : Nat) (ok : Bool) (r : Report) (c : Channel) (ph : Phase) :
    driveChannel p ch ok r { c with phase := ph } = { driveChannel p ch ok r c with phase := ph } := by
  cases r with
  | noChange => rfl
  | stable v =>
    cases v with
    | hold => rfl
    | retract => cases h : writeFails p ok <;> simp only [driveChannel, assertLines, h] <;> rfl
    | extend =>
      by_cases hl : c.lines = p.extendCfg
      · simp only [driveChannel, if_pos hl, if_pos (show ({ c with phase := ph } : Channel).lines = p.extendCfg from hl)]
      · simp only [driveChannel, if_neg hl, if_neg (show ¬ ({ c with phase := ph } : Channel).lines = p.extendCfg from hl)]
        cases h : writeFails p ok <;> simp only [assertLines, h] <;> rfl

/-- The stages after MEASURE, without the phases in between (R136). -/
theorem afterMeasure_eq (p : Params) (ch : Nat) (ok : Bool) (cfg : ChanConfig) (c : Channel) :
    afterMeasure p ch ok cfg c =
      { driveChannel p ch ok
          (debounceChannel cfg (position p cfg c.meas) (decodeChannel p cfg c.meas c)).rpt
          (debounceChannel cfg (position p cfg c.meas) (decodeChannel p cfg c.meas c)) with phase := .idle } := by
  have := driveChannel_phase p ch ok
    (debounceChannel cfg (position p cfg c.meas) (decodeChannel p cfg c.meas c)).rpt
    (debounceChannel cfg (position p cfg c.meas) (decodeChannel p cfg c.meas c)) .drive
  have h2 : afterMeasure p ch ok cfg c = { driveChannel p ch ok
      (debounceChannel cfg (position p cfg c.meas) (decodeChannel p cfg c.meas c)).rpt
      { (debounceChannel cfg (position p cfg c.meas) (decodeChannel p cfg c.meas c)) with phase := .drive }
      with phase := .idle } := rfl
  rw [h2, this]

/-- A poll, without the phases in between (R136). -/
theorem pollChannel_eq (p : Params) (ch : Nat) (ok : Bool) (cfg : ChanConfig) (rs : List Capture) (c : Channel) :
    pollChannel p ch ok cfg rs c =
      { driveChannel p ch ok
          (debounceChannel cfg (position p cfg (measureChannel p cfg rs c).meas)
            (decodeChannel p cfg (measureChannel p cfg rs c).meas (measureChannel p cfg rs c))).rpt
          (debounceChannel cfg (position p cfg (measureChannel p cfg rs c).meas)
            (decodeChannel p cfg (measureChannel p cfg rs c).meas (measureChannel p cfg rs c)))
        with phase := .idle } := by
  have hm : measureChannel p cfg rs { c with phase := .measure } =
      { measureChannel p cfg rs c with phase := .measure } := by
    rcases captures_split rs with ⟨ts, h⟩ | ⟨ts, rest, h⟩
    · rw [h, measureChannel_durations, measureChannel_durations]
    · rw [h, measureChannel_timeout, measureChannel_timeout]
  unfold pollChannel
  rw [hm, afterMeasure_eq]
  have := driveChannel_phase p ch ok
    (debounceChannel cfg (position p cfg (measureChannel p cfg rs c).meas)
      (decodeChannel p cfg (measureChannel p cfg rs c).meas (measureChannel p cfg rs c))).rpt
    (debounceChannel cfg (position p cfg (measureChannel p cfg rs c).meas)
      (decodeChannel p cfg (measureChannel p cfg rs c).meas (measureChannel p cfg rs c))) .measure
  have h2 : debounceChannel cfg (position p cfg (measureChannel p cfg rs c).meas)
      (decodeChannel p cfg (measureChannel p cfg rs c).meas { measureChannel p cfg rs c with phase := .measure }) =
    { debounceChannel cfg (position p cfg (measureChannel p cfg rs c).meas)
      (decodeChannel p cfg (measureChannel p cfg rs c).meas (measureChannel p cfg rs c)) with phase := .measure } := rfl
  simp only [h2, this]

/-- What DRIVE writes (R112, R124): never the configuration, the lifecycle, the history, the enable line or a
latch. -/
theorem driveChannel_frame (p : Params) (ch : Nat) (ok : Bool) (r : Report) (c : Channel) :
    driveChannel p ch ok r c = { c with
      lastCmd := (driveChannel p ch ok r c).lastCmd, dirA := (driveChannel p ch ok r c).dirA
      dirB := (driveChannel p ch ok r c).dirB, drvState := (driveChannel p ch ok r c).drvState
      extTimer := (driveChannel p ch ok r c).extTimer, wrFault := (driveChannel p ch ok r c).wrFault
      pinA := (driveChannel p ch ok r c).pinA, pinB := (driveChannel p ch ok r c).pinB
      free := (driveChannel p ch ok r c).free } := by
  cases r with
  | noChange => rfl
  | stable v =>
    cases v with
    | hold => rfl
    | retract => cases h : writeFails p ok <;> simp only [driveChannel, assertLines, h] <;> rfl
    | extend =>
      by_cases hl : c.lines = p.extendCfg
      · simp only [driveChannel, if_pos hl]
      · simp only [driveChannel, if_neg hl]
        cases h : writeFails p ok <;> simp only [assertLines, h] <;> rfl

/-- What a TICK writes while the extend configuration is asserted (R118, R124). -/
theorem tickExtended_frame (p : Params) (ch : Nat) (ok : Bool) (limit : Nat) (c : Channel) :
    tickExtended p ch ok limit c = { c with
      dirA := (tickExtended p ch ok limit c).dirA, dirB := (tickExtended p ch ok limit c).dirB
      drvState := (tickExtended p ch ok limit c).drvState, extTimer := (tickExtended p ch ok limit c).extTimer
      wrFault := (tickExtended p ch ok limit c).wrFault, pinA := (tickExtended p ch ok limit c).pinA
      pinB := (tickExtended p ch ok limit c).pinB, free := (tickExtended p ch ok limit c).free } := by
  unfold tickExtended
  by_cases h1 : limit ≤ c.extTimer + 1
  · rw [if_pos h1]; cases h : writeFails p ok <;> rfl
  · rw [if_neg h1]

/-- A poll, in what its stages computed: the measurement, its command pushed, the report of the test, and the
driver on it (R136). -/
theorem pollChannel_stages (p : Params) (ch : Nat) (ok : Bool) (f : ChanConfig) (rs : List Capture) (c : Channel) :
    ∃ a k m b, measureChannel p f rs c = { c with acc := a, k := k, meas := m, nosig := b } ∧
    pollChannel p ch ok f rs c =
      { driveChannel p ch ok (stableTest f.hcap (pushCmd f.hcap (position p f m) c))
          { pushCmd f.hcap (position p f m) c with
            acc := a, k := k, meas := m, nosig := b, cmd := position p f m
            rpt := stableTest f.hcap (pushCmd f.hcap (position p f m) c) } with phase := .idle } := by
  obtain ⟨a, k, m, b, h⟩ := measureChannel_frame p f rs c
  refine ⟨a, k, m, b, h, ?_⟩
  rw [pollChannel_eq, h]
  rfl

end Sys2Proof.Machine
end

