-- ==== Sys2Proof/Machine/Trace.lean ====
section
/-!
DEFINITION. The trace syntax of operations and results (`30_encoding.md` R71), as text (log entry 19).
-/

namespace Sys2Proof.Machine

/-- `R`, `H`, `E` stand for RETRACT, HOLD, EXTEND. -/
def traceCmd : Cmd → String
  | .retract => "R"
  | .hold => "H"
  | .extend => "E"

/-- A rational as a whole number or a fraction. -/
def traceRat (q : ℚ) : String :=
  let num := if q.num < 0 then "-" ++ toString q.num.natAbs else toString q.num.natAbs
  if q.den = 1 then num else num ++ "/" ++ toString q.den

/-- "each r is a natural (ticks) or `to`". -/
def traceCapture : Capture → String
  | .dur t => toString t
  | .timeout => "to"

/-- "result printed as <q> | nosig". -/
def traceMeas : Meas → String
  | .duty q => traceRat q
  | .noSignal => "nosig"

/-- "result -> nochange | stable R|H|E". -/
def traceReport : Report → String
  | .noChange => "nochange"
  | .stable c => "stable " ++ traceCmd c

/-- The fields of an `init` line. -/
def traceCfg (c : ChanConfig) : String :=
  "FREQ=" ++ traceRat c.freq ++ " DMAX=" ++ traceRat c.dmax ++ " DMIN=" ++ traceRat c.dmin ++
  " TOL=" ++ traceRat c.tol ++ " NSAMP=" ++ toString c.nsamp ++ " HCAP=" ++ toString c.hcap ++
  " TRAVEL=" ++ toString c.travelNum ++ "/" ++ toString c.travelDen ++ " STROKE=" ++ toString c.strokeTicks ++
  " PINS=" ++ toString c.inPin ++ "," ++ toString c.enPin ++ "," ++ toString c.dirAPin ++ "," ++
  toString c.dirBPin

/-- The results of a list, each after a space. -/
def traceCaptures (rs : List Capture) : String := rs.foldl (fun line r => line ++ " " ++ traceCapture r) ""

/-- The line of an operation without its channel; `value` says what the operand of DECODE stands for
(`measOf`). -/
def traceOp (value : MeasArg → Meas) : Instr → String
  | .nop _ => "nop"
  | .reset _ => "reset"
  | .init _ cfg => "init " ++ traceCfg cfg
  | .poll _ rs => "poll" ++ traceCaptures rs
  | .tick _ => "tick"
  | .measure _ rs => "measure" ++ traceCaptures rs
  | .decode _ m => "decode " ++ traceMeas (value m)
  | .debounce _ c => "debounce " ++ traceCmd c
  | .drive _ r wrOk => "drive " ++ traceReport r ++ if wrOk then "" else " fail"

/-- A trace line: prefixed `ch<n>:` unless the channel is 0. -/
def traceLine (value : MeasArg → Meas) (i : Instr) : String :=
  (if i.channel = 0 then "" else "ch" ++ toString i.channel.toNat ++ ": ") ++ traceOp value i

/-- A trace line with the verdict of the pin-access layer: "a `poll` or `tick` line may be followed by `ok` or
`fail`", "default `ok`" (R63). -/
def traceWithVerdict (value : MeasArg → Meas) (i : Instr) (ok : Bool) : String :=
  match i with
  | .poll _ _ | .tick _ => traceLine value i ++ if ok then "" else " fail"
  | _ => traceLine value i

end Sys2Proof.Machine
end

