-- ==== Sys2Proof/Tests/Slice0.lean ====
section
/-!
SUPPORT. Tests of single steps, with expected results taken from `95_test_vectors.md` and the worked examples of the
rules, and a witness for the hypotheses of every statement that has some.
-/

namespace Sys2Proof.Tests
open Sys2Proof Sys2Proof.Machine

-- One test after another: each kernel evaluation that waits in parallel holds a thread and its stack.
set_option Elab.async false

/-! ### The named configurations and states of `95_test_vectors.md` section 0 -/

def cfgT : ChanConfig where
  inPin := 17
  enPin := 22
  dirAPin := 23
  dirBPin := 24
  freq := 50
  dmax := 14
  dmin := 7
  tol := 20
  nsamp := 2
  hcap := 5
  travelNum := 3
  travelDen := 4
  strokeTicks := 8

def cfgBad : ChanConfig := { cfgT with dmax := 7, dmin := 14 }

/-- The parameters of section 0. -/
def par : Params := Params.default

/-- `HAS_WR_STATUS = true` (section 2.10). -/
def parWr : Params := { Params.default with hasWrStatus := true }

/-- A device of one channel. -/
def dev (c : Channel) : State := { State.reset with channels := [c] }

/-- The same with the write-status option and the verdict `ok`. -/
def devWr (ok : Bool) (c : Channel) : State := { dev c with params := parWr, wrOk := ok }

/-- The channel of state `S1`. -/
def chT : Channel := { Channel.reset with cfg := some cfgT, chState := .run }

/-- A channel with the given full history of `CFG_T` (cell 0 first), cursor and last delivered command. -/
def chFull (h : List (Nat × Cmd)) (wp : Nat) (last : LastCmd) : Channel :=
  { chT with h := h, cnt := 5, wp := wp, lastCmd := last }

def five (v : Cmd) : List (Nat × Cmd) := [(0, v), (1, v), (2, v), (3, v), (4, v)]

/-- The channel after P1 and `tick t`: extended, timer `t`. -/
def chE (t : Nat) : Channel :=
  { chFull (five .extend) 0 (.cmd .extend) with
    dirA := .low, dirB := .high, pinA := .low, pinB := .high, drvState := .extending, extTimer := t }

/-- The channel after an expiry: released, `last_cmd = EXTEND`. -/
def chS : Channel :=
  { chFull (five .extend) 0 (.cmd .extend) with
    dirA := .low, dirB := .low, pinA := .low, pinB := .low, drvState := .holding }

/-- Four EXTENDs in the window, nothing delivered. -/
def ch4E : Channel :=
  { chT with h := [(0, .extend), (1, .extend), (2, .extend), (3, .extend)], cnt := 4, wp := 4 }

/-- The channel after V-IN-3. -/
def chF : Channel := { Channel.reset with cfg := some cfgBad, chState := .cfgFault, cfgCause := { cOrder := true } }

/-- What an operation leaves of channel 0, seen through `f`. -/
def after (r : Host.Outcome State Fault Refusal) {α : Type} (f : Channel → α) : Option α :=
  match r with
  | .next t => (t.channel? 0).map f
  | .fault _ => none
  | .refused _ => none

/-- The state an operation leaves, if it answers one. -/
def nextOf (r : Host.Outcome State Fault Refusal) : Option State :=
  match r with
  | .next t => some t
  | .fault _ => none
  | .refused _ => none

/-- The `V` columns of sections 2.4 and 2.5: line vector, timer, last command, driver state. -/
def view (c : Channel) : Nat × Nat × LastCmd × DrvState :=
  (lineVector c.en c.dirA c.dirB, c.extTimer, c.lastCmd, c.drvState)

/-! ### WellFormed refuses -/

theorem test_wellformed_accepts :
    (Instr.init 0 cfgT).wellFormed par 1 = true ∧ (Instr.poll 0 [.dur 2800, .timeout]).wellFormed par 1 = true ∧
    (Instr.drive 0 (.stable .retract) false).wellFormed parWr 1 = true := by decide +kernel

theorem test_wellformed_channel : (Instr.nop 1).wellFormed par 1 = false := by decide

theorem test_wellformed_verdict : (Instr.drive 0 .noChange false).wellFormed par 1 = false := by decide

theorem test_wellformed_duration :
    (Instr.poll 0 [.dur (2 ^ 32)]).wellFormed par 1 = false ∧
    (Instr.measure 0 [.timeout, .dur (2 ^ 32)]).wellFormed par 1 = false := by decide

theorem test_wellformed_sum : (Instr.decode 0 (.acc (2 ^ 40))).wellFormed par 1 = false := by decide

theorem test_wellformed_bare_rational : (Instr.decode 0 (.duty 14)).wellFormed par 1 = false := by decide

theorem test_wellformed_pins :
    (Instr.init 0 { cfgT with inPin := 256 }).wellFormed par 1 = false ∧
    (Instr.init 0 { cfgT with enPin := 256 }).wellFormed par 1 = false ∧
    (Instr.init 0 { cfgT with dirAPin := 256 }).wellFormed par 1 = false ∧
    (Instr.init 0 { cfgT with dirBPin := 256 }).wellFormed par 1 = false := by decide +kernel

theorem test_wellformed_images :
    (Instr.init 0 { cfgT with freq := 1 / 3 }).wellFormed par 1 = false ∧
    (Instr.init 0 { cfgT with freq := -1 }).wellFormed par 1 = false ∧
    (Instr.init 0 { cfgT with freq := 4294968 }).wellFormed par 1 = false ∧
    (Instr.init 0 { cfgT with dmax := 656 }).wellFormed par 1 = false ∧
    (Instr.init 0 { cfgT with dmin := 1 / 1000 }).wellFormed par 1 = false ∧
    (Instr.init 0 { cfgT with tol := -1 }).wellFormed par 1 = false := by decide +kernel

theorem test_wellformed_counts :
    (Instr.init 0 { cfgT with nsamp := 256 }).wellFormed par 1 = false ∧
    (Instr.init 0 { cfgT with hcap := 256 }).wellFormed par 1 = false ∧
    (Instr.init 0 { cfgT with travelNum := 65536 }).wellFormed par 1 = false ∧
    (Instr.init 0 { cfgT with travelDen := 65536 }).wellFormed par 1 = false ∧
    (Instr.init 0 { cfgT with strokeTicks := 2 ^ 32 }).wellFormed par 1 = false := by decide +kernel

/-! ### Words, from section 2.8 and section 0 -/

theorem test_word_nop : decode 32 ⟨0x00, []⟩ = .ok (.nop 0) := by decide
theorem test_word_reset : decode 32 ⟨0x01, []⟩ = .ok (.reset 0) := by decide
theorem test_word_init : decode 32 ⟨0x02, [0x11, 0x16, 0x17, 0x18, 0x0000C350, 0x0578, 0x02BC, 0x07D0, 0x02, 0x05,
    0x0003, 0x0004, 0x00000008]⟩ = .ok (.init 0 cfgT) := by decide +kernel
theorem test_word_poll :
    decode 32 ⟨0x03, [0x0_00000AF0, 0x1_00000000]⟩ = .ok (.poll 0 [.dur 2800, .timeout]) := by decide
theorem test_word_tick : decode 32 ⟨0x14, []⟩ = .ok (.tick 1) := by decide
theorem test_word_measure :
    decode 32 ⟨0x05, [0x0_00000AE6, 0x0_00000AD2]⟩ = .ok (.measure 0 [.dur 2790, .dur 2770]) := by decide
theorem test_word_decode :
    decode 32 ⟨0x06, [0x00_000015E0]⟩ = .ok (.decode 0 (.acc 5600)) ∧
    decode 32 ⟨0x06, [0x100_00000000]⟩ = .ok (.decode 0 .noSignal) := by decide
theorem test_word_debounce :
    decode 32 ⟨0x07, [0b00]⟩ = .ok (.debounce 0 .retract) ∧ decode 32 ⟨0x07, [0b01]⟩ = .ok (.debounce 0 .hold) ∧
    decode 32 ⟨0x07, [0b10]⟩ = .ok (.debounce 0 .extend) := by decide
theorem test_word_drive :
    decode 32 ⟨0x08, [0b1000]⟩ = .ok (.drive 0 .noChange true) ∧
    decode 32 ⟨0x08, [0b1100]⟩ = .ok (.drive 0 (.stable .retract) true) ∧
    decode 32 ⟨0x08, [0b1101]⟩ = .ok (.drive 0 (.stable .hold) true) ∧
    decode 32 ⟨0x08, [0b1110]⟩ = .ok (.drive 0 (.stable .extend) true) := by decide

/-- V-EN-14 to V-EN-19. -/
theorem test_words_refused :
    (dev chT).decodeWord ⟨0x09, []⟩ = .error (.reservedOp 9) ∧
    (dev chT).decodeWord ⟨0x0F, []⟩ = .error (.reservedOp 15) ∧
    (dev chT).decodeWord ⟨0x14, []⟩ = .error (.channelIndex 1) ∧
    (dev chT).decodeWord ⟨0x07, [0b11]⟩ = .error .reservedCmd ∧
    (dev chT).decodeWord ⟨0x08, [0b1001]⟩ = .error (.reservedReport 1) ∧
    (dev chT).decodeWord ⟨0x08, [0b1111]⟩ = .error (.reservedReport 7) ∧
    (dev chT).decodeWord ⟨0x08, [0b0100]⟩ = .error .writeVerdict ∧
    (dev chT).decodeWord ⟨0x03, [0x0_00000AF0]⟩ = .error (.shortSampleList 1) := by decide

/-- The table's rows, as words whose operands are zero: TICK, and DEBOUNCE of `0b00`. -/
theorem test_table_words :
    decodeTableWord 8 0x04 = some (.tick 0) ∧ decodeTableWord 8 0x07 = some (.debounce 0 .retract) := by decide

/-- A word placed as the next operation is performed: RESET in the end state of P1 (V-LC-6). -/
theorem test_step_performs_word :
    after (step ((dev (chE 3)).withFetchWord 8 0x01)) (fun c => (view c, c.chState, c.cnt)) =
      some ((0b110, 0, .none, .safeDefault), .uninit, 0) := by decide

/-- The words of P1 line 7 and of a refused operation, presented and performed. -/
theorem test_step_presented_poll :
    after (step ((dev ch4E).present { word := ⟨0x03, [0x0_00000AE6, 0x0_00000AD2]⟩ })) view =
      some (0b101, 0, .cmd .extend, .extending) ∧
    nextOf (step ((dev ch4E).present { word := ⟨0x0B, []⟩ })) = some (dev ch4E) := by decide +kernel

/-! ### One step of each operation -/

/-- V-LC-1. -/
theorem test_nop : nextOf (exec (.nop 0) (dev (chE 3))) = some (dev (chE 3)) := by decide +kernel

/-- V-LC-6. -/
theorem test_reset : nextOf (exec (.reset 0) (dev (chE 0))) = some (dev Channel.reset) := by decide +kernel

/-- V-IN-13, and the second INIT of section 2.6. -/
theorem test_init_records_every_failure :
    after (exec (.init 0 { cfgT with freq := 0, hcap := 0, dmin := 14 }) (dev Channel.reset))
      (fun c => (c.chState, causeImage c.cfgCause, lineVector c.en c.dirA c.dirB)) =
        some (.cfgFault, 0x023, 0b110) ∧
    nextOf (exec (.init 0 cfgBad) (dev chT)) = some (dev chT) := by decide +kernel

/-- V-IN-1 to V-IN-17: `CAUSE` for each check. -/
theorem test_init_causes :
    causeImage (cfgChecks par cfgT) = 0x000 ∧
    causeImage (cfgChecks par { cfgT with freq := 0 }) = 0x001 ∧
    causeImage (cfgChecks par cfgBad) = 0x002 ∧
    causeImage (cfgChecks par { cfgT with dmin := 14 }) = 0x002 ∧
    causeImage (cfgChecks par { cfgT with dmax := 101 }) = 0x004 ∧
    causeImage (cfgChecks par { cfgT with tol := 50 }) = 0x008 ∧
    causeImage (cfgChecks par { cfgT with nsamp := 0 }) = 0x010 ∧
    causeImage (cfgChecks par { cfgT with hcap := 0 }) = 0x020 ∧
    causeImage (cfgChecks par { cfgT with strokeTicks := 1 }) = 0x080 ∧
    causeImage (cfgChecks par { cfgT with travelNum := 5 }) = 0x040 ∧
    causeImage (cfgChecks par { cfgT with travelNum := 0 }) = 0x0C0 ∧
    causeImage (cfgChecks par { cfgT with dirBPin := 23 }) = 0x100 ∧
    causeImage (cfgChecks par { cfgT with tol := 0 }) = 0x000 ∧
    causeImage (cfgChecks par { cfgT with dmax := 100, dmin := 0 }) = 0x000 ∧
    causeImage (cfgChecks par { cfgT with travelNum := 4 }) = 0x000 ∧
    causeImage (cfgChecks { par with tickHz := 2 ^ 40 } { cfgT with freq := 1 }) = 0x200 := by decide +kernel

/-- The worked example of R136: the fifth EXTEND. -/
theorem test_poll_fifth_extend :
    after (exec (.poll 0 [.dur 2790, .dur 2770]) (dev ch4E))
      (fun c => (view c, c.cnt, c.wp, c.cmd, c.rpt)) =
      some ((0b101, 0, .cmd .extend, .extending), 5, 0, .extend, .stable .extend) := by decide +kernel

/-- P4 line 1: a lost signal during an extension. -/
theorem test_poll_no_signal :
    after (exec (.poll 0 [.dur 2800, .timeout]) (dev (chE 2)))
      (fun c => (view c, c.nosig, c.window 5)) =
      some ((0b101, 2, .cmd .extend, .extending), true, [.extend, .extend, .extend, .extend, .hold]) := by
  decide +kernel

/-- V-TI-5 and V-TI-6. -/
theorem test_tick_counts_and_releases :
    after (exec (.tick 0) (dev (chE 4))) view = some (0b101, 5, .cmd .extend, .extending) ∧
    after (exec (.tick 0) (dev (chE 5))) view = some (0b100, 0, .cmd .extend, .holding) := by decide

/-- V-WR-3 and V-WR-4. -/
theorem test_tick_failed_release :
    after (exec (.tick 0) (devWr false (chE 5))) (fun c => (view c, c.wrFault)) =
      some ((0b101, 6, .cmd .extend, .extending), true) ∧
    after (exec (.tick 0) (devWr true { chE 6 with wrFault := true })) (fun c => (view c, c.wrFault)) =
      some ((0b100, 0, .cmd .extend, .holding), false) := by decide

/-- V-ME-2, V-ME-8 and the `NSAMP = 3` example. -/
theorem test_measure_mean :
    after (exec (.measure 0 [.dur 2780, .dur 2800]) (dev chT)) (fun c => (c.meas, c.nosig)) =
      some (.duty (279 / 20), false) ∧
    after (exec (.measure 0 [.dur 25000, .dur 20000]) (dev chT)) (·.meas) = some (.duty (225 / 2)) ∧
    after (exec (.measure 0 [.dur 2800, .dur 2800, .dur 2810])
      (dev { chT with cfg := some { cfgT with nsamp := 3 } })) (·.meas) = some (.duty (841 / 60)) := by
  decide +kernel

/-- V-ME-10: a good first sample is discarded. -/
theorem test_measure_timeout :
    after (exec (.measure 0 [.dur 2800, .timeout]) (dev chT)) (fun c => (c.meas, c.nosig, c.acc)) =
      some (.noSignal, true, 2800) := by decide +kernel

/-- V-DE-4 to V-DE-13. -/
theorem test_decode_boundaries :
    position par cfgT (.duty (126 / 10)) = .extend ∧ position par cfgT (.duty (1259 / 100)) = .hold ∧
    position par cfgT (.duty (84 / 10)) = .retract ∧ position par cfgT (.duty (841 / 100)) = .hold ∧
    position par cfgT (.duty 0) = .retract ∧ position par cfgT (.duty 100) = .extend ∧
    position par cfgT (.duty (10001 / 100)) = .hold ∧ position par cfgT (.duty (-1)) = .hold ∧
    position { par with oorPolicy := .saturate } cfgT (.duty (10001 / 100)) = .extend ∧
    position { par with oorPolicy := .saturate } cfgT (.duty (-1)) = .retract ∧
    position par cfgT .noSignal = .hold := by decide +kernel

/-- The integer form of section 2.2, through the operation. -/
theorem test_decode_sums :
    (after (exec (.decode 0 (.acc 5040)) (dev chT)) (·.cmd) = some .extend) ∧
    (after (exec (.decode 0 (.acc 5039)) (dev chT)) (·.cmd) = some .hold) ∧
    (after (exec (.decode 0 (.acc 3360)) (dev chT)) (·.cmd) = some .retract) ∧
    (after (exec (.decode 0 (.acc 3361)) (dev chT)) (·.cmd) = some .hold) ∧
    (after (exec (.decode 0 (.acc 40000)) (dev chT)) (·.cmd) = some .extend) ∧
    (after (exec (.decode 0 (.acc 40001)) (dev chT)) (·.cmd) = some .hold) := by decide +kernel

/-- V-DB-5 (the cells turned so that the window is `[E, R, R, R, R]`) and V-DB-10. -/
theorem test_debounce_reports :
    after (exec (.debounce 0 .retract)
      (dev (chFull [(0, .retract), (1, .retract), (2, .extend), (3, .retract), (4, .retract)] 2 (.cmd .extend))))
      (fun c => (c.rpt, c.wp, c.window 5)) =
      some (.stable .retract, 3, [.retract, .retract, .retract, .retract, .retract]) ∧
    after (exec (.debounce 0 .extend) (dev (chFull (five .extend) 0 .none))) (·.rpt) =
      some (.stable .extend) := by decide +kernel

/-- L1-3a line 5 and V-DB-6 line 6: full and not uniform; the cursor wraps. -/
theorem test_debounce_holds_back :
    after (exec (.debounce 0 .extend)
      (dev { chT with h := [(0, .retract), (1, .retract), (2, .retract), (3, .retract)], cnt := 4, wp := 4 }))
      (fun c => (c.rpt, c.cnt, c.wp)) = some (.noChange, 5, 0) ∧
    after (exec (.debounce 0 .retract)
      (dev (chFull [(0, .retract), (1, .retract), (2, .retract), (3, .retract), (4, .extend)] 0 .none)))
      (fun c => (c.rpt, c.wp, c.window 5)) =
      some (.noChange, 1, [.retract, .retract, .retract, .extend, .retract]) := by decide +kernel

/-- V-DR-8, V-DR-6 and V-DR-7. -/
theorem test_drive_during_extension :
    after (exec (.drive 0 (.stable .extend) true)
      (dev { chE 4 with lastCmd := .cmd .hold, drvState := .holding })) view =
      some (0b101, 4, .cmd .extend, .extending) ∧
    after (exec (.drive 0 (.stable .hold) true) (dev (chE 3))) view = some (0b101, 3, .cmd .hold, .holding) ∧
    after (exec (.drive 0 (.stable .retract) true) (dev (chE 3))) view =
      some (0b110, 0, .cmd .retract, .retracting) := by decide +kernel

/-- V-WR-1 and V-WR-5. -/
theorem test_drive_failed_write :
    after (exec (.drive 0 (.stable .extend) false) (devWr true chT)) (fun c => (view c, c.wrFault)) =
      some ((0b110, 0, .none, .safeDefault), true) ∧
    after (exec (.drive 0 (.stable .hold) false) (devWr true (chE 3))) (fun c => (view c, c.wrFault)) =
      some ((0b101, 3, .cmd .hold, .holding), false) := by decide +kernel

/-! ### Registers, the capture unit and the trace -/

/-- `STATUS` of `S0`, `S1`, P1 and P5, `LINES`, `TIMER`, `CAUSE`, and `HIST` of the cursor wrap. -/
theorem test_registers :
    (dev Channel.reset).readRegister 0 0x10 0 = some 0x030 ∧ (dev chT).readRegister 0 0x10 0 = some 0x031 ∧
    (dev (chE 0)).readRegister 0 0x10 0 = some 0x0A5 ∧ (dev chF).readRegister 0 0x10 0 = some 0x032 ∧
    (dev Channel.reset).readRegister 0 0x13 0 = some 0x06 ∧ (dev (chE 3)).readRegister 0 0x14 0 = some 3 ∧
    (dev chF).readRegister 0 0x11 0 = some 0x002 ∧
    (dev { chE 0 with wp := 2 }).readRegister 0 0x12 0 = some 0x0205 := by decide

/-- `LIMIT`, a history cell, two configuration registers and a reserved number, in the end state of P1. -/
theorem test_registers_configuration :
    (dev (chE 0)).readRegister 0 0x15 0 = some 6 ∧ (dev (chE 0)).readRegister 0 0x24 0 = some 2 ∧
    (dev (chE 0)).readRegister 0 0x04 0 = some 0xC350 ∧ (dev (chE 0)).readRegister 0 0x05 0 = some 0x0578 ∧
    (dev (chE 0)).readRegister 0 0x25 0 = some 0 ∧ (dev (chE 0)).readRegister 0 0x16 0 = some 0 := by decide +kernel

/-- V-CU-4, V-CU-9 and V-CU-5, with `W = floor(P) = 20`. -/
theorem test_capture :
    capture 20 20 (fun n => if n % 20 ≤ 2 then .high else .low) 1 = (.dur 3, 23) ∧
    capture 20 20 (fun n => if 10 ≤ n % 40 ∧ n % 40 ≤ 15 then .high else .low) 16 = (.timeout, 36) ∧
    capture 20 20 (fun _ => .high) 0 = (.timeout, 20) := by decide

/-- `init` and `poll` lines of R71. -/
theorem test_trace :
    traceLine (measOf par cfgT) (.init 0 cfgT) =
      "init FREQ=50 DMAX=14 DMIN=7 TOL=20 NSAMP=2 HCAP=5 TRAVEL=3/4 STROKE=8 PINS=17,22,23,24" ∧
    traceWithVerdict (measOf par cfgT) (.poll 1 [.dur 2800, .timeout]) false = "ch1: poll 2800 to fail" := by
  decide +kernel

/-! ### States that meet the invariant -/

theorem cfgT_valid : Valid par cfgT := by decide +kernel

theorem par_wf : par.wf ∧ parWr.wf := by decide

theorem cells_five (v : Cmd) (i : Nat) : (Memory.read? (five v) i).isSome = true ↔ i < 5 := by
  match i with
  | 0 | 1 | 2 | 3 | 4 => simp [five, Memory.read?]
  | n + 5 => simp [five, Memory.read?]

theorem chT_inv : ChannelInv par chT where
  enHigh := by decide
  linesLegal := by decide
  extendedCommanded := by decide
  notRunning := by decide
  cfgWritten := by simp [chT]
  runValid := by intro _ f h; cases h; exact cfgT_valid
  faultCaused := by decide
  cntBounded := by intro f _; exact Nat.zero_le _
  cursorAtCount := by intro f _ _; rfl
  cursorInRange := by intro _ f h; cases h; decide
  historyCanonical := by decide
  cellsWritten := by intro i; show (none : Option Cmd).isSome = true ↔ i < 0; simp
  timerStopped := by decide
  timerBounded := by intro _ h; exact absurd h (by decide)
  writesGood := by decide
  phaseIdle := rfl

/-- The extended channel, at both ends of the timer's range. -/
theorem chE_inv (t : Nat) (h : t < 6) : ChannelInv par (chE t) where
  enHigh := ⟨rfl, rfl⟩
  linesLegal := .inr (.inl rfl)
  extendedCommanded := by intro _; simp [chE, chFull]
  notRunning := by intro x; exact absurd rfl x
  cfgWritten := by simp [chE, chFull, chT]
  runValid := by intro _ f h; cases h; exact cfgT_valid
  faultCaused := by simp [chE, chFull, chT, Channel.reset]
  cntBounded := by intro f h; cases h; exact Nat.le_refl _
  cursorAtCount := by intro f h x; cases h; exact absurd x (Nat.lt_irrefl 5)
  cursorInRange := by intro _ f h; cases h; exact Nat.zero_lt_succ _
  historyCanonical := by show Memory.wf (five .extend); decide
  cellsWritten := cells_five .extend
  timerStopped := by intro x; exact absurd rfl x
  timerBounded := by intro _ _ f hf; cases hf; exact h
  writesGood := by intro _; exact ⟨rfl, rfl, rfl⟩
  phaseIdle := rfl

theorem chReset_inv : ChannelInv par Channel.reset where
  enHigh := by decide
  linesLegal := by decide
  extendedCommanded := by decide
  notRunning := by decide
  cfgWritten := by simp [Channel.reset]
  runValid := by intro h; cases h
  faultCaused := by decide
  cntBounded := by intro f h; cases h
  cursorAtCount := by intro f h; cases h
  cursorInRange := by intro h; cases h
  historyCanonical := by decide
  cellsWritten := by intro i; show (none : Option Cmd).isSome = true ↔ i < 0; simp
  timerStopped := by decide
  timerBounded := by intro _ h; exact absurd h (by decide)
  writesGood := by decide
  phaseIdle := rfl

theorem chF_inv : ChannelInv par chF where
  enHigh := by decide
  linesLegal := by decide
  extendedCommanded := by decide
  notRunning := by decide
  cfgWritten := by simp [chF]
  runValid := by intro h; cases h
  faultCaused := by decide
  cntBounded := by intro f _; exact Nat.zero_le _
  cursorAtCount := by intro f _ _; rfl
  cursorInRange := by intro h; cases h
  historyCanonical := by decide
  cellsWritten := by intro i; show (none : Option Cmd).isSome = true ↔ i < 0; simp
  timerStopped := by decide
  timerBounded := by intro _ h; exact absurd h (by decide)
  writesGood := by decide
  phaseIdle := rfl

/-- Four EXTENDs in the window, on a device with the write-status option. -/
theorem ch4E_inv : ChannelInv parWr ch4E where
  enHigh := by decide
  linesLegal := by decide
  extendedCommanded := by decide
  notRunning := by decide
  cfgWritten := by simp [ch4E, chT]
  runValid := by intro _ f h; cases h; decide +kernel
  faultCaused := by decide
  cntBounded := by intro f h; cases h; decide
  cursorAtCount := by intro f _ _; rfl
  cursorInRange := by intro _ f h; cases h; decide
  historyCanonical := by decide
  cellsWritten := by
    intro i
    match i with
    | 0 | 1 | 2 | 3 => simp [ch4E, Memory.read?]
    | n + 4 => simp [ch4E, Memory.read?]
  timerStopped := by decide
  timerBounded := by intro h; cases h
  writesGood := by intro h; cases h
  phaseIdle := rfl

theorem dev_inv {c : Channel} (h : ChannelInv par c) : (dev c).Inv :=
  ⟨par_wf.1, by show 1 ≤ 16; decide, by intro d hd; rw [List.mem_singleton.mp hd]; exact h⟩

/-! ### Witnesses: a state and operands that meet a statement's hypotheses -/

theorem witness_StepPerformsTheNextOperation :
    ((dev chT).present { word := ⟨0x04, []⟩ }).pending = [{ word := ⟨0x04, []⟩ }] ∧
    (nextOf (step ((dev chT).present { word := ⟨0x04, []⟩ }))).isSome = true ∧ (dev chT).pending = [] := by
  decide +kernel

theorem witness_EncodedOperationIsPerformed :
    (Instr.poll 0 [.dur (2 ^ 32 - 1), .timeout]).wellFormed (dev chT).params (dev chT).nch = true ∧
    (dev chT).channel? 0 = some chT ∧ chT.cfg = some cfgT ∧
    cfgT.nsamp ≤ [Capture.dur (2 ^ 32 - 1), .timeout].length := by decide +kernel

theorem witness_DecodeOfEncodeIsTheOperation :
    (Instr.init 15 { cfgT with freq := 4294967295 / 1000, dmax := 65535 / 100, nsamp := 255, hcap := 255 }).encodable 32
      = true ∧
    (Instr.measure 0 [.dur (2 ^ 32 - 1), .timeout]).encodable 32 = true ∧
    (Instr.decode 3 (.acc (2 ^ 40 - 1))).encodable 32 = true := by decide +kernel

theorem witness_HeaderNamesTheOperation :
    decode 32 ⟨0xF5, [0x0_00000AE6, 0x1_00000000]⟩ = .ok (.measure 15 [.dur 2790, .timeout]) := by decide

/-- One word for each ground of R65. -/
theorem witness_RefusedWordChangesNoState :
    RefusedWord (dev chT) ⟨0x09, []⟩ ∧ RefusedWord (dev chT) ⟨0x10, []⟩ ∧ RefusedWord (dev chT) ⟨0x07, [3]⟩ ∧
    RefusedWord (dev chT) ⟨0x08, [9]⟩ ∧ RefusedWord (dev chT) ⟨0x08, [15]⟩ ∧ RefusedWord (dev chT) ⟨0x08, [4]⟩ ∧
    RefusedWord (dev chT) ⟨0x05, [0]⟩ :=
  ⟨.inl (by decide), .inr (.inl (by decide)), .inr (.inr (.inl ⟨by decide, 3, rfl, by decide⟩)),
    .inr (.inr (.inr (.inl ⟨by decide, 9, rfl, by decide⟩))),
    .inr (.inr (.inr (.inl ⟨by decide, 15, rfl, by decide⟩))),
    .inr (.inr (.inr (.inr (.inl ⟨by decide, rfl, 4, rfl, by decide⟩)))),
    .inr (.inr (.inr (.inr (.inr ⟨by decide, chT, cfgT, rfl, rfl, by decide⟩))))⟩

theorem witness_WordIsTakenUnlessRefused :
    (nextOf (step ((dev chT).present { word := ⟨0x05, [0, 0]⟩ }))).isSome = true ∧
    RightLength ⟨0x05, [0, 0]⟩ ∧ ¬ RightLength ⟨0x06, []⟩ := by
  refine ⟨by decide +kernel, ?_, ?_⟩ <;> simp [RightLength]

theorem witness_AbsentChannelChangesNothing : (dev chT).nch ≤ (Instr.reset 1).channel.toNat := by decide

/-- Extended, in `CFG_FAULT`, and with pins that a failed write left apart from the lines. -/
theorem witness_ResetGivesTheDocumentedValues :
    let apart := { chT with pinA := .low, pinB := .high, wrFault := true }
    (dev (chE 3)).channel? 0 = some (chE 3) ∧ (dev chF).channel? 0 = some chF ∧
    (devWr true apart).channel? 0 = some apart ∧ apart.pinA ≠ apart.dirA := ⟨rfl, rfl, rfl, by decide⟩

theorem witness_LifecycleGuardIgnores :
    (dev chT).channel? 0 = some chT ∧ chT.chState ≠ .uninit ∧ (dev chF).channel? 0 = some chF ∧
    ChannelInv (dev chF).params chF ∧ (dev chF).params.wf ∧ chF.chState ≠ .run :=
  ⟨rfl, by decide, rfl, chF_inv, par_wf.1, by decide⟩

theorem witness_InitChecksTheConfiguration :
    (dev Channel.reset).channel? 0 = some Channel.reset ∧ Channel.reset.chState = .uninit ∧
    (dev chT).channel? 0 = some chT ∧ chT.chState ≠ .uninit := ⟨rfl, rfl, rfl, by decide⟩

theorem witness_ConfigurationFaultIsLeftOnlyByReset :
    (dev Channel.reset).params.wf ∧ (dev Channel.reset).channel? 0 = some Channel.reset ∧
    ChannelInv (dev Channel.reset).params Channel.reset ∧ Channel.reset.chState = .uninit ∧ ¬ Valid par cfgBad ∧
    (dev chF).channel? 0 = some chF ∧ ChannelInv (dev chF).params chF ∧ chF.chState = .cfgFault :=
  ⟨par_wf.1, rfl, chReset_inv, rfl, by decide +kernel, rfl, chF_inv, rfl⟩

theorem witness_ResetThenInitRuns :
    (dev chF).channel? 0 = some chF ∧ Valid (dev chF).params cfgT ∧ (dev (chE 3)).channel? 0 = some (chE 3) :=
  ⟨rfl, cfgT_valid, rfl⟩

/-- The hypotheses of `DebouncePushesOntoTheWindow`, `DebounceReportsExactlyWhenStable` and `DebouncePushesAndTests`,
with an empty window and with a full one. -/
theorem witness_running :
    (dev chT).channel? 0 = some chT ∧ ChannelInv (dev chT).params chT ∧ chT.chState = .run ∧ chT.cfg = some cfgT ∧
    (dev (chE 5)).channel? 0 = some (chE 5) ∧ ChannelInv (dev (chE 5)).params (chE 5) ∧ (chE 5).chState = .run ∧
    (chE 5).cfg = some cfgT :=
  ⟨rfl, chT_inv, rfl, rfl, rfl, chE_inv 5 (by decide), rfl, rfl⟩

theorem witness_MeasureSumsUntilTimeout :
    (dev chT).channel? 0 = some chT ∧ chT.chState = .run ∧ chT.cfg = some cfgT ∧
    [2800, 2800].length = cfgT.nsamp ∧ ([] : List Nat).length + 1 + [Capture.dur 2800].length = cfgT.nsamp ∧
    [2800].length + 1 + ([] : List Capture).length = cfgT.nsamp := ⟨rfl, rfl, rfl, rfl, rfl, rfl⟩

theorem witness_MeasureIsTheMeanDutyCycle :
    (dev chT).channel? 0 = some chT ∧ chT.chState = .run ∧ chT.cfg = some cfgT ∧ [2780, 2800].length = cfgT.nsamp :=
  ⟨rfl, rfl, rfl, rfl⟩

theorem witness_CapturesBeyondNsampAreNotLookedAt :
    (dev chT).channel? 0 = some chT ∧ chT.cfg = some cfgT ∧ cfgT.nsamp ≤ [Capture.dur 1, .dur 2].length :=
  ⟨rfl, rfl, by decide⟩

/-- The clauses at their boundaries: 12.6, just below it, 8.4, just above it, and beyond 100. -/
theorem witness_DecodeComparesWithTheThresholds :
    (dev chT).channel? 0 = some chT ∧ chT.chState = .run ∧ chT.cfg = some cfgT ∧ par.oorPolicy = .hold ∧
    thExt cfgT = 126 / 10 ∧ thRet cfgT = 84 / 10 ∧ (10001 / 100 : ℚ) > 100 ∧
    dutyOf par cfgT 5040 = thExt cfgT ∧ dutyOf par cfgT 3360 = thRet cfgT ∧
    thRet cfgT < dutyOf par cfgT 3361 ∧ dutyOf par cfgT 5039 < thExt cfgT := by
  refine ⟨rfl, rfl, rfl, rfl, ?_⟩
  decide +kernel

theorem witness_DecodeByCrossMultiplication :
    (dev chT).channel? 0 = some chT ∧ chT.chState = .run ∧ chT.cfg = some cfgT ∧ Valid (dev chT).params cfgT ∧
    0 < (dev chT).params.tickHz := ⟨rfl, rfl, rfl, cfgT_valid, by decide⟩

theorem witness_DecodeBoundariesAndMonotonicity :
    Valid par cfgT ∧ thRet cfgT < 9 ∧ 9 < thExt cfgT ∧ (0 : ℚ) ≤ 0 ∧ (0 : ℚ) ≤ 100 ∧ (100 : ℚ) ≤ 100 :=
  ⟨cfgT_valid, by decide +kernel⟩

theorem witness_NoStableReportBeforeTheWindowIsFull :
    (dev chT).channel? 0 = some chT ∧ chT.chState = .run ∧ chT.cfg = some cfgT ∧
    chT.cnt + [Cmd.extend, .extend, .hold, .extend].length < cfgT.hcap := ⟨rfl, rfl, rfl, by decide⟩

theorem witness_DebounceReportsExactlyWhenStable :
    (dev { chT with cfg := some { cfgT with hcap := 1 } }).channel? 0 = some { chT with cfg := some { cfgT with hcap := 1 } } ∧
    LastCmd.cmd .extend ≠ chT.lastCmd ∧
    after (exec (.debounce 0 .extend) (dev { chT with cfg := some { cfgT with hcap := 1 } })) (·.rpt) =
      some (.stable .extend) := ⟨rfl, by decide, by decide +kernel⟩

theorem witness_HcapAgreeingCommandsAreReported :
    (dev (chE 5)).channel? 0 = some (chE 5) ∧ ChannelInv (dev (chE 5)).params (chE 5) ∧ (chE 5).chState = .run ∧
    (chE 5).cfg = some cfgT ∧ LastCmd.cmd .retract ≠ (chE 5).lastCmd :=
  ⟨rfl, chE_inv 5 (by decide), rfl, rfl, by decide⟩

theorem witness_DriveActsOnTheReport :
    (dev chT).channel? 0 = some chT ∧ chT.chState = .run ∧ (dev chT).params.hasWrStatus = false ∧
    chT.lines ≠ (dev chT).params.extendCfg ∧ (dev (chE 3)).channel? 0 = some (chE 3) ∧ (chE 3).chState = .run ∧
    (chE 3).lines = (dev (chE 3)).params.extendCfg := ⟨rfl, rfl, rfl, by decide, rfl, rfl, rfl⟩

theorem witness_DriveReportsWriteStatus :
    (devWr false chT).channel? 0 = some chT ∧ chT.chState = .run ∧ (devWr false chT).params.hasWrStatus = true ∧
    chT.lines ≠ (devWr false chT).params.extendCfg ∧ (devWr false (chE 3)).channel? 0 = some (chE 3) ∧
    (chE 3).lines = (devWr false (chE 3)).params.extendCfg := ⟨rfl, rfl, rfl, by decide, rfl, rfl⟩

/-- `EXT_LIMIT = 6`: one tick before the limit, and the tick that reaches it. -/
theorem witness_TickCountsAndReleases :
    (dev chT).channel? 0 = some chT ∧ (dev chT).params.hasWrStatus = false ∧
    chT.lines ≠ (dev chT).params.extendCfg ∧ (dev (chE 4)).channel? 0 = some (chE 4) ∧
    (chE 4).lines = (dev (chE 4)).params.extendCfg ∧ (chE 4).cfg = some cfgT ∧
    (chE 4).extTimer + 1 < extLimit cfgT ∧ (chE 5).extTimer + 1 ≥ extLimit cfgT :=
  ⟨rfl, rfl, by decide, rfl, rfl, rfl, by decide, by decide⟩

theorem witness_TickReportsWriteStatus :
    (devWr false (chE 5)).channel? 0 = some (chE 5) ∧ (devWr false (chE 5)).params.hasWrStatus = true ∧
    (chE 5).lines = (devWr false (chE 5)).params.extendCfg ∧ (chE 5).cfg = some cfgT ∧
    (chE 4).extTimer + 1 < extLimit cfgT ∧ (chE 5).extTimer + 1 ≥ extLimit cfgT ∧
    (devWr false (chE 5)).wrOk = false ∧ (devWr true (chE 5)).wrOk = true ∧
    chS.lines ≠ (devWr true chS).params.extendCfg :=
  ⟨rfl, rfl, rfl, rfl, by decide, by decide, rfl, rfl, by decide⟩

theorem witness_ExtensionLastsExactlyTheLimit :
    (dev (chE 0)).channel? 0 = some (chE 0) ∧ (dev (chE 0)).params.hasWrStatus = false ∧ (chE 0).cfg = some cfgT ∧
    (chE 0).lines = (dev (chE 0)).params.extendCfg ∧ (chE 0).extTimer + 5 < extLimit cfgT ∧
    (chE 5).extTimer < extLimit cfgT := ⟨rfl, rfl, rfl, rfl, by decide, by decide⟩

/-- `EXT_LIMIT = 6`: the sixth and seventh ticks report a failed release, the eighth a good one; and no failed one. -/
theorem witness_FailedReleaseIsRetriedOnEveryTick :
    let ok := fun k => k == 2
    (devWr false (chE 5)).channel? 0 = some (chE 5) ∧ (devWr false (chE 5)).params.hasWrStatus = true ∧
    (chE 5).cfg = some cfgT ∧ (chE 5).lines = (devWr false (chE 5)).params.extendCfg ∧
    (chE 5).extTimer + 1 ≥ extLimit cfgT ∧ (∀ k, k < 2 → ok k = false) ∧ ok 2 = true ∧
    (∀ k, k < 0 → (fun _ => true) k = false) := by
  refine ⟨rfl, rfl, rfl, rfl, by decide, by decide, rfl, ?_⟩
  intro k h; exact absurd h (Nat.not_lt_zero k)

/-- V-WR-3 and V-WR-4 as `tick 2` with a verdict for each tick: a failed release, then a good retry. -/
theorem test_tickTimes_verdicts :
    after (tickTimes 0 (fun k => k == 1) 1 (devWr true (chE 5))) (fun c => (view c, c.wrFault)) =
      some ((0b101, 6, .cmd .extend, .extending), true) ∧
    after (tickTimes 0 (fun k => k == 1) 2 (devWr true (chE 5))) (fun c => (view c, c.wrFault)) =
      some ((0b100, 0, .cmd .extend, .holding), false) := by decide

/-- A released channel with `HCAP = 1`: a poll that holds, then one that extends, extends again. -/
theorem witness_ReextensionNeedsAnotherCommand :
    let c := { chS with cfg := some { cfgT with hcap := 1 }, h := [(0, .extend)], cnt := 1 }
    let ops := [Instr.poll 0 [.dur 2100, .dur 2100], .tick 0, .poll 0 [.dur 2800, .dur 2800]]
    (dev c).channel? 0 = some c ∧ c.lastCmd = .cmd .extend ∧ c.lines ≠ (dev c).params.extendCfg ∧
    (∀ i ∈ ops, i = .tick 0 ∨ ∃ rs, i = .poll 0 rs) ∧
    after (execAll ops (dev c)) (·.lines) = some par.extendCfg := by
  refine ⟨rfl, rfl, by decide, ?_, by decide +kernel⟩
  simp

theorem witness_RoundTripEndsRetracted :
    (dev chT).channel? 0 = some chT ∧ chT.chState = .run ∧ (dev chT).params.hasWrStatus = false := ⟨rfl, rfl, rfl⟩

/-- The hypotheses of `PollIsItsFourStages`, `PollFrame`, `NoSignalPollKeepsTheLines` and `PollAbbreviationsAgree`. -/
theorem witness_PollStatements :
    (dev (chE 2)).channel? 0 = some (chE 2) ∧ ChannelInv (dev (chE 2)).params (chE 2) ∧ (chE 2).chState = .run ∧
    (chE 2).cfg = some cfgT ∧ [Capture.dur 2800, .timeout].length = cfgT.nsamp ∧
    Capture.timeout ∈ [Capture.dur 2800, .timeout].take cfgT.nsamp :=
  ⟨rfl, chE_inv 2 (by decide), rfl, rfl, rfl, by decide⟩

/-- The fifth EXTEND, with its write reported failed (V-WR-1 through the pipeline). -/
theorem witness_FailedWriteIsRetriedByTheNextPoll :
    (devWr false ch4E).channel? 0 = some ch4E ∧ ChannelInv (devWr false ch4E).params ch4E ∧ ch4E.chState = .run ∧
    ch4E.cfg = some cfgT ∧ cfgT.nsamp ≤ [Capture.dur 2790, .dur 2770].length ∧
    (devWr false ch4E).params.hasWrStatus = true ∧ (devWr false ch4E).wrOk = false ∧
    after (exec (.poll 0 [.dur 2790, .dur 2770]) (devWr false ch4E)) (fun c => (c.rpt, c.wrFault)) =
      some (.stable .extend, true) ∧
    ch4E.lines ≠ (devWr false ch4E).params.extendCfg ∧
    cfgT.nsamp ≤ [Capture.dur 2520, .dur 2520].length ∧
    after (exec (.poll 0 [.dur 2790, .dur 2770]) (devWr false ch4E))
      (fun c => position parWr cfgT (measureChannel parWr cfgT [.dur 2520, .dur 2520] c).meas) = some .extend :=
  ⟨rfl, ch4E_inv, rfl, rfl, by decide, rfl, rfl, by decide +kernel, by decide, by decide, by decide +kernel⟩

/-- V-WR-2 with other captures than the poll whose write failed, at the threshold: the retried write succeeds. -/
theorem test_poll_retries_the_write :
    ((nextOf (exec (.poll 0 [.dur 2790, .dur 2770]) (devWr false ch4E))).bind fun t =>
      after (exec (.poll 0 [.dur 2520, .dur 2520]) { t with wrOk := true }) fun c => (view c, c.wrFault)) =
      some ((0b101, 0, .cmd .extend, .extending), false) := by decide +kernel

/-- Four polls and a tick before the fifth poll. -/
theorem witness_NoActuationBeforeHcapPolls :
    let ops := [Instr.poll 0 [.dur 2800, .dur 2800], .tick 0, .poll 0 [], .poll 0 [.timeout, .timeout], .poll 0 []]
    (dev chT).Inv ∧ (dev chT).channel? 0 = some chT ∧ chT.cfg = some cfgT ∧ chT.cnt = 0 ∧ chT.lastCmd = .none ∧
    (∀ i ∈ ops, i = .tick 0 ∨ ∃ rs, i = .poll 0 rs) ∧
    (ops.filter (fun i => i != .tick 0)).length < cfgT.hcap := by
  refine ⟨dev_inv chT_inv, rfl, rfl, rfl, rfl, ?_, by decide +kernel⟩
  simp

/-- L1-8, with the captures of P1 and one poll more: fewer than `HCAP` polls, `HCAP`, and more. -/
theorem witness_HcapExtendPollsExtendOnce :
    let tss := [[2780, 2780], [2800, 2800], [2760, 2760], [2800, 2800], [2790, 2770], [2780, 2780]]
    (dev chT).Inv ∧ (dev chT).channel? 0 = some chT ∧ chT.chState = .run ∧ chT.cfg = some cfgT ∧ chT.cnt = 0 ∧
    chT.lastCmd = .none ∧ (dev chT).params.hasWrStatus = false ∧ (tss.take 4).length < cfgT.hcap ∧
    (tss.take 5).length = cfgT.hcap ∧ cfgT.hcap < tss.length ∧
    ∀ us ∈ tss, us.length = cfgT.nsamp ∧ thExt cfgT ≤ dutyOf par cfgT us.sum ∧ dutyOf par cfgT us.sum ≤ 100 :=
  ⟨dev_inv chT_inv, rfl, rfl, rfl, rfl, rfl, rfl, by decide, rfl, by decide, by decide +kernel⟩

theorem witness_InvHoldsAfterReset : par.wf ∧ 16 ≤ 16 := ⟨par_wf.1, by decide⟩

theorem witness_StepKeepsTheInvariant :
    ((dev (chE 5)).present { word := ⟨0x04, []⟩ }).Inv ∧
    after (step ((dev (chE 5)).present { word := ⟨0x04, []⟩ })) view = some (0b100, 0, .cmd .extend, .holding) :=
  ⟨dev_inv (chE_inv 5 (by decide)), by decide⟩

theorem witness_ReachableDeviceNeverStops :
    par.wf ∧ Run (State.resetOf par 2) ((State.resetOf par 2).present { word := ⟨0x0B, []⟩ }) :=
  ⟨par_wf.1, .present _ _ _ (.start _)⟩

/-- Two devices that agree on channel 0 only. -/
theorem witness_ChannelsShareNoState :
    let two := { dev (chE 5) with channels := [chE 5, chF] }
    after (exec (.tick 0) (dev (chE 5))) view = some (0b100, 0, .cmd .extend, .holding) ∧
    (dev (chE 5)).params = two.params ∧ (dev (chE 5)).wrOk = two.wrOk ∧
    (dev (chE 5)).channel? 0 = two.channel? 0 ∧ (dev (chE 5)).channel? 1 ≠ two.channel? 1 :=
  ⟨by decide, rfl, rfl, rfl, by decide⟩

theorem witness_OperationsOnDifferentChannelsCommute :
    (Instr.tick 0).channel ≠ (Instr.debounce 15 .hold).channel := by decide

theorem witness_EachElementHasItsWriters :
    (nextOf (exec (.tick 0) (dev (chE 5)))).isSome = true ∧ (dev (chE 5)).channel? 0 = some (chE 5) ∧
    Instr.tick 0 ≠ .reset 0 ∧ after (exec (.tick 0) (dev (chE 5))) (·.extTimer) = some 0 := by
  refine ⟨by decide, rfl, by decide, by decide⟩

theorem witness_TimeBaseTicksEveryChannel : (dev (chE 5)).Inv ∧ (dev (chE 5)).channel? 0 = some (chE 5) :=
  ⟨dev_inv (chE_inv 5 (by decide)), rfl⟩

/-- A device of two channels, the second in `CFG_FAULT`. -/
def dev2 : State := { State.resetOf par 2 with channels := [chE 5, chF] }

theorem dev2_inv : dev2.Inv :=
  ⟨par_wf.1, by show 2 ≤ 16; decide, by
    intro c hc
    rcases List.mem_pair.mp hc with rfl | rfl
    · exact chE_inv 5 (by decide)
    · exact chF_inv⟩

/-- Startup takes an extended channel to `RUN`, and one in `CFG_FAULT` there again if its configuration is still bad. -/
theorem witness_StartupInitializesEveryChannel :
    dev2.nch ≤ 16 ∧ (dev2.channel? 0).isSome = true ∧ (dev2.channel? 1).isSome = true ∧
    (nextOf (startup (fun ch => if ch = 0 then cfgT else cfgBad) dev2)).map (·.channels.map (·.chState)) =
      some [.run, .cfgFault] := by decide +kernel

theorem witness_PollRoundPollsEveryChannel :
    dev2.Inv ∧ dev2.channel? 0 = some (chE 5) ∧ dev2.channel? 1 = some chF ∧ chF.chState ≠ .run :=
  ⟨dev2_inv, rfl, rfl, by decide⟩

/-- Two channels in one round, each with its own verdict: the one extends, the other records `F_WRITE`. -/
theorem test_pollRound_verdicts :
    (nextOf (pollRound (fun _ => [.dur 2790, .dur 2770]) (fun ch => ch == 0)
      { State.resetOf parWr 2 with channels := [ch4E, ch4E] })).map (·.channels.map fun c => (view c, c.wrFault)) =
      some [((0b101, 0, .cmd .extend, .extending), false), ((0b110, 0, .none, .safeDefault), true)] := by decide +kernel

/-- R135, R141: the host's first operations on two channels. -/
theorem test_hostIssue :
    (List.range 6).map (hostIssue 2 (fun _ => cfgT) [.timeout, .timeout]) =
      [.reset 0, .reset 1, .init 0 cfgT, .init 1 cfgT, .poll 0 [.timeout, .timeout],
        .poll 1 [.timeout, .timeout]] := by decide +kernel

/-- The host presents any number of its operations. -/
theorem hostRun_issued (n : Nat) : ∃ t, HostRun (fun _ => cfgT) (State.resetOf par 1) n t ∧ t.nch = 1 ∧ t.params = par ∧
    t.channel? 0 = some Channel.reset := by
  induction n with
  | zero => exact ⟨_, .start, rfl, rfl, rfl⟩
  | succ n ih =>
    obtain ⟨t, h, hn, hp, hc⟩ := ih
    refine ⟨_, .issue n t [.timeout, .timeout] true h rfl ?_, hn, hp, hc⟩
    rw [hn, hp]
    unfold hostIssue
    split
    · rfl
    · split
      · show cfgT.encodable = true; decide +kernel
      · rfl

theorem witness_HostRunNeverStops :
    par.wf ∧ 1 ≤ 16 ∧ ∃ t, HostRun (fun _ => cfgT) (State.resetOf par 1) 9 t := by
  obtain ⟨t, h, -⟩ := hostRun_issued 9
  exact ⟨par_wf.1, by decide, t, h⟩

/-- At the boundary: everything before the `HCAP`-th POLL has been presented. -/
theorem witness_HostRunStaysAtSafeDefaultBeforeTheHcapthPoll :
    par.wf ∧ 1 ≤ 16 ∧ 6 ≤ (cfgT.hcap + 1) * 1 + (0 : ChIndex).toNat ∧
    ∃ t, HostRun (fun _ => cfgT) (State.resetOf par 1) 6 t ∧ t.channel? 0 = some Channel.reset := by
  obtain ⟨t, h, -, -, hc⟩ := hostRun_issued 6
  exact ⟨par_wf.1, by decide, by decide, t, h, hc⟩

theorem witness_StatusRegistersShowTheState :
    (dev (chE 5)).channel? 0 = some (chE 5) ∧ (chE 5).cfg = some cfgT ∧ cfgT.travelDen ≠ 0 ∧ 4 < cfgT.hcap ∧
    0x20 + 4 < 2 ^ 8 ∧ (chE 5).h.read? 4 = some .extend := ⟨rfl, rfl, by decide, by decide, by decide, rfl⟩

theorem witness_ReservedRegistersReadZero :
    (dev (chE 5)).channel? 0 = some (chE 5) ∧ 0x0C < (0x0D#8).toNat ∧ (0x0F#8).toNat < 0x10 ∧
    0x15 < (0x16#8).toNat ∧ (0x1F#8).toNat < 0x20 ∧ (chE 5).cfg = some cfgT ∧ 0x20 + cfgT.hcap ≤ (0x25#8).toNat := by
  refine ⟨rfl, by decide, by decide, by decide, by decide, rfl, by decide⟩

theorem witness_CauseRegisterShowsTheChecks : (dev chF).channel? 0 = some chF := rfl

theorem witness_ConfigurationRegistersReadBack :
    (dev Channel.reset).channel? 0 = some Channel.reset ∧ Channel.reset.chState = .uninit ∧ cfgT.encodable = true ∧
    (nextOf (exec (.init 0 cfgT) (dev Channel.reset))).isSome = true ∧
    ((encode 32 (.init 0 cfgT)).operands)[0]? = some 0x11 ∧ ((encode 32 (.init 0 cfgT)).operands)[12]? = some 8 := by
  refine ⟨rfl, rfl, ?_⟩
  decide +kernel

theorem witness_LineMeasurementIsInRange :
    Valid { par with tickHz := 1000 } cfgT ∧
    (measureLine { par with tickHz := 1000 } cfgT (fun n => if 5 ≤ n % 20 ∧ n % 20 ≤ 7 then .high else .low) 0 chT).1.meas
      = .duty 15 := by decide +kernel

end Sys2Proof.Tests
end

section
/-!
The channels of a device do not interfere (R8): an operation writes its own channel only, and what it makes of it
depends on that channel, the parameters and the verdict of the pin-access layer only.
-/

namespace Sys2Proof.Machine

/-- On a channel the device does not have, an operation changes nothing (R65). -/
theorem exec_none {i : Instr} {s : State} (h : s.channel? i.channel = none) : exec i s = .next s := by
  rw [exec_eq_onChannel, State.onChannel_none h]

/-- The frame of an operation: it leaves every channel but its own as it was (R8). -/
theorem exec_channel?_ne {i : Instr} {s t : State} {j : ChIndex} (h : exec i s = .next t) (hj : j ≠ i.channel) :
    t.channel? j = s.channel? j := by
  rcases exec_eq_next h with ⟨-, rfl⟩ | ⟨c, c', -, -, rfl⟩
  · rfl
  · exact State.channel?_setChannel_ne s c' hj

/-- Two devices that agree on the parameters, the verdict and the operation's own channel agree on what the operation
makes of that channel, whatever their other channels hold (R8). -/
theorem exec_channel?_congr {i : Instr} {s₁ s₂ t₁ : State} (hp : s₁.params = s₂.params) (hw : s₁.wrOk = s₂.wrOk)
    (hch : s₁.channel? i.channel = s₂.channel? i.channel) (h : exec i s₁ = .next t₁) :
    ∃ t₂, exec i s₂ = .next t₂ ∧ t₁.channel? i.channel = t₂.channel? i.channel := by
  rcases exec_eq_next h with ⟨hnone, rfl⟩ | ⟨c, c', hc₁, heff, rfl⟩
  · exact ⟨s₂, exec_none (hch ▸ hnone), hch⟩
  · have hc₂ : s₂.channel? i.channel = some c := hch ▸ hc₁
    rw [hp, hw] at heff
    exact ⟨s₂.setChannel i.channel c', exec_next hc₂ heff,
      (State.channel?_setChannel_self hc₁ c').trans (State.channel?_setChannel_self hc₂ c').symm⟩

/-- Settles O44: every operation is its `channelEffect` on its own channel, from which both the frame and the
agreement of two devices follow. -/
theorem channelsShareNoState : Obligations.ChannelsShareNoState := by
  refine ⟨fun i s t h => ?_, fun i s₁ s₂ t₁ hp hw hch h => exec_channel?_congr hp hw hch h⟩
  obtain ⟨hparams, hpending, hwrOk, hnch⟩ := exec_keeps h
  exact ⟨hparams, hpending, hwrOk, hnch, fun j hj => exec_channel?_ne h hj⟩

end Sys2Proof.Machine
end

section
/-!
Every step keeps the invariant of the device. Each update of a channel keeps the clauses it does not write; the lemmas
below say why it keeps those it does write, and the operations are put together from them.
-/

namespace Sys2Proof.Machine

/-! ### The updates of a channel -/

section
variable {p : Params} {c : Channel} {f : ChanConfig}

theorem Valid.hcap_pos (h : Valid p f) : 0 < f.hcap := by
  obtain ⟨-, -, -, -, -, -, -, hcap, -⟩ := h.bounds
  exact hcap

theorem Valid.extLimit_pos (h : Valid p f) : 0 < extLimit f := by
  obtain ⟨-, -, -, -, -, -, -, -, -, -, -, -, hlim⟩ := h.bounds
  exact hlim

/-- A channel that does not run is retracted, which is not extended (R6, R23). -/
theorem ChannelInv.not_extended_of_not_run (hp : p.wf) (h : ChannelInv p c) (hr : c.chState ≠ .run) :
    c.lines ≠ p.extendCfg := by
  obtain ⟨-, -, hne, -⟩ := hp
  obtain ⟨-, -, -, hl, -⟩ := h.notRunning hr
  exact hl ▸ hne

/-- RESET (R170, R171). -/
theorem channelInv_resetChannel (hp : p.wf) (c : Channel) : ChannelInv p (resetChannel c) := by
  obtain ⟨-, hsafe, hne, -⟩ := hp
  have hl : (resetChannel c).lines = p.retractCfg := hsafe.symm
  have hx : (resetChannel c).lines ≠ p.extendCfg := hl ▸ hne
  exact {
    enHigh := ⟨rfl, rfl⟩
    linesLegal := .inl hl
    extendedCommanded := fun e => absurd e hx
    notRunning := fun _ => ⟨rfl, rfl, rfl, hl, rfl, rfl⟩
    cfgWritten := iff_of_true rfl rfl
    runValid := nofun
    faultCaused := iff_of_false nofun (fun e => e rfl)
    cntBounded := nofun
    cursorAtCount := nofun
    cursorInRange := nofun
    historyCanonical := Memory.reset_wf
    cellsWritten := fun i => by simp [resetChannel, Channel.reset]
    timerStopped := fun _ => rfl
    timerBounded := fun _ e => absurd e hx
    writesGood := fun _ => ⟨rfl, rfl, rfl⟩
    phaseIdle := rfl }

/-- INIT (R132): the history of an uninitialized channel is empty, so it suits any capacity, and the lifecycle state
is chosen by the failed checks. -/
theorem ChannelInv.initChannel (hp : p.wf) (h : ChannelInv p c) (f : ChanConfig) :
    ChannelInv p (initChannel p f c) := by
  cases hs : c.chState with
  | run => simpa only [Machine.initChannel, hs] using h
  | cfgFault => simpa only [Machine.initChannel, hs] using h
  | uninit =>
    have hr : c.chState ≠ .run := by simp [hs]
    obtain ⟨hcnt, hwp, hrest⟩ := h.notRunning hr
    have hx := h.not_extended_of_not_run hp hr
    by_cases hv : cfgChecks p f = .empty
    · have hpos : 0 < f.hcap := Valid.hcap_pos hv
      simp only [Machine.initChannel, hs, if_pos hv]
      exact { h with
        notRunning := fun e => absurd rfl e
        cfgWritten := iff_of_false nofun nofun
        runValid := fun _ g e => by cases e; exact hv
        faultCaused := iff_of_false nofun (fun e => e hv)
        cntBounded := fun g e => hcnt ▸ Nat.zero_le _
        cursorAtCount := fun g _ _ => hwp.trans hcnt.symm
        cursorInRange := fun _ g e => by cases e; exact hwp ▸ hpos
        timerBounded := fun _ e => absurd e hx }
    · simp only [Machine.initChannel, hs, if_neg hv, Channel.raise]
      exact { h with
        notRunning := fun _ => ⟨hcnt, hwp, hrest⟩
        cfgWritten := iff_of_false nofun nofun
        runValid := nofun
        faultCaused := iff_of_true rfl hv
        cntBounded := fun g e => hcnt ▸ Nat.zero_le _
        cursorAtCount := fun g _ _ => hwp.trans hcnt.symm
        cursorInRange := nofun
        timerBounded := fun _ e => absurd e hx }

/-- The latches and `nosig` stand in no clause (R25, R29). -/
theorem ChannelInv.latches (h : ChannelInv p c) (a k : Nat) (m : Meas) (v : Cmd) (r : Report) (b : Bool) :
    ChannelInv p { c with acc := a, k := k, meas := m, cmd := v, rpt := r, nosig := b } := { h with }

/-- The push (R101, R102): below capacity the cursor stands at `cnt`, so the written cell is the next one; at
capacity it is one that had a value. -/
theorem ChannelInv.pushCmd (h : ChannelInv p c) (hr : c.chState = .run) (hf : c.cfg = some f) (v : Cmd) :
    ChannelInv p (pushCmd f.hcap v c) := by
  have hle := h.cntBounded f hf
  have hcur := h.cursorAtCount f hf
  have hwp := h.cursorInRange hr f hf
  exact { h with
    notRunning := fun e => absurd hr e
    cntBounded := fun g e => by
      obtain rfl : f = g := Option.some.inj (hf.symm.trans e)
      rw [Channel.push_cnt]; split <;> omega
    cursorAtCount := fun g e hlt => by
      obtain rfl : f = g := Option.some.inj (hf.symm.trans e)
      rw [Channel.push_cnt] at hlt ⊢
      have hold : c.cnt < f.hcap := by split at hlt <;> omega
      rw [if_pos hold] at hlt ⊢
      rw [Channel.push_wp, hcur hold, Nat.mod_eq_of_lt hlt]
    cursorInRange := fun _ g e => by
      obtain rfl : f = g := Option.some.inj (hf.symm.trans e)
      exact Nat.mod_lt _ (by omega)
    historyCanonical := Memory.write_wf _ _ _ h.historyCanonical
    cellsWritten := fun i => by
      have hold := h.cellsWritten i
      rw [Channel.push_h, Memory.read?_write, Channel.push_cnt]
      by_cases hi : i = c.wp
      · simp only [if_pos hi, Option.isSome_some, true_iff]
        split <;> omega
      · rw [if_neg hi, hold]
        split <;> omega }

/-- A command delivered without a write of the lines (R113, R116). -/
theorem ChannelInv.deliver (h : ChannelInv p c) (hr : c.chState = .run) (v : Cmd) (d : DrvState) :
    ChannelInv p { c with lastCmd := .cmd v, drvState := d } :=
  { h with
    extendedCommanded := fun _ => nofun
    notRunning := fun e => absurd hr e }

/-- A good write of a legal line configuration that starts the timer from 0 (R115, R116, R118): `EXT_LIMIT` of a
running channel is positive. -/
theorem ChannelInv.goodWrite (h : ChannelInv p c) (hr : c.chState = .run) {l : LineCfg} {last : LastCmd} (d : DrvState)
    (hl : l = p.retractCfg ∨ l = p.extendCfg ∨ l = p.stopCfg) (hlast : l = p.extendCfg → last ≠ .none) :
    ChannelInv p { c.goodWrite p l with extTimer := 0, lastCmd := last, drvState := d } :=
  { h with
    linesLegal := hl
    extendedCommanded := hlast
    notRunning := fun e => absurd hr e
    timerStopped := fun _ => rfl
    timerBounded := fun _ _ g e => (h.runValid hr g e).extLimit_pos
    writesGood := fun e => ⟨by simp [(h.writesGood e).1], rfl, rfl⟩ }

/-- A failed write (R124): only with `HAS_WR_STATUS`, where no clause speaks of `wr_fault` or of the pins. -/
theorem ChannelInv.failedWrite (h : ChannelInv p c) (hw : p.hasWrStatus = true) (ch : Nat) (l : LineCfg) :
    ChannelInv p (c.failedWrite p ch l) :=
  { h with writesGood := fun e => absurd hw (by simp [e]) }

/-- The timer of an extended channel (R21). -/
theorem ChannelInv.countTick (hp : p.wf) (h : ChannelInv p c) (hx : c.lines = p.extendCfg) {t : Nat}
    (ht : p.hasWrStatus = false → ∀ g, c.cfg = some g → t < extLimit g) :
    ChannelInv p { c with extTimer := t } :=
  { h with
    notRunning := fun hr => absurd hx (h.not_extended_of_not_run hp hr)
    timerStopped := fun e => absurd hx e
    timerBounded := fun e _ => ht e }

/-! ### The stages and the tick -/

theorem writeFails_hasWrStatus {ok : Bool} (hw : writeFails p ok = true) : p.hasWrStatus = true :=
  (Bool.and_eq_true_iff.mp hw).1

/-- MEASURE (R76) writes latches only. -/
theorem ChannelInv.measureChannel (h : ChannelInv p c) (f : ChanConfig) (rs : List Capture) :
    ChannelInv p (measureChannel p f rs c) := by
  obtain ⟨a, k, m, b, e⟩ := measureChannel_frame p f rs c
  exact e ▸ h.latches a k m c.cmd c.rpt b

/-- DECODE (R91) writes a latch only. -/
theorem ChannelInv.decodeChannel (h : ChannelInv p c) (f : ChanConfig) (m : Meas) :
    ChannelInv p (decodeChannel p f m c) :=
  h.latches c.acc c.k c.meas (position p f m) c.rpt c.nosig

/-- DEBOUNCE (R101): the push, and the latch of the report. -/
theorem ChannelInv.debounceChannel (h : ChannelInv p c) (hr : c.chState = .run) (hf : c.cfg = some f) (v : Cmd) :
    ChannelInv p (debounceChannel f v c) :=
  (h.pushCmd hr hf v).latches c.acc c.k c.meas c.cmd _ c.nosig

/-- A command that writes the lines (R115, R116, R124). -/
theorem ChannelInv.assertLines (h : ChannelInv p c) (hr : c.chState = .run) (ch : Nat) (ok : Bool) {l : LineCfg}
    (v : Cmd) (d : DrvState) (hl : l = p.retractCfg ∨ l = p.extendCfg ∨ l = p.stopCfg) :
    ChannelInv p (assertLines p ch ok l v d c) := by
  unfold Machine.assertLines
  split
  next hw => exact h.failedWrite (writeFails_hasWrStatus hw) ch l
  next => exact h.goodWrite hr d hl (fun _ => nofun)

/-- DRIVE (R112 to R116). -/
theorem ChannelInv.driveChannel (h : ChannelInv p c) (hr : c.chState = .run) (ch : Nat) (ok : Bool) (r : Report) :
    ChannelInv p (driveChannel p ch ok r c) := by
  match r with
  | .noChange => exact h
  | .stable .hold => exact h.deliver hr _ _
  | .stable .retract => exact h.assertLines hr ch ok _ _ (.inl rfl)
  | .stable .extend =>
    simp only [Machine.driveChannel]
    split
    · exact h.deliver hr _ _
    · exact h.assertLines hr ch ok _ _ (.inr (.inl rfl))

/-- TICK on an extended channel (R118): below the limit it counts, at the limit the lines leave the extend
configuration, and only a release reported failed counts beyond it. -/
theorem ChannelInv.tickExtended (hp : p.wf) (h : ChannelInv p c) (hx : c.lines = p.extendCfg) (hf : c.cfg = some f)
    (ch : Nat) (ok : Bool) : ChannelInv p (tickExtended p ch ok (extLimit f) c) := by
  have hr : c.chState = .run := by
    by_contra hr
    exact h.not_extended_of_not_run hp hr hx
  have ⟨_, _, _, hstop⟩ := hp
  unfold Machine.tickExtended
  split
  next =>
    split
    next hw =>
      have hs := writeFails_hasWrStatus hw
      exact (h.failedWrite hs ch p.stopCfg).countTick hp hx (fun e => absurd hs (by simp [e]))
    next => exact h.goodWrite hr .holding (.inr (.inr rfl)) (fun e => absurd e hstop)
  next hlt =>
    refine h.countTick hp hx fun _ g e => ?_
    obtain rfl : f = g := Option.some.inj (hf.symm.trans e)
    omega

/-- POLL (R136): its stages in order, and the phase back at `IDLE` (R24). -/
theorem ChannelInv.pollChannel (h : ChannelInv p c) (hr : c.chState = .run) (hf : c.cfg = some f) (ch : Nat) (ok : Bool)
    (rs : List Capture) : ChannelInv p (pollChannel p ch ok f rs c) := by
  obtain ⟨a, k, m, b, -, e⟩ := pollChannel_stages p ch ok f rs c
  have hpush := (h.pushCmd hr hf (position p f m)).latches a k m (position p f m)
    (stableTest f.hcap (Machine.pushCmd f.hcap (position p f m) c)) b
  exact e ▸ { hpush.driveChannel hr ch ok _ with phaseIdle := rfl }

end

/-! ### The operations and the step -/

/-- An operation under the lifecycle guard: the channel was left as it was, or it runs (R131). -/
theorem Channel.whenRun_eq_next {c c' : Channel} {g : Channel → ChannelOutcome} (h : c.whenRun g = .next c') :
    c' = c ∨ c.chState = .run ∧ g c = .next c' := by
  by_cases hr : c.chState = .run
  · exact .inr ⟨hr, Channel.whenRun_run hr g ▸ h⟩
  · rw [Channel.whenRun_not hr] at h
    exact .inl (Host.Outcome.next.inj h).symm

/-- An operation that read `cfg` and answered a next state found a value there (R13). -/
theorem Channel.withCfg_eq_next {c c' : Channel} {g : ChanConfig → ChannelOutcome} (h : c.withCfg g = .next c') :
    ∃ f, c.cfg = some f ∧ g f = .next c' := by
  cases hf : c.cfg with
  | none => rw [Channel.withCfg_none hf] at h; cases h
  | some f => exact ⟨f, rfl, Channel.withCfg_some hf g ▸ h⟩

/-- A pipeline operation keeps what it keeps on a running channel with a configuration. -/
theorem ChannelInv.of_whenRun_withCfg {p : Params} {c c' : Channel} {g : Channel → ChanConfig → ChannelOutcome}
    (h : ChannelInv p c) (he : (c.whenRun fun c => c.withCfg (g c)) = .next c')
    (hg : ∀ f, c.chState = .run → c.cfg = some f → g c f = .next c' → ChannelInv p c') : ChannelInv p c' := by
  rcases Channel.whenRun_eq_next he with rfl | ⟨hr, he⟩
  · exact h
  · obtain ⟨f, hf, he⟩ := Channel.withCfg_eq_next he
    exact hg f hr hf he

/-- Every operation keeps the invariant of its channel. -/
theorem ChannelInv.channelEffect {p : Params} {c c' : Channel} {ok : Bool} {i : Instr} (hp : p.wf) (h : ChannelInv p c)
    (he : channelEffect p ok i c = .next c') : ChannelInv p c' := by
  cases i <;> simp only [Machine.channelEffect] at he
  case nop ch => cases he; exact h
  case reset ch => cases he; exact channelInv_resetChannel hp c
  case init ch f => cases he; exact h.initChannel hp f
  case poll ch rs =>
    refine h.of_whenRun_withCfg he fun f hr hf he => ?_
    split at he
    · cases he; exact h
    · cases he; exact h.pollChannel hr hf _ _ _
  case tick ch =>
    split at he
    next hx =>
      obtain ⟨f, hf, he⟩ := Channel.withCfg_eq_next he
      cases he
      exact h.tickExtended hp hx hf _ _
    next => cases he; exact h
  case measure ch rs =>
    refine h.of_whenRun_withCfg he fun f _ _ he => ?_
    split at he
    · cases he; exact h
    · cases he; exact h.measureChannel f _
  case decode ch m => exact h.of_whenRun_withCfg he fun f _ _ he => by cases he; exact h.decodeChannel f _
  case debounce ch v => exact h.of_whenRun_withCfg he fun f hr hf he => by cases he; exact h.debounceChannel hr hf v
  case drive ch r wrOk =>
    rcases Channel.whenRun_eq_next he with rfl | ⟨hr, he⟩
    · exact h
    · split at he
      · cases he; exact h.driveChannel hr _ _ r
      · cases he; exact h

/-- One channel replaced by another in the invariant. -/
theorem State.Inv.setChannel {s : State} (h : s.Inv) (ch : ChIndex) {c : Channel} (hc : ChannelInv s.params c) :
    (s.setChannel ch c).Inv := by
  obtain ⟨hp, hn, hall⟩ := h
  refine ⟨hp, by simpa using hn, fun d hd => ?_⟩
  rcases List.mem_or_eq_of_mem_set hd with hd | rfl
  · exact hall d hd
  · exact hc

/-- Every operation keeps the invariant of the device. -/
theorem State.Inv.exec {s t : State} {i : Instr} (h : s.Inv) (he : exec i s = .next t) : t.Inv := by
  rcases exec_eq_next he with ⟨-, rfl⟩ | ⟨c, c', hc, hf, rfl⟩
  · exact h
  · have ⟨hp, _, hall⟩ := h
    exact h.setChannel _ ((hall c (List.mem_of_getElem? hc)).channelEffect hp hf)

/-- What a step can do (R48, R65): nothing, with nothing presented; or the operation presented next is taken, and
then it is refused or performed. -/
theorem step_eq_next {s t : State} (h : step s = .next t) :
    (s.pending = [] ∧ t = s) ∨ ∃ q rest, s.pending = q :: rest ∧
      ((∃ e, s.decodeWord q.word = .error e ∧ t = { s with pending := rest, wrOk := q.wrOk }) ∨
        ∃ i, s.decodeWord q.word = .ok i ∧ exec i { s with pending := rest, wrOk := q.wrOk } = .next t) := by
  cases hq : s.pending with
  | nil =>
    simp only [step, State.takeOperation, hq] at h
    exact .inl ⟨rfl, (Host.Outcome.next.inj h).symm⟩
  | cons q rest =>
    refine .inr ⟨q, rest, rfl, ?_⟩
    cases hd : s.decodeWord q.word with
    | error e =>
      simp only [step, State.takeOperation, hq, hd] at h
      exact .inl ⟨e, rfl, (Host.Outcome.next.inj h).symm⟩
    | ok i =>
      simp only [step, State.takeOperation, hq, hd] at h
      exact .inr ⟨i, rfl, h⟩

/-- Settles O42: taking an operation touches no channel, and every operation keeps the invariant. -/
theorem stepKeepsTheInvariant : Obligations.StepKeepsTheInvariant := by
  intro s t h hstep
  rcases step_eq_next hstep with ⟨-, rfl⟩ | ⟨q, rest, -, ⟨-, -, rfl⟩ | ⟨i, -, he⟩⟩
  · exact h
  · exact h
  · exact State.Inv.exec (s := { s with pending := rest, wrOk := q.wrOk }) h he

/-- Settles O41: every channel is as RESET leaves it. -/
theorem invHoldsAfterReset : Obligations.InvHoldsAfterReset := by
  intro p nch hp hn
  refine ⟨hp, by simpa [State.nch, State.resetOf] using hn, fun c hc => ?_⟩
  obtain rfl := List.eq_of_mem_replicate hc
  exact channelInv_resetChannel hp Channel.reset

end Sys2Proof.Machine
end

section
/-!
The capture unit that samples the line once per tick computes the algorithm of R84. A loop of the algorithm with
`left` ticks of its bound left is the unit that has used the other ticks of it; the three loops are taken from the last
to the first, because each hands over to the next at the same sample.
-/

namespace Sys2Proof.Machine

/-! ### The algorithm, from the end of each of its loops on -/

/-- The result of R84 once COUNT_HIGH, begun at tick `start`, has ended. -/
def resultOfCount (start : Nat) : Nat × Bool → Capture × Nat
  | (m, false) => (.timeout, m)
  | (m, true) => (.dur (m - start), m)

/-- The result of R84 once WAIT_RISE has ended. -/
def resultOfRise (f : Nat) (level : Nat → Level) : Nat × Bool → Capture × Nat
  | (n, false) => (.timeout, n)
  | (n, true) => resultOfCount n (waitWhile .high level f n)

/-- The result of R84 once WAIT_LOW has ended. -/
def resultOfLow (w f : Nat) (level : Nat → Level) : Nat × Bool → Capture × Nat
  | (n, false) => (.timeout, n)
  | (n, true) => resultOfRise f level (waitWhile .low level w n)

theorem capture_eq_resultOfLow (w f : Nat) (level : Nat → Level) (n0 : Nat) :
    capture w f level n0 = resultOfLow w f level (waitWhile .high level w n0) := by
  unfold capture
  rcases waitWhile .high level w n0 with ⟨n, _ | _⟩
  · rfl
  simp only [resultOfLow]
  rcases waitWhile .low level w n with ⟨k, _ | _⟩
  · rfl
  simp only [resultOfRise]
  rcases waitWhile .high level f k with ⟨m, _ | _⟩ <;> rfl

theorem waitWhile_changed {lv : Level} {level : Nat → Level} {n : Nat} (h : level n ≠ lv) (left : Nat) :
    waitWhile lv level left n = (n, true) := by
  cases left <;> simp [waitWhile, h]

theorem waitWhile_zero {lv : Level} {level : Nat → Level} {n : Nat} (h : level n = lv) :
    waitWhile lv level 0 n = (n, false) := by
  simp [waitWhile, h]

theorem waitWhile_succ {lv : Level} {level : Nat → Level} {n : Nat} (h : level n = lv) (left : Nat) :
    waitWhile lv level (left + 1) n = waitWhile lv level left (n + 1) := by
  simp [waitWhile, h]

/-! ### The unit, from a sample on -/

/-- What `captureRun` makes of the sample taken at tick `n`, with `fuel` samples left. -/
def afterSample (w f : Nat) (level : Nat → Level) (fuel n : Nat) :
    Channel × Option Capture → Channel × Option (Capture × Nat)
  | (c, some r) => (c, some (r, n))
  | (c, none) => captureRun w f level fuel (n + 1) c

theorem captureRun_succ (w f : Nat) (level : Nat → Level) (fuel n : Nat) (c : Channel) :
    captureRun w f level (fuel + 1) n c = afterSample w f level fuel n (captureSample w f (level n) c) := by
  rw [captureRun]
  rcases captureSample w f (level n) c with ⟨d, _ | r⟩ <;> rfl

section
variable {w f : Nat} {level : Nat → Level}

/-- COUNT_HIGH with `t` ticks counted and `left` to go. -/
theorem afterSample_sampleCount (start : Nat) {left fuel n t : Nat} (c : Channel) (hn : n = start + t)
    (ht : t + left = f) (hfuel : left ≤ fuel) :
    afterSample w f level fuel n (sampleCount f (level n) t c) =
      (captureDone c, some (resultOfCount start (waitWhile .high level left n))) := by
  induction left generalizing fuel n t c with
  | zero =>
    cases hlv : level n with
    | low =>
      rw [waitWhile_changed (by simp [hlv])]
      simp [sampleCount, afterSample, resultOfCount, hn]
    | high =>
      rw [waitWhile_zero hlv]
      simp [sampleCount, afterSample, resultOfCount, show t = f from ht]
  | succ left ih =>
    cases hlv : level n with
    | low =>
      rw [waitWhile_changed (by simp [hlv])]
      simp [sampleCount, afterSample, resultOfCount, hn]
    | high =>
      obtain ⟨fuel, rfl⟩ : ∃ k, fuel = k + 1 := ⟨fuel - 1, by omega⟩
      rw [waitWhile_succ hlv]
      simp only [sampleCount, if_neg (show t ≠ f by omega), afterSample, captureRun_succ]
      exact ih (t := t + 1) _ (by omega) (by omega) (by omega)

/-- WAIT_RISE that sees the line rise: COUNT_HIGH begins at the same sample. -/
theorem afterSample_sampleRise_high {fuel n : Nat} (k : Nat) (c : Channel) (hlv : level n = .high) (hfuel : f ≤ fuel) :
    afterSample w f level fuel n (sampleRise w f (level n) k c) =
      (captureDone c, some (resultOfCount n (waitWhile .high level f n))) := by
  rw [← afterSample_sampleCount n c (Nat.add_zero n).symm (Nat.zero_add f) hfuel, hlv]
  rfl

/-- WAIT_RISE with `k` ticks waited and `left` to go. -/
theorem afterSample_sampleRise {left fuel n k : Nat} (c : Channel) (hk : k + left = w) (hfuel : left + f ≤ fuel) :
    afterSample w f level fuel n (sampleRise w f (level n) k c) =
      (captureDone c, some (resultOfRise f level (waitWhile .low level left n))) := by
  induction left generalizing fuel n k c with
  | zero =>
    cases hlv : level n with
    | high =>
      rw [waitWhile_changed (by simp [hlv]), ← hlv]
      exact afterSample_sampleRise_high k c hlv (by omega)
    | low =>
      rw [waitWhile_zero hlv]
      simp [sampleRise, afterSample, resultOfRise, show k = w from hk]
  | succ left ih =>
    cases hlv : level n with
    | high =>
      rw [waitWhile_changed (by simp [hlv]), ← hlv]
      exact afterSample_sampleRise_high k c hlv (by omega)
    | low =>
      obtain ⟨fuel, rfl⟩ : ∃ m, fuel = m + 1 := ⟨fuel - 1, by omega⟩
      rw [waitWhile_succ hlv]
      simp only [sampleRise, if_neg (show k ≠ w by omega), afterSample, captureRun_succ]
      exact ih (k := k + 1) _ (by omega) (by omega)

/-- WAIT_LOW that sees the line fall: WAIT_RISE begins at the same sample. -/
theorem afterSample_sampleLow_low {fuel n : Nat} (k : Nat) (c : Channel) (hlv : level n = .low) (hfuel : w + f ≤ fuel) :
    afterSample w f level fuel n (sampleLow w f (level n) k c) =
      (captureDone c, some (resultOfRise f level (waitWhile .low level w n))) := by
  rw [← afterSample_sampleRise c (Nat.zero_add w) hfuel, hlv]
  rfl

/-- WAIT_LOW with `k` ticks waited and `left` to go. -/
theorem afterSample_sampleLow {left fuel n k : Nat} (c : Channel) (hk : k + left = w) (hfuel : left + w + f ≤ fuel) :
    afterSample w f level fuel n (sampleLow w f (level n) k c) =
      (captureDone c, some (resultOfLow w f level (waitWhile .high level left n))) := by
  induction left generalizing fuel n k c with
  | zero =>
    cases hlv : level n with
    | low =>
      rw [waitWhile_changed (by simp [hlv]), ← hlv]
      exact afterSample_sampleLow_low k c hlv (by omega)
    | high =>
      rw [waitWhile_zero hlv]
      simp [sampleLow, afterSample, resultOfLow, show k = w from hk]
  | succ left ih =>
    cases hlv : level n with
    | low =>
      rw [waitWhile_changed (by simp [hlv]), ← hlv]
      exact afterSample_sampleLow_low k c hlv (by omega)
    | high =>
      obtain ⟨fuel, rfl⟩ : ∃ m, fuel = m + 1 := ⟨fuel - 1, by omega⟩
      rw [waitWhile_succ hlv]
      simp only [sampleLow, if_neg (show k ≠ w by omega), afterSample, captureRun_succ]
      exact ih (k := k + 1) _ (by omega) (by omega)

end

/-- Settles O53: a call starts in WAIT_LOW with its whole bound to go, and the three bounds add up to the fuel. -/
theorem captureUnitRefinesTheAlgorithm : Obligations.CaptureUnitRefinesTheAlgorithm := by
  intro w f n0 level c
  rw [captureRun_succ, capture_eq_resultOfLow]
  exact afterSample_sampleLow (k := 0) (captureStart c) (Nat.zero_add w) (by omega)

end Sys2Proof.Machine
end

section
/-!
The step, an equation for each of its cases: nothing presented, and the word presented first decoded or refused. The
verdict in force during the operation is the one presented with its word.
-/

namespace Sys2Proof.Machine

variable {s : State} {q : Presented} {rest : List Presented}

theorem State.takeOperation_of_pending_nil (h : s.pending = []) : s.takeOperation = none := by
  rw [State.takeOperation, h]

theorem State.takeOperation_of_pending_cons (h : s.pending = q :: rest) :
    s.takeOperation = some ({ s with pending := rest, wrOk := q.wrOk }, s.decodeWord q.word) := by
  rw [State.takeOperation, h]

theorem step_of_pending_nil (h : s.pending = []) : step s = .next s := by
  rw [step, State.takeOperation_of_pending_nil h]

theorem step_of_decodeWord_ok {i : Instr} (h : s.pending = q :: rest) (hd : s.decodeWord q.word = .ok i) :
    step s = exec i { s with pending := rest, wrOk := q.wrOk } := by
  rw [step, State.takeOperation_of_pending_cons h, hd]

theorem step_of_decodeWord_error {e : Invalid} (h : s.pending = q :: rest) (hd : s.decodeWord q.word = .error e) :
    step s = .next { s with pending := rest, wrOk := q.wrOk } := by
  rw [step, State.takeOperation_of_pending_cons h, hd]

/-- Settles O1: the two equations of the step in which no word is refused. -/
theorem stepPerformsTheNextOperation : Obligations.StepPerformsTheNextOperation :=
  ⟨fun _ _ _ _ => step_of_decodeWord_ok, fun _ => step_of_pending_nil⟩

end Sys2Proof.Machine
end

section
/-!
Words: what the decoder reads from a word (R63, R64), as one equivalence, and the round trip through the encoder.
-/

namespace Sys2Proof

/-! ### Codes and words of operands -/

theorem Cmd.code_lt (c : Cmd) : c.code < 4 := by
  cases c <;> decide

theorem LastCmd.code_lt (l : LastCmd) : l.code < 4 := by
  rcases l with _ | (_ | _ | _) <;> decide

theorem Cmd.ofCode?_code (c : Cmd) : Cmd.ofCode? (bitField c.code 1 0) = some c := by
  cases c <;> rfl

/-- The `Report` bits of a DRIVE operand do not depend on its `wr_ok` bit (R59, R63). -/
theorem Report.ofCode?_code (r : Report) (ok : Bool) :
    Report.ofCode? (bitField (r.code + if ok then 8 else 0) 2 0) = some r := by
  rcases r with _ | (_ | _ | _) <;> cases ok <;> rfl

/-- The `wr_ok` bit of a DRIVE operand does not depend on its `Report` bits (R59, R63). -/
theorem Report.bitField_verdict (r : Report) (ok : Bool) :
    (bitField (r.code + if ok then 8 else 0) 3 3 == 1) = ok := by
  rcases r with _ | (_ | _ | _) <;> cases ok <;> rfl

/-- The reserved pattern of R55. -/
theorem Cmd.ofCode?_bitField_eq_none_iff (v : Nat) : Cmd.ofCode? (bitField v 1 0) = none ↔ v % 4 = 3 := by
  have hv : bitField v 1 0 = v % 4 := by simp [bitField]
  have hlt : v % 4 < 4 := Nat.mod_lt _ (by decide)
  rw [hv]
  generalize v % 4 = x at hlt ⊢
  interval_cases x <;> decide

/-- The reserved patterns of R59. -/
theorem Report.ofCode?_bitField_eq_none_iff (v : Nat) :
    Report.ofCode? (bitField v 2 0) = none ↔ v % 8 = 1 ∨ v % 8 = 2 ∨ v % 8 = 3 ∨ v % 8 = 7 := by
  have hv : bitField v 2 0 = v % 8 := by simp [bitField]
  have hlt : v % 8 < 8 := Nat.mod_lt _ (by decide)
  rw [hv]
  generalize v % 8 = x at hlt ⊢
  interval_cases x <;> decide

theorem ChanConfig.encodable_iff (f : ChanConfig) : f.encodable = true ↔
    f.inPin < 2 ^ 8 ∧ f.enPin < 2 ^ 8 ∧ f.dirAPin < 2 ^ 8 ∧ f.dirBPin < 2 ^ 8 ∧
    hasImage 1000 32 f.freq = true ∧ hasImage 100 16 f.dmax = true ∧ hasImage 100 16 f.dmin = true ∧
    hasImage 100 16 f.tol = true ∧ f.nsamp < 2 ^ 8 ∧ f.hcap < 2 ^ 8 ∧ f.travelNum < 2 ^ 16 ∧
    f.travelDen < 2 ^ 16 ∧ f.strokeTicks < 2 ^ 32 := by
  simp only [ChanConfig.encodable, Bool.and_eq_true, decide_eq_true_eq, and_assoc]

/-- A value with an image is read back from the register its image stands in (R67). -/
theorem ofImage_imageOf_mod {unit width : Nat} {q : ℚ} (hu : 0 < unit) (h : hasImage unit width q = true) :
    ofImage unit ((imageOf unit width q).getD 0 % 2 ^ width) = q := by
  obtain ⟨hlt, hq⟩ := ofImage_imageOf hu h
  rw [Nat.mod_eq_of_lt hlt, hq]

theorem ChanConfig.ofWords_toWords {f : ChanConfig} (h : f.encodable = true) :
    ChanConfig.ofWords f.toWords = some f := by
  obtain ⟨hin, hen, ha, hb, hfreq, hdmax, hdmin, htol, hnsamp, hhcap, hnum, hden, hstroke⟩ := f.encodable_iff.mp h
  simp only [ChanConfig.toWords, ChanConfig.ofWords, ofImage_imageOf_mod (by decide) hfreq,
    ofImage_imageOf_mod (by decide) hdmax, ofImage_imageOf_mod (by decide) hdmin, ofImage_imageOf_mod (by decide) htol,
    Nat.mod_eq_of_lt hin, Nat.mod_eq_of_lt hen, Nat.mod_eq_of_lt ha, Nat.mod_eq_of_lt hb, Nat.mod_eq_of_lt hnsamp,
    Nat.mod_eq_of_lt hhcap, Nat.mod_eq_of_lt hnum, Nat.mod_eq_of_lt hden, Nat.mod_eq_of_lt hstroke]

/-- INIT takes exactly the lists of 13 words. -/
theorem ChanConfig.exists_ofWords_eq_some_iff (ws : List Word) :
    (∃ f, ChanConfig.ofWords ws = some f) ↔ ws.length = 13 := by
  constructor
  · rintro ⟨f, h⟩
    unfold ChanConfig.ofWords at h
    split at h
    · rfl
    · cases h
  · intro h
    match ws, h with
    | [_, _, _, _, _, _, _, _, _, _, _, _, _], _ => exact ⟨_, rfl⟩

theorem Capture.map_ofWord_toWord {durW : Nat} {rs : List Capture} (h : rs.all (Capture.encodable durW) = true) :
    (rs.map (Capture.toWord durW)).map (Capture.ofWord durW) = rs := by
  rw [List.map_map]
  exact (List.map_congr_left fun r hr => Capture.ofWord_toWord (List.all_eq_true.mp h r hr)).trans rs.map_id

/-! ### What the decoder reads -/

theorem OpWord.op_eq (w : OpWord) : w.op = w.header.toNat % 16 := by
  simp [OpWord.op, bitField]

theorem OpWord.ch_toNat (w : OpWord) : w.ch.toNat = w.header.toNat / 16 := by
  have := w.header.isLt
  simp only [OpWord.ch, bitField, BitVec.toNat_ofNat]
  omega

/-- The operand words `ws` spell the operands of the operation (R63), bits outside the fields being ignored. -/
def OperandsSpell (durW : Nat) (ws : List Word) : Instr → Prop
  | .nop _ | .reset _ | .tick _ => ws = []
  | .init _ f => ChanConfig.ofWords ws = some f
  | .poll _ rs | .measure _ rs => ws.map (Capture.ofWord durW) = rs
  | .decode _ m => ∃ v, ws = [v] ∧ MeasArg.ofWord durW v = m
  | .debounce _ c => ∃ v, ws = [v] ∧ Cmd.ofCode? (bitField v 1 0) = some c
  | .drive _ r ok => ∃ v, ws = [v] ∧ Report.ofCode? (bitField v 2 0) = some r ∧ (bitField v 3 3 == 1) = ok

/-- What the decoder reads: the operation and channel that the header names, with the operands that the words spell
(R63, R64). -/
theorem decode_eq_ok_iff {durW : Nat} {w : OpWord} {i : Instr} :
    decode durW w = .ok i ↔ w.op = i.opCode ∧ w.ch = i.channel ∧ OperandsSpell durW w.operands i := by
  constructor
  · intro h
    unfold decode at h
    split at h
    · next hop hws => cases h; exact ⟨hop, rfl, hws⟩
    · next hop hws => cases h; exact ⟨hop, rfl, hws⟩
    · next hop =>
      split at h
      · next f hf => cases h; exact ⟨hop, rfl, hf⟩
      · cases h
    · next hop => cases h; exact ⟨hop, rfl, rfl⟩
    · next hop hws => cases h; exact ⟨hop, rfl, hws⟩
    · next hop => cases h; exact ⟨hop, rfl, rfl⟩
    · next v hop hws => cases h; exact ⟨hop, rfl, v, hws, rfl⟩
    · next v hop hws =>
      split at h
      · next c hc => cases h; exact ⟨hop, rfl, v, hws, hc⟩
      · cases h
    · next v hop hws =>
      split at h
      · next r hr => cases h; exact ⟨hop, rfl, v, hws, hr, rfl⟩
      · cases h
    · cases h
  · rintro ⟨hop, hch, hws⟩
    cases i with
    | nop ch | reset ch | tick ch =>
      simp only [decode, hop, hch, Instr.opCode, Instr.channel, show w.operands = [] from hws]
    | init ch f =>
      simp only [decode, hop, hch, Instr.opCode, Instr.channel, show ChanConfig.ofWords w.operands = some f from hws]
    | poll ch rs | measure ch rs =>
      simp only [decode, hop, hch, Instr.opCode, Instr.channel, show w.operands.map _ = rs from hws]
    | decode ch m =>
      obtain ⟨v, hv, hm⟩ := hws
      simp only [decode, hop, hch, Instr.opCode, Instr.channel, hv, hm]
    | debounce ch c =>
      obtain ⟨v, hv, hc⟩ := hws
      simp only [decode, hop, hch, Instr.opCode, Instr.channel, hv, hc]
    | drive ch r ok =>
      obtain ⟨v, hv, hr, hok⟩ := hws
      simp only [decode, hop, hch, Instr.opCode, Instr.channel, hv, hr, hok]

theorem operandsSpell_operandWords {durW : Nat} {i : Instr} (h : i.encodable durW = true) :
    OperandsSpell durW (i.operandWords durW) i := by
  cases i with
  | nop ch | reset ch | tick ch => rfl
  | init ch f => exact ChanConfig.ofWords_toWords h
  | poll ch rs | measure ch rs => exact Capture.map_ofWord_toWord h
  | decode ch m => exact ⟨_, rfl, MeasArg.ofWord_toWord h⟩
  | debounce ch c => exact ⟨_, rfl, c.ofCode?_code⟩
  | drive ch r ok => exact ⟨_, rfl, r.ofCode?_code ok, r.bitField_verdict ok⟩

/-- Settles O3: the header and the operand words of an encoding spell the operation. -/
theorem decodeOfEncodeIsTheOperation : Obligations.DecodeOfEncodeIsTheOperation :=
  fun durW i h => decode_eq_ok_iff.mpr
    ⟨OpWord.op_encode durW i, OpWord.ch_encode durW i, operandsSpell_operandWords h⟩

/-- Settles O4: the operation is the one whose code and channel stand in the header, and the codes differ. -/
theorem headerNamesTheOperation : Obligations.HeaderNamesTheOperation := by
  intro d w i h
  obtain ⟨hop, hch, hws⟩ := decode_eq_ok_iff.mp h
  refine ⟨by rw [← hch, w.ch_toNat], ?_⟩
  rw [← w.op_eq, hop]
  cases i with
  | poll ch rs | measure ch rs =>
    obtain rfl : w.operands.map (Capture.ofWord d) = rs := hws
    simp [Instr.opCode]
  | _ => simp [Instr.opCode]

end Sys2Proof
end

section
/-!
Which words a device takes (R65): the decoder reads an operation, the device admits it, and its sample list is long
enough. Against R65's own list on the bits of the word, these are the words of the right length that are not refused.
-/

namespace Sys2Proof.Machine

/-! ### The device's checks -/

/-- A format S list has at least the `NSAMP` captures its channel asks for, where there is an `NSAMP` (R65). -/
def EnoughSamples (nsampOf : Nat → Option Nat) (i : Instr) : Prop :=
  ∀ ch rs, i = .poll ch rs ∨ i = .measure ch rs → ∀ n, nsampOf ch.toNat = some n → n ≤ rs.length

theorem admitted_iff {p : Params} {nch : Nat} {i : Instr} : i.admitted p nch = true ↔
    i.channel.toNat < nch ∧ ∀ ch r, i = .drive ch r false → p.hasWrStatus = true := by
  cases i with
  | drive ch r ok => cases ok <;> simp [Instr.admitted]
  | _ => simp [Instr.admitted]

theorem deviceCheck_eq_ok_iff {p : Params} {nch : Nat} {i j : Instr} :
    deviceCheck p nch i = .ok j ↔ i = j ∧ i.admitted p nch = true := by
  rw [admitted_iff]
  by_cases hch : nch ≤ i.channel.toNat
  · simp [deviceCheck, hch]
  · cases i with
    | drive ch r ok => cases ok <;> cases hw : p.hasWrStatus <;> simp [deviceCheck, hch, hw, Nat.lt_of_not_le hch]
    | _ => simp [deviceCheck, hch, Nat.lt_of_not_le hch]

theorem checkSamples_eq_ok_iff {nsampOf : Nat → Option Nat} {i j : Instr} :
    checkSamples nsampOf i = .ok j ↔ i = j ∧ EnoughSamples nsampOf i := by
  cases i with
  | poll ch rs | measure ch rs =>
    cases hn : nsampOf ch.toNat with
    | none => simp [checkSamples, EnoughSamples, hn]
    | some n =>
      by_cases hlt : rs.length < n
      · simp [checkSamples, EnoughSamples, hn, hlt]
      · simp [checkSamples, EnoughSamples, hn, hlt, Nat.le_of_not_lt hlt]
  | _ => simp [checkSamples, EnoughSamples]

theorem exceptBind_eq_ok_iff {ε α β : Type} {x : Except ε α} {f : α → Except ε β} {b : β} :
    x.bind f = .ok b ↔ ∃ a, x = .ok a ∧ f a = .ok b := by
  cases x <;> simp [Except.bind]

/-- What a device takes, in the three things that R63 and R65 ask of a word. -/
theorem State.decodeWord_eq_ok_iff {s : State} {w : OpWord} {i : Instr} :
    s.decodeWord w = .ok i ↔
      decode s.params.durW w = .ok i ∧ i.admitted s.params s.nch = true ∧ EnoughSamples s.nsampOf i := by
  simp only [State.decodeWord, decodeFor, exceptBind_eq_ok_iff, deviceCheck_eq_ok_iff, checkSamples_eq_ok_iff]
  constructor
  · rintro ⟨_, hdec, _, ⟨rfl, hadm⟩, rfl, hsamp⟩
    exact ⟨hdec, hadm, hsamp⟩
  · rintro ⟨hdec, hadm, hsamp⟩
    exact ⟨i, hdec, i, ⟨rfl, hadm⟩, rfl, hsamp⟩

theorem State.nsampOf_eq_some_iff {s : State} {ch n : Nat} :
    s.nsampOf ch = some n ↔ ∃ c f, s.channels[ch]? = some c ∧ c.cfg = some f ∧ f.nsamp = n := by
  cases hc : s.channels[ch]? <;> simp [State.nsampOf, hc]

/-- Settles O2: the word decodes to its operation (O3), and neither check of the device refuses it. -/
theorem encodedOperationIsPerformed : Obligations.EncodedOperationIsPerformed := by
  intro s i ok rest hpend hwf hlen
  obtain ⟨henc, hadm⟩ : i.encodable s.params.durW = true ∧ i.admitted s.params s.nch = true := by
    simpa [Instr.wellFormed] using hwf
  have hsamp : EnoughSamples s.nsampOf i := by
    intro ch rs hi n hn
    obtain ⟨c, f, hc, hf, rfl⟩ := State.nsampOf_eq_some_iff.mp hn
    exact hlen ch rs hi c f hc hf
  exact step_of_decodeWord_ok hpend
    (State.decodeWord_eq_ok_iff.mpr ⟨decodeOfEncodeIsTheOperation _ i henc, hadm, hsamp⟩)

/-! ### The list of R65 -/

theorem enoughSamples_iff_of_samples {s : State} {ch : ChIndex} {rs : List Capture} {i : Instr}
    (hi : i = .poll ch rs ∨ i = .measure ch rs) : EnoughSamples s.nsampOf i ↔
      ∀ c, s.channels[ch.toNat]? = some c → ∀ f, c.cfg = some f → f.nsamp ≤ rs.length := by
  constructor
  · intro h c hc f hf
    exact h ch rs hi f.nsamp (State.nsampOf_eq_some_iff.mpr ⟨c, f, hc, hf, rfl⟩)
  · intro h ch' rs' hi' n hn
    obtain ⟨rfl, rfl⟩ : ch = ch' ∧ rs = rs' := by rcases hi with rfl | rfl <;> simpa using hi'
    obtain ⟨c, f, hc, hf, rfl⟩ := State.nsampOf_eq_some_iff.mp hn
    exact h c hc f hf

/-- Of the words that spell an operation, R65 refuses those that the device's own checks refuse. -/
theorem refusedWord_iff_of_decode {s : State} {w : OpWord} {d : Nat} {i : Instr} (h : decode d w = .ok i) :
    RefusedWord s w ↔ ¬ (i.admitted s.params s.nch = true ∧ EnoughSamples s.nsampOf i) := by
  obtain ⟨hop, hch, hws⟩ := decode_eq_ok_iff.mp h
  rw [w.op_eq] at hop
  simp only [RefusedWord, hop, ← w.ch_toNat, hch, admitted_iff]
  cases i with
  | poll ch rs | measure ch rs =>
    obtain rfl : w.operands.map (Capture.ofWord d) = rs := hws
    rw [enoughSamples_iff_of_samples (ch := ch) (rs := w.operands.map (Capture.ofWord d)) (by simp)]
    simp [Instr.opCode, Instr.channel, imp_iff_not_or]
  | debounce ch c =>
    obtain ⟨v, hv, hc⟩ := hws
    have hv3 : v % 4 ≠ 3 := by
      rw [Ne, ← Cmd.ofCode?_bitField_eq_none_iff, hc]; simp
    simp [Instr.opCode, Instr.channel, EnoughSamples, hv, hv3]
  | drive ch r ok =>
    obtain ⟨v, hv, hr, rfl⟩ := hws
    have hres : ¬ (v % 8 = 1 ∨ v % 8 = 2 ∨ v % 8 = 3 ∨ v % 8 = 7) := by
      rw [← Report.ofCode?_bitField_eq_none_iff, hr]; simp
    simp [Instr.opCode, Instr.channel, EnoughSamples, hv, hres, bitField, imp_iff_not_or, and_comm]
  | _ => simp [Instr.opCode, Instr.channel, EnoughSamples]

theorem rightLength_of_decode {w : OpWord} {d : Nat} {i : Instr} (h : decode d w = .ok i) : RightLength w := by
  obtain ⟨hop, -, hws⟩ := decode_eq_ok_iff.mp h
  rw [w.op_eq] at hop
  simp only [RightLength, hop]
  cases i with
  | nop ch | reset ch | tick ch => simp [Instr.opCode, show w.operands = [] from hws]
  | init ch f => simpa [Instr.opCode] using (ChanConfig.exists_ofWords_eq_some_iff w.operands).mp ⟨f, hws⟩
  | poll ch rs | measure ch rs => simp [Instr.opCode]
  | decode ch m | debounce ch c | drive ch r ok =>
    obtain ⟨v, hv, -⟩ := hws
    simp [Instr.opCode, hv]

/-- A word of the right length without a reserved operation or operand spells an operation. -/
theorem exists_decode_eq_ok {s : State} {w : OpWord} (d : Nat) (href : ¬ RefusedWord s w) (hlen : RightLength w) :
    ∃ i, decode d w = .ok i := by
  simp only [RefusedWord, ← w.op_eq, not_or] at href
  simp only [RightLength, ← w.op_eq] at hlen
  obtain ⟨hop, -, hcmd, hrpt, -⟩ := href
  obtain ⟨hempty, hcfg, hone⟩ := hlen
  have spelt : ∀ i : Instr, w.op = i.opCode → i.channel = w.ch → OperandsSpell d w.operands i →
      ∃ i, decode d w = .ok i := fun i ho hc hs => ⟨i, decode_eq_ok_iff.mpr ⟨ho, hc.symm, hs⟩⟩
  have one : w.op = 6 ∨ w.op = 7 ∨ w.op = 8 → ∃ v, w.operands = [v] :=
    fun h => List.length_eq_one_iff.mp (hone h)
  have hcodes : w.op = 0 ∨ w.op = 1 ∨ w.op = 2 ∨ w.op = 3 ∨ w.op = 4 ∨ w.op = 5 ∨ w.op = 6 ∨ w.op = 7 ∨
      w.op = 8 := by omega
  rcases hcodes with h | h | h | h | h | h | h | h | h
  · exact spelt (.nop w.ch) h rfl (List.length_eq_zero_iff.mp (hempty (by omega)))
  · exact spelt (.reset w.ch) h rfl (List.length_eq_zero_iff.mp (hempty (by omega)))
  · obtain ⟨f, hf⟩ := (ChanConfig.exists_ofWords_eq_some_iff w.operands).mpr (hcfg h)
    exact spelt (.init w.ch f) h rfl hf
  · exact spelt (.poll w.ch _) h rfl rfl
  · exact spelt (.tick w.ch) h rfl (List.length_eq_zero_iff.mp (hempty (by omega)))
  · exact spelt (.measure w.ch _) h rfl rfl
  · obtain ⟨v, hv⟩ := one (by omega)
    exact spelt (.decode w.ch _) h rfl ⟨v, hv, rfl⟩
  · obtain ⟨v, hv⟩ := one (by omega)
    obtain ⟨c, hc⟩ := Option.ne_none_iff_exists'.mp
      (mt (Cmd.ofCode?_bitField_eq_none_iff v).mp fun hv3 => hcmd ⟨h, v, hv, hv3⟩)
    exact spelt (.debounce w.ch c) h rfl ⟨v, hv, hc⟩
  · obtain ⟨v, hv⟩ := one (by omega)
    obtain ⟨r, hr⟩ := Option.ne_none_iff_exists'.mp
      (mt (Report.ofCode?_bitField_eq_none_iff v).mp fun hres => hrpt ⟨h, v, hv, hres⟩)
    exact spelt (.drive w.ch r _) h rfl ⟨v, hv, hr, rfl⟩

/-- Settles O7: a word of the right length without a reserved code spells an operation, and of the words that do, R65
refuses those that the device's checks refuse. -/
theorem wordIsTakenUnlessRefused : Obligations.WordIsTakenUnlessRefused := by
  intro s w
  constructor
  · rintro ⟨i, h⟩
    obtain ⟨hdec, hchecks⟩ := State.decodeWord_eq_ok_iff.mp h
    exact ⟨fun href => (refusedWord_iff_of_decode hdec).mp href hchecks, rightLength_of_decode hdec⟩
  · rintro ⟨href, hlen⟩
    obtain ⟨i, hdec⟩ := exists_decode_eq_ok s.params.durW href hlen
    exact ⟨i, State.decodeWord_eq_ok_iff.mpr ⟨hdec, not_not.mp (mt (refusedWord_iff_of_decode hdec).mpr href)⟩⟩

/-- Settles O6: the decoder answers an error, since it takes no word that R65 refuses (O7), and the step consumes the
word. -/
theorem refusedWordChangesNoState : Obligations.RefusedWordChangesNoState := by
  intro s q rest hpend href
  cases hd : s.decodeWord q.word with
  | error e => exact ⟨⟨e, rfl⟩, step_of_decodeWord_error hpend hd⟩
  | ok i =>
    obtain ⟨hnot, -⟩ := (wordIsTakenUnlessRefused s q.word).mp ⟨i, hd⟩
    exact absurd href hnot

/-! ### Operations that find no channel, and captures beyond `NSAMP` -/

/-- Settles O8: there is no such channel to operate on. -/
theorem absentChannelChangesNothing : Obligations.AbsentChannelChangesNothing :=
  fun _ _ h => exec_none (List.getElem?_eq_none h)

theorem samples?_append {f : ChanConfig} {rs : List Capture} (h : f.nsamp ≤ rs.length) (extra : List Capture) :
    samples? f (rs ++ extra) = samples? f rs := by
  have happ : f.nsamp ≤ (rs ++ extra).length := by rw [List.length_append]; omega
  rw [samples?_of_le h, samples?_of_le happ, List.take_append_of_le_length h]

/-- Two operations with the same effect on the same channel are the same operation. -/
theorem exec_congr {i j : Instr} {s : State} {c : Channel} (hch : i.channel = j.channel)
    (hc : s.channel? i.channel = some c)
    (heff : channelEffect s.params s.wrOk i c = channelEffect s.params s.wrOk j c) : exec i s = exec j s := by
  rw [exec_eq_onChannel, exec_eq_onChannel, State.onChannel_some hc, State.onChannel_some (hch ▸ hc), heff, hch]

/-- Settles O17: MEASURE and POLL take their captures through `samples?`, which looks at the first `NSAMP`. -/
theorem capturesBeyondNsampAreNotLookedAt : Obligations.CapturesBeyondNsampAreNotLookedAt := by
  intro s ch c f rs extra hc hf hlen
  by_cases hr : c.chState = .run
  · have hs := samples?_of_le hlen
    have hs' := (samples?_append hlen extra).trans hs
    exact ⟨exec_congr rfl hc (by rw [channelEffect_measure_run ch hr hf hs', channelEffect_measure_run ch hr hf hs]),
      exec_congr rfl hc (by rw [channelEffect_poll_run ch hr hf hs', channelEffect_poll_run ch hr hf hs])⟩
  · exact ⟨exec_congr rfl hc (by simp only [channelEffect, Channel.whenRun_not hr]),
      exec_congr rfl hc (by simp only [channelEffect, Channel.whenRun_not hr])⟩

end Sys2Proof.Machine
end

section
/-!
The registers the host reads (R66 to R70): an equation for each register, and the fields that the status registers are
put together from.
-/

namespace Sys2Proof.Machine

/-! ### Reading a register -/

theorem State.readRegister_of_channel {s : State} {ch : ChIndex} {c : Channel} (h : s.channel? ch = some c)
    (num : BitVec 8) (n : Nat) : s.readRegister ch num n = some (c.readRegister ch.toNat n num.toNat) := by
  rw [State.readRegister, h, Option.map_some]

section
variable {ch n : Nat} {c : Channel}

theorem valueOr_some {reg width x : Nat} (h : x < 2 ^ width) : valueOr ch reg n width (some x) = x := by
  rw [valueOr, Option.getD_some, Nat.mod_eq_of_lt h]

/-- A value with an image shows its image (R67). -/
theorem valueOr_imageOf {reg unit width : Nat} {q : ℚ} (hu : 0 < unit) (h : hasImage unit width q = true) :
    valueOr ch reg n width (imageOf unit width q) = (imageOf unit width q).getD 0 := by
  obtain ⟨hlt, -⟩ := ofImage_imageOf hu h
  obtain ⟨x, hx⟩ : ∃ x, imageOf unit width q = some x := ⟨_, if_pos h⟩
  rw [hx] at hlt ⊢
  exact valueOr_some hlt

/-- Outside the registers with a number of their own (R67, R68), a number is a history cell's or reserved. -/
theorem Channel.readRegister_unnamed {num : Nat} (h : (0x0C < num ∧ num < 0x10) ∨ 0x15 < num) :
    c.readRegister ch n num = if 0x20 ≤ num ∧ num < 2 ^ 8 then hcellImage ch n (num - 0x20) c else 0 := by
  unfold Channel.readRegister
  split
  case h_20 => rfl
  all_goals omega

theorem Channel.readRegister_gap {num : Nat} (h : (0x0C < num ∧ num < 0x10) ∨ (0x15 < num ∧ num < 0x20)) :
    c.readRegister ch n num = 0 := by
  rw [Channel.readRegister_unnamed (by omega), if_neg (by omega)]

theorem Channel.readRegister_cell {i : Nat} (h : 0x20 + i < 2 ^ 8) :
    c.readRegister ch n (0x20 + i) = hcellImage ch n i c := by
  rw [Channel.readRegister_unnamed (by omega), if_pos (by omega), Nat.add_sub_cancel_left]

/-- A cell with a value shows its command (R55, R68). -/
theorem hcellImage_of_read? {f : ChanConfig} {i : Nat} {v : Cmd} (hf : c.cfg = some f) (hi : i < f.hcap)
    (hv : c.h.read? i = some v) : hcellImage ch n i c = v.code := by
  rw [hcellImage, hf]
  simp only [if_pos hi, hv, Option.map_some]
  exact valueOr_some v.code_lt

/-- From `HCAP` on there are no cells (R68). -/
theorem hcellImage_of_hcap_le {f : ChanConfig} {i : Nat} (hf : c.cfg = some f) (hi : f.hcap ≤ i) :
    hcellImage ch n i c = 0 := by
  rw [hcellImage, hf]
  exact if_neg (Nat.not_lt.mpr hi)

/-- The limit register shows `EXT_LIMIT`, where the quotient exists (R12, R68). -/
theorem Channel.readRegister_limit {f : ChanConfig} (hf : c.cfg = some f) (hd : f.travelDen ≠ 0) :
    c.readRegister ch n 0x15 = extLimit f % 2 ^ 32 := by
  simp [Channel.readRegister, valueOr, hf, hd]

/-- The configuration registers show the words of the configuration (R67). -/
theorem Channel.readRegister_config {f : ChanConfig} {j : Nat} {w : Word} (hf : c.cfg = some f)
    (henc : f.encodable = true) (hw : f.toWords[j]? = some w) : c.readRegister ch n j = w := by
  obtain ⟨hin, hen, ha, hb, hfreq, hdmax, hdmin, htol, hnsamp, hhcap, hnum, hden, hstroke⟩ :=
    f.encodable_iff.mp henc
  obtain ⟨hj, rfl⟩ := List.getElem?_eq_some_iff.mp hw
  have hj13 : j < 13 := hj
  interval_cases j
  all_goals simp only [Channel.readRegister, hf, Option.bind_some, ChanConfig.toWords]
  · exact valueOr_some hin
  · exact valueOr_some hen
  · exact valueOr_some ha
  · exact valueOr_some hb
  · exact valueOr_imageOf (by decide) hfreq
  · exact valueOr_imageOf (by decide) hdmax
  · exact valueOr_imageOf (by decide) hdmin
  · exact valueOr_imageOf (by decide) htol
  · exact valueOr_some hnsamp
  · exact valueOr_some hhcap
  · exact valueOr_some hnum
  · exact valueOr_some hden
  · exact valueOr_some hstroke

end

/-! ### The status registers, field by field -/

theorem full_eq_true_iff {c : Channel} :
    full c = true ↔ c.chState = .run ∧ ∃ f, c.cfg = some f ∧ c.cnt = f.hcap := by
  cases hr : c.chState <;> cases hf : c.cfg <;> simp [full, hr, hf]

theorem statusImage_fields (c : Channel) :
    bitField (statusImage c) 1 0 = c.chState.code ∧ bitField (statusImage c) 3 2 = c.drvState.code ∧
    bitField (statusImage c) 5 4 = c.lastCmd.code ∧ bitField (statusImage c) 6 6 = c.nosig.toNat ∧
    bitField (statusImage c) 7 7 = (full c).toNat ∧ bitField (statusImage c) 8 8 = c.wrFault.toNat ∧
    bitField (statusImage c) 11 9 = c.phase.code ∧ bitField (statusImage c) 15 12 = 0 := by
  have hch : c.chState.code < 4 := by cases c.chState <;> decide
  have hdrv : c.drvState.code < 4 := by cases c.drvState <;> decide
  have hlast := c.lastCmd.code_lt
  have hnosig := c.nosig.toNat_lt
  have hfull := (full c).toNat_lt
  have hwr := c.wrFault.toNat_lt
  have hphase : c.phase.code < 8 := by cases c.phase <;> decide
  simp only [bitField, statusImage]
  omega

theorem histImage_fields (c : Channel) :
    bitField (histImage c) 7 0 = c.cnt % 2 ^ 8 ∧ bitField (histImage c) 15 8 = c.wp % 2 ^ 8 := by
  simp only [bitField, histImage]
  omega

theorem lineVector_fields (en a b : Level) :
    bitField (lineVector en a b) 2 2 = en.code ∧ bitField (lineVector en a b) 1 1 = a.code ∧
    bitField (lineVector en a b) 0 0 = b.code ∧ bitField (lineVector en a b) 7 3 = 0 := by
  cases en <;> cases a <;> cases b <;> decide

theorem causeImage_fields (q : CfgCause) :
    bitField (causeImage q) 0 0 = q.cFreq.toNat ∧ bitField (causeImage q) 1 1 = q.cOrder.toNat ∧
    bitField (causeImage q) 2 2 = q.cRange.toNat ∧ bitField (causeImage q) 3 3 = q.cTol.toNat ∧
    bitField (causeImage q) 4 4 = q.cNsamp.toNat ∧ bitField (causeImage q) 5 5 = q.cHcap.toNat ∧
    bitField (causeImage q) 6 6 = q.cTravel.toNat ∧ bitField (causeImage q) 7 7 = q.cStroke.toNat ∧
    bitField (causeImage q) 8 8 = q.cPins.toNat ∧ bitField (causeImage q) 9 9 = q.cWidth.toNat ∧
    bitField (causeImage q) 15 10 = 0 := by
  have h0 := q.cFreq.toNat_lt
  have h1 := q.cOrder.toNat_lt
  have h2 := q.cRange.toNat_lt
  have h3 := q.cTol.toNat_lt
  have h4 := q.cNsamp.toNat_lt
  have h5 := q.cHcap.toNat_lt
  have h6 := q.cTravel.toNat_lt
  have h7 := q.cStroke.toNat_lt
  have h8 := q.cPins.toNat_lt
  have h9 := q.cWidth.toNat_lt
  simp only [bitField, causeImage]
  omega

/-! ### The obligations on registers -/

/-- Settles O50: register `0x11` is the image of the causes. -/
theorem causeRegisterShowsTheChecks : Obligations.CauseRegisterShowsTheChecks :=
  fun _ _ c n hc => ⟨causeImage c.cfgCause, State.readRegister_of_channel hc 0x11 n, causeImage_fields c.cfgCause⟩

/-- Settles O49: such a number lies in a gap, or is a cell's from `HCAP` on. -/
theorem reservedRegistersReadZero : Obligations.ReservedRegistersReadZero := by
  intro s ch c num n hc hnum
  rw [State.readRegister_of_channel hc, Option.some_inj]
  rcases hnum with hgap | hgap | ⟨f, hf, hcap⟩
  · exact Channel.readRegister_gap (.inl hgap)
  · exact Channel.readRegister_gap (.inr hgap)
  · obtain ⟨i, hi⟩ := Nat.exists_eq_add_of_le (show 0x20 ≤ num.toNat by omega)
    have hlt := num.isLt
    rw [hi] at hcap hlt ⊢
    rw [Channel.readRegister_cell hlt]
    exact hcellImage_of_hcap_le hf (by omega)

/-- Settles O48: the fields of each register's image are the codes of the state's fields. -/
theorem statusRegistersShowTheState : Obligations.StatusRegistersShowTheState := by
  intro s ch c n hc
  have hread := State.readRegister_of_channel hc
  obtain ⟨hch, hdrv, hlast, hnosig, hfull, hwr, hphase, hzero⟩ := statusImage_fields c
  have hfull1 : bitField (statusImage c) 7 7 = 1 ↔ c.chState = .run ∧ ∃ f, c.cfg = some f ∧ c.cnt = f.hcap := by
    rw [hfull, Bool.toNat_eq_one, full_eq_true_iff]
  refine ⟨⟨statusImage c, hread 0x10 n, hch, hdrv, hlast, hnosig, hwr, hfull1, hphase, hzero⟩,
    ⟨histImage c, hread 0x12 n, histImage_fields c⟩,
    ⟨lineVector c.en c.dirA c.dirB, hread 0x13 n, lineVector_fields c.en c.dirA c.dirB⟩,
    hread 0x14 n, fun f hf => ⟨fun hd => ?_, fun i v hi hlt hv => ?_⟩⟩
  · rw [hread]
    exact congrArg some (Channel.readRegister_limit hf hd)
  · rw [hread, BitVec.toNat_ofNat, Nat.mod_eq_of_lt hlt, Channel.readRegister_cell hlt, hcellImage_of_read? hf hi hv]

theorem initChannel_cfg {c : Channel} (h : c.chState = .uninit) (p : Params) (f : ChanConfig) :
    (initChannel p f c).cfg = some f := by
  simp only [initChannel, h]
  split <;> rfl

/-- Settles O51: INIT records the configuration (R132), whose words the registers show. -/
theorem configurationRegistersReadBack : Obligations.ConfigurationRegistersReadBack := by
  intro s t ch c f j w n hc hun henc hexec hw
  have hinit : exec (.init ch f) s = .next (s.setChannel ch (initChannel s.params f c)) := exec_next hc rfl
  obtain rfl : s.setChannel ch (initChannel s.params f c) = t := Host.Outcome.next.inj (hinit.symm.trans hexec)
  obtain ⟨hj, -⟩ := List.getElem?_eq_some_iff.mp hw
  have hj13 : j < 13 := hj
  rw [State.readRegister_of_channel (State.channel?_setChannel_self hc _), BitVec.toNat_ofNat,
    Nat.mod_eq_of_lt (by omega)]
  exact congrArg some (Channel.readRegister_config (initChannel_cfg hun s.params f) henc hw)

end Sys2Proof.Machine
end

section
/-!
MEASURE (R76 to R82): its word, what it makes of its samples, the mean it reports, and that a TICK does not disturb it.
-/

namespace Sys2Proof

/-- A header byte spells its operation code and channel (R63). -/
theorem OpWord.op_ch_of_header {w : OpWord} {ch : ChIndex} {n : Nat} (hn : n < 16)
    (h : w.header.toNat = 16 * ch.toNat + n) : w.op = n ∧ w.ch = ch := by
  refine ⟨?_, BitVec.eq_of_toNat_eq ?_⟩
  · rw [w.op_eq]; omega
  · rw [w.ch_toNat]; omega

end Sys2Proof

namespace Sys2Proof.Machine

/-! ### The result (R76) -/

theorem exec_measure_run {s : State} {ch : ChIndex} {c : Channel} {f : ChanConfig} {rs : List Capture}
    (hc : s.channel? ch = some c) (hr : c.chState = .run) (hf : c.cfg = some f) (hlen : rs.length = f.nsamp) :
    exec (.measure ch rs) s = .next (s.setChannel ch (measureChannel s.params f rs c)) :=
  exec_next hc (channelEffect_measure_run ch hr hf (samples?_of_eq hlen))

/-- Settles O15: the header spells MEASURE, and the sample loop adds up the durations before the first `TIMEOUT`. -/
theorem measureSumsUntilTimeout : Obligations.MeasureSumsUntilTimeout := by
  refine ⟨fun d ch h ws hh => ?_, fun s ch c f ts hc hr hf => ⟨fun hlen => ?_, fun rest hlen => ?_⟩⟩
  · obtain ⟨hop, hch⟩ := OpWord.op_ch_of_header (w := ⟨h, ws⟩) (by decide) hh
    exact decode_eq_ok_iff.mpr ⟨hop, hch, rfl⟩
  · rw [exec_measure_run hc hr hf (by rw [List.length_map, hlen]), measureChannel_durations, hlen]
    rfl
  · refine ⟨ts.length + 1, ?_⟩
    rw [exec_measure_run hc hr hf (by simp only [List.length_append, List.length_map, List.length_cons]; omega),
      measureChannel_timeout]

/-! ### The mean (R77, R78) -/

/-- The reported duty cycle, summed before the division (R79), is the mean of the samples' duty cycles (R78). -/
theorem dutyOf_sum_eq_mean (p : Params) (f : ChanConfig) (ts : List Nat) :
    dutyOf p f ts.sum = (ts.map fun t : Nat => (t : ℚ) / ((p.tickHz : ℚ) / f.freq) * 100).sum / (f.nsamp : ℚ) := by
  have hsample (t : Nat) : (t : ℚ) / ((p.tickHz : ℚ) / f.freq) * 100 = t * (100 * f.freq / p.tickHz) := by
    rw [div_div_eq_mul_div]; ring
  simp only [hsample]
  rw [List.sum_map_mul_right, ← Nat.cast_list_sum, dutyOf]
  ring

/-- Settles O16: division by the nominal period and by `NSAMP` distributes over the sum. -/
theorem measureIsTheMeanDutyCycle : Obligations.MeasureIsTheMeanDutyCycle := by
  intro s ch c f ts hc hr hf hlen
  refine ⟨_, exec_measure_run hc hr hf (by rw [List.length_map, hlen]), ?_⟩
  rw [measureChannel_durations, ← dutyOf_sum_eq_mean]

/-! ### TICK and MEASURE (R82, R137) -/

/-- One effect on a channel after another: the first fault or refusal stands. -/
def thenEffect (r : ChannelOutcome) (g : Channel → ChannelOutcome) : ChannelOutcome :=
  match r with
  | .next c => g c
  | .fault e => .fault e
  | .refused e => .refused e

/-- Two operations on one channel, one after the other, are their effects on that channel one after the other. -/
theorem andThen_exec_exec (i j : Instr) {s : State} {ch : ChIndex} {c : Channel} (hi : i.channel = ch)
    (hj : j.channel = ch) (hc : s.channel? ch = some c) :
    andThen (exec i s) (exec j) = s.onChannel ch fun c =>
      thenEffect (channelEffect s.params s.wrOk i c) (channelEffect s.params s.wrOk j) := by
  rw [exec_eq_onChannel i, hi, State.onChannel_some hc, State.onChannel_some hc]
  cases channelEffect s.params s.wrOk i c with
  | next c' =>
    simp only [andThen, thenEffect]
    rw [exec_eq_onChannel, hj, State.onChannel_some (State.channel?_setChannel_self hc c')]
    simp only [State.setChannel_params, State.setChannel_wrOk, State.setChannel_setChannel]
  | fault e => rfl
  | refused e => rfl

section
variable {p : Params} {c : Channel}

theorem tickExtended_chState (p : Params) (ch : Nat) (ok : Bool) (limit : Nat) (c : Channel) :
    (tickExtended p ch ok limit c).chState = c.chState := by rw [tickExtended_frame]

theorem tickExtended_cfg (p : Params) (ch : Nat) (ok : Bool) (limit : Nat) (c : Channel) :
    (tickExtended p ch ok limit c).cfg = c.cfg := by rw [tickExtended_frame]

/-- A tick neither reads nor writes what MEASURE writes. -/
theorem tickExtended_latches (p : Params) (ch : Nat) (ok : Bool) (limit a k : Nat) (m : Meas) (b : Bool) (c : Channel) :
    tickExtended p ch ok limit { c with acc := a, k := k, meas := m, nosig := b } =
      { tickExtended p ch ok limit c with acc := a, k := k, meas := m, nosig := b } := by
  unfold tickExtended
  by_cases hlim : limit ≤ c.extTimer + 1
  · simp only [if_pos hlim]
    cases writeFails p ok <;> rfl
  · simp only [if_neg hlim]

theorem tickExtended_measureChannel (p : Params) (ch : Nat) (ok : Bool) (limit : Nat) (f : ChanConfig)
    (rs : List Capture) (c : Channel) :
    tickExtended p ch ok limit (measureChannel p f rs c) = measureChannel p f rs (tickExtended p ch ok limit c) := by
  rcases captures_split rs with ⟨ts, rfl⟩ | ⟨ts, rest, rfl⟩
  · simp only [measureChannel_durations]
    exact tickExtended_latches ..
  · simp only [measureChannel_timeout]
    exact tickExtended_latches ..

theorem measureChannel_lines (p : Params) (f : ChanConfig) (rs : List Capture) (c : Channel) :
    (measureChannel p f rs c).lines = c.lines := by
  obtain ⟨a, k, m, b, h⟩ := measureChannel_frame p f rs c
  rw [h]; rfl

theorem measureChannel_cfg (p : Params) (f : ChanConfig) (rs : List Capture) (c : Channel) :
    (measureChannel p f rs c).cfg = c.cfg := by
  obtain ⟨a, k, m, b, h⟩ := measureChannel_frame p f rs c
  rw [h]

/-- MEASURE writes no line, whether it is performed or ignored (R82). -/
theorem channelEffect_measure_lines {ok : Bool} {ch : ChIndex} {rs : List Capture} {c' : Channel}
    (h : channelEffect p ok (.measure ch rs) c = .next c') : c'.lines = c.lines := by
  simp only [channelEffect] at h
  rcases Channel.whenRun_eq_next h with rfl | ⟨-, h⟩
  · rfl
  · obtain ⟨f, -, h⟩ := Channel.withCfg_eq_next h
    split at h
    · cases h; rfl
    · cases h; exact measureChannel_lines p f _ c

theorem channelEffect_measure_not_run {ok : Bool} (ch : ChIndex) (rs : List Capture) (hr : c.chState ≠ .run) :
    channelEffect p ok (.measure ch rs) c = .next c := by
  simp only [channelEffect, Channel.whenRun_not hr]

theorem channelEffect_measure_unwritten {ok : Bool} (ch : ChIndex) (rs : List Capture) (hr : c.chState = .run)
    (hf : c.cfg = none) : channelEffect p ok (.measure ch rs) c = .fault .configurationUnwritten := by
  simp only [channelEffect, Channel.whenRun_run hr, Channel.withCfg_none hf]

theorem channelEffect_tick_unwritten {ok : Bool} (ch : ChIndex) (hl : c.lines = p.extendCfg)
    (hf : c.cfg = none) : channelEffect p ok (.tick ch) c = .fault .configurationUnwritten := by
  simp only [channelEffect, if_pos hl, Channel.withCfg_none hf]

/-- On one channel, a TICK and a MEASURE have the same outcome in either order. -/
theorem thenEffect_tick_measure (p : Params) (ok : Bool) (ch : ChIndex) (rs : List Capture) (c : Channel) :
    thenEffect (channelEffect p ok (.tick ch) c) (channelEffect p ok (.measure ch rs)) =
      thenEffect (channelEffect p ok (.measure ch rs) c) (channelEffect p ok (.tick ch)) := by
  by_cases hl : c.lines = p.extendCfg
  · cases hf : c.cfg with
    | none =>
      rw [channelEffect_tick_unwritten ch hl hf]
      by_cases hr : c.chState = .run
      · rw [channelEffect_measure_unwritten ch rs hr hf]; rfl
      · rw [channelEffect_measure_not_run ch rs hr]
        exact (channelEffect_tick_unwritten ch hl hf).symm
    | some f =>
      have htick := channelEffect_tick_extended (ok := ok) ch hl hf
      have hf' := (tickExtended_cfg p ch.toNat ok (extLimit f) c).trans hf
      rw [htick, thenEffect]
      by_cases hr : c.chState = .run
      · have hr' := (tickExtended_chState p ch.toNat ok (extLimit f) c).trans hr
        cases hs : samples? f rs with
        | none =>
          rw [channelEffect_measure_short ch hr' hf' hs, channelEffect_measure_short ch hr hf hs]
          exact htick.symm
        | some us =>
          rw [channelEffect_measure_run ch hr' hf' hs, channelEffect_measure_run ch hr hf hs, thenEffect,
            channelEffect_tick_extended ch ((measureChannel_lines p f us c).trans hl)
              ((measureChannel_cfg p f us c).trans hf), tickExtended_measureChannel]
      · rw [channelEffect_measure_not_run ch rs hr, channelEffect_measure_not_run ch rs (by rwa [tickExtended_chState])]
        exact htick.symm
  · rw [channelEffect_tick_idle ch hl, thenEffect]
    cases hm : channelEffect p ok (.measure ch rs) c with
    | next c' => exact (channelEffect_tick_idle ch (by rwa [channelEffect_measure_lines hm])).symm
    | fault e => rfl
    | refused e => rfl

end

/-- Settles O38: a device without the channel is left alone; on the channel, the two effects commute. -/
theorem tickCommutesWithMeasure : Obligations.TickCommutesWithMeasure := by
  intro s ch rs
  cases hc : s.channel? ch with
  | none =>
    have htick : exec (.tick ch) s = .next s := exec_none hc
    have hmeasure : exec (.measure ch rs) s = .next s := exec_none hc
    rw [htick, hmeasure]
    exact hmeasure.trans htick.symm
  | some c =>
    rw [andThen_exec_exec (ch := ch) (.tick ch) (.measure ch rs) rfl rfl hc,
      andThen_exec_exec (ch := ch) (.measure ch rs) (.tick ch) rfl rfl hc]
    simp only [thenEffect_tick_measure]

end Sys2Proof.Machine
end

section
/-!
The reference capture unit's result and the time it takes (R85), and the measurer on it (R86).
-/

namespace Sys2Proof.Machine

/-! ### One call (R85) -/

/-- A result of R84 obtained from tick `n0` on: it came by tick `n1`, and a duration is at least one tick and at most
`f`, returned at a tick where the pulse is over. -/
structure ResultWithin (f : Nat) (level : Nat → Level) (n0 n1 : Nat) (r : Capture × Nat) : Prop where
  notBefore : n0 ≤ r.2
  notAfter  : r.2 ≤ n1
  duration  : ∀ t m, r = (.dur t, m) → 1 ≤ t ∧ t ≤ f ∧ level m = .low

section
variable {w f n : Nat} {level : Nat → Level}

theorem ResultWithin.widen {k k' : Nat} {r : Capture × Nat} (h : ResultWithin f level k k' r) (hn : n ≤ k) {n' : Nat}
    (hn' : k' ≤ n') : ResultWithin f level n n' r :=
  ⟨hn.trans h.notBefore, h.notAfter.trans hn', h.duration⟩

theorem ResultWithin.timeout {m n' : Nat} (hn : n ≤ m) (hn' : m ≤ n') : ResultWithin f level n n' (.timeout, m) :=
  ⟨hn, hn', by simp⟩

/-- COUNT_HIGH, begun where the line is high. -/
theorem resultOfCount_within (hlv : level n = .high) :
    ResultWithin f level n (n + f) (resultOfCount n (waitWhile .high level f n)) := by
  obtain ⟨hle, hle', hchanged, hlt⟩ := waitWhile_bounds .high level f n
  rcases hw : waitWhile .high level f n with ⟨m, _ | _⟩
  · rw [hw] at hle hle'
    exact .timeout hle hle'
  · simp only [hw, forall_const] at hle hle' hchanged hlt
    refine ⟨hle, hle', ?_⟩
    rintro t _ ⟨⟩
    have := hlt hlv
    exact ⟨by omega, by omega, by cases h : level m <;> simp_all⟩

theorem resultOfRise_within :
    ResultWithin f level n (n + w + f) (resultOfRise f level (waitWhile .low level w n)) := by
  obtain ⟨hle, hle', hchanged, -⟩ := waitWhile_bounds .low level w n
  rcases hw : waitWhile .low level w n with ⟨m, _ | _⟩
  · rw [hw] at hle hle'
    exact .timeout hle (by omega)
  · simp only [hw, forall_const] at hle hle' hchanged
    have hlv : level m = .high := by cases h : level m <;> simp_all
    exact (resultOfCount_within hlv).widen hle (by omega)

theorem resultOfLow_within :
    ResultWithin f level n (n + w + w + f) (resultOfLow w f level (waitWhile .high level w n)) := by
  obtain ⟨hle, hle', -, -⟩ := waitWhile_bounds .high level w n
  rcases hw : waitWhile .high level w n with ⟨m, _ | _⟩ <;> rw [hw] at hle hle'
  · exact .timeout hle (by omega)
  · exact resultOfRise_within.widen hle (by omega)

theorem capture_within (w f : Nat) (level : Nat → Level) (n : Nat) :
    ResultWithin f level n (n + (2 * w + f)) (capture w f level n) := by
  rw [capture_eq_resultOfLow]
  exact resultOfLow_within.widen le_rfl (by omega)

/-- On a line that never changes, a wait uses its whole bound. -/
theorem waitWhile_stuck {lv : Level} (h : ∀ n, level n = lv) (left n : Nat) :
    waitWhile lv level left n = (n + left, false) := by
  induction left generalizing n with
  | zero => exact waitWhile_zero (h n)
  | succ left ih => rw [waitWhile_succ (h n), ih, Nat.add_assoc, Nat.add_comm 1]

end

/-- Settles O52: the three waits are bounded by `w`, `w` and `f`, and a stuck line ends the call in the first wait that
waits for it to change. -/
theorem captureIsBounded : Obligations.CaptureIsBounded := by
  intro w f n0 level
  have h := capture_within w f level n0
  refine ⟨h.duration, h.notBefore, h.notAfter, fun hhigh => ?_, fun hlow => ?_⟩
  · rw [capture_eq_resultOfLow, waitWhile_stuck hhigh]
    rfl
  · rw [capture_eq_resultOfLow, waitWhile_changed (by simp [hlow]), resultOfLow, waitWhile_stuck hlow]
    rfl

/-! ### The measurer on the unit (R86) -/

theorem captureList_succ_timeout {w f n m : Nat} {level : Nat → Level} (k : Nat)
    (h : capture w f level n = (.timeout, m)) : captureList w f level (k + 1) n = ([.timeout], m) := by
  rw [captureList, h]

theorem captureList_succ_dur {w f n m t : Nat} {level : Nat → Level} (k : Nat)
    (h : capture w f level n = (.dur t, m)) :
    captureList w f level (k + 1) n = (.dur t :: (captureList w f level k m).1, (captureList w f level k m).2) := by
  rw [captureList, h]

/-- `k` calls end within `k` times the bound of one, in `k` durations in range or in a first `TIMEOUT`. -/
theorem captureList_within (w f : Nat) (level : Nat → Level) (k n : Nat) :
    (captureList w f level k n).2 ≤ n + k * (2 * w + f) ∧
    ((∃ ts : List Nat, (captureList w f level k n).1 = ts.map .dur ∧ ts.length = k ∧ ∀ t ∈ ts, 1 ≤ t ∧ t ≤ f) ∨
      ∃ (ts : List Nat) (rest : List Capture), (captureList w f level k n).1 = ts.map .dur ++ .timeout :: rest) := by
  induction k generalizing n with
  | zero => exact ⟨by simp [captureList], .inl ⟨[], rfl, rfl, by simp⟩⟩
  | succ k ih =>
    have hcall := capture_within w f level n
    rw [Nat.succ_mul]
    rcases hc : capture w f level n with ⟨t | _, m⟩ <;> rw [hc] at hcall
    · have hend : m ≤ n + (2 * w + f) := hcall.notAfter
      obtain ⟨hpos, hle, -⟩ := hcall.duration t m rfl
      obtain ⟨hbound, hrest⟩ := ih m
      rw [captureList_succ_dur k hc]
      refine ⟨by simp only; omega, ?_⟩
      rcases hrest with ⟨ts, hts, hlen, hrange⟩ | ⟨ts, rest, hts⟩
      · exact .inl ⟨t :: ts, by rw [hts]; rfl, by rw [List.length_cons, hlen], by simpa using ⟨⟨hpos, hle⟩, hrange⟩⟩
      · exact .inr ⟨t :: ts, rest, by rw [hts]; rfl⟩
    · have hend : m ≤ n + (2 * w + f) := hcall.notAfter
      rw [captureList_succ_timeout k hc]
      exact ⟨by simp only; omega, .inr ⟨[], [], rfl⟩⟩

section
variable {p : Params} {f : ChanConfig}

theorem pulseBound_le_period (h : 0 ≤ period p f) : (pulseBound p f : ℚ) ≤ period p f := by
  have hfloor : 0 ≤ (period p f).floor := Rat.le_floor_iff.mpr h
  calc (pulseBound p f : ℚ) = ((period p f).floor : ℚ) := by
        rw [pulseBound, ← Int.cast_natCast, Int.toNat_of_nonneg hfloor]
    _ ≤ period p f := Rat.floor_le _

/-- `NSAMP` durations of at most one period are a duty cycle of at most 100 percent. -/
theorem dutyOf_mem_range (h : Valid p f) (hp : 0 < p.tickHz) {acc : Nat} (hpos : 0 < acc)
    (hle : acc ≤ f.nsamp * pulseBound p f) : 0 < dutyOf p f acc ∧ dutyOf p f acc ≤ 100 := by
  obtain ⟨hfreq, -, -, -, -, -, hnsamp, -⟩ := h.bounds
  have hT : (0 : ℚ) < p.tickHz := Nat.cast_pos.mpr hp
  have hN : (0 : ℚ) < f.nsamp := Nat.cast_pos.mpr hnsamp
  have hacc : (0 : ℚ) < acc := Nat.cast_pos.mpr hpos
  have hsum : (acc : ℚ) ≤ f.nsamp * period p f :=
    calc (acc : ℚ) ≤ f.nsamp * pulseBound p f := by exact_mod_cast hle
      _ ≤ f.nsamp * period p f := by gcongr; exact pulseBound_le_period (div_pos hT hfreq).le
  refine ⟨by unfold dutyOf; positivity, ?_⟩
  calc dutyOf p f acc ≤ 100 * f.freq * (f.nsamp * period p f) / (f.nsamp * p.tickHz) := by unfold dutyOf; gcongr
    _ = 100 := by unfold period; field_simp

/-- MEASURE on `NSAMP` durations in the range of R85. -/
theorem dutyOf_sum_mem_range (h : Valid p f) (hp : 0 < p.tickHz) {ts : List Nat} (hlen : ts.length = f.nsamp)
    (hts : ∀ t ∈ ts, 1 ≤ t ∧ t ≤ pulseBound p f) : 0 < dutyOf p f ts.sum ∧ dutyOf p f ts.sum ≤ 100 := by
  obtain ⟨-, -, -, -, -, -, hnsamp, -⟩ := h.bounds
  have hlower := ts.card_nsmul_le_sum 1 fun t ht => (hts t ht).1
  have hupper := ts.sum_le_card_nsmul (pulseBound p f) fun t ht => (hts t ht).2
  rw [hlen, smul_eq_mul] at hlower hupper
  exact dutyOf_mem_range h hp (by omega) hupper

end

/-- Settles O54: the captures are a first `TIMEOUT`, or `NSAMP` durations of at most a period each. -/
theorem lineMeasurementIsInRange : Obligations.LineMeasurementIsInRange := by
  intro p f level n0 c hv hp
  obtain ⟨htime, hresult⟩ := captureList_within (edgeBound p f) (pulseBound p f) level f.nsamp n0
  refine ⟨?_, htime.trans (Nat.add_le_add_left (Nat.mul_le_mul_left _ (Nat.le_succ _)) _)⟩
  rcases hresult with ⟨ts, hts, hlen, hrange⟩ | ⟨ts, rest, hts⟩
  · refine .inr ⟨dutyOf p f ts.sum, ?_, dutyOf_sum_mem_range hv hp hlen hrange⟩
    rw [measureLine, hts, measureChannel_durations]
  · left
    rw [measureLine, hts, measureChannel_timeout]

end Sys2Proof.Machine
end

section
/-!
DECODE (R91 to R95): its word, what each band of the duty cycle decodes to, the comparisons without a division, and
its monotonicity.
-/

namespace Sys2Proof

/-! ### The order RETRACT < HOLD < EXTEND (R95) -/

theorem Cmd.retract_code_le (v : Cmd) : Cmd.retract.code ≤ v.code := Nat.zero_le _

theorem Cmd.code_le_extend (v : Cmd) : v.code ≤ Cmd.extend.code := by
  cases v <;> decide

end Sys2Proof

namespace Sys2Proof.Machine

section
variable {p : Params} {f : ChanConfig} {q r : ℚ}

/-! ### The tests of R91 -/

theorem outOfRange_iff : outOfRange p q ↔ p.oorPolicy = .hold ∧ (q < 0 ∨ q > 100) := by
  simp only [outOfRange, Bool.and_eq_true, Bool.or_eq_true, decide_eq_true_eq, and_comm, gt_iff_lt]

theorem not_outOfRange (h0 : 0 ≤ q) (h100 : q ≤ 100) : ¬ outOfRange p q := by
  rw [outOfRange_iff, not_and, not_or]
  exact fun _ => ⟨not_lt.mpr h0, not_lt.mpr h100⟩

theorem position_of_outOfRange (h : outOfRange p q) : position p f (.duty q) = .hold := by
  rw [position, if_pos h]

theorem position_eq_extend (hrange : ¬ outOfRange p q) (hext : thExt f ≤ q) : position p f (.duty q) = .extend := by
  rw [position, if_neg hrange, if_pos hext]

theorem position_eq_retract (hrange : ¬ outOfRange p q) (hext : ¬ thExt f ≤ q) (hret : q ≤ thRet f) :
    position p f (.duty q) = .retract := by
  rw [position, if_neg hrange, if_neg hext, if_pos hret]

/-- Between the thresholds the policy for the range does not matter: both ways lead to HOLD. -/
theorem position_eq_hold (hext : ¬ thExt f ≤ q) (hret : ¬ q ≤ thRet f) : position p f (.duty q) = .hold := by
  rw [position, if_neg hext, if_neg hret, ite_self]

theorem exec_decode_run {s : State} {ch : ChIndex} {c : Channel} (m : MeasArg) (hc : s.channel? ch = some c)
    (hr : c.chState = .run) (hf : c.cfg = some f) :
    exec (.decode ch m) s =
      .next (s.setChannel ch { c with cmd := position s.params f (measOf s.params f m) }) :=
  exec_next hc (channelEffect_decode_run ch m hr hf)

/-! ### A sum compared without a division (R94) -/

/-- The positive number by which R94 multiplies both sides of a comparison. -/
theorem Valid.scale_pos (h : Valid p f) (hp : 0 < p.tickHz) : 0 < (f.nsamp : ℚ) * (p.tickHz : ℚ) := by
  obtain ⟨-, -, -, -, -, -, hnsamp, -⟩ := h.bounds
  positivity

theorem dutyOf_nonneg (h : Valid p f) (n : Nat) : 0 ≤ dutyOf p f n := by
  obtain ⟨hfreq, -⟩ := h.bounds
  unfold dutyOf
  positivity

theorem le_dutyOf_iff (hscale : 0 < (f.nsamp : ℚ) * (p.tickHz : ℚ)) (x : ℚ) (n : Nat) :
    x ≤ dutyOf p f n ↔ x * (f.nsamp * p.tickHz) ≤ 100 * (f.freq * n) := by
  rw [dutyOf, le_div_iff₀ hscale, mul_assoc 100]

theorem dutyOf_le_iff (hscale : 0 < (f.nsamp : ℚ) * (p.tickHz : ℚ)) (x : ℚ) (n : Nat) :
    dutyOf p f n ≤ x ↔ 100 * (f.freq * n) ≤ x * (f.nsamp * p.tickHz) := by
  rw [dutyOf, div_le_iff₀ hscale, mul_assoc 100]

/-- A sum is never negative, and it exceeds 100 percent when it exceeds `NSAMP` nominal periods. -/
theorem outOfRange_dutyOf_iff (h : Valid p f) (hp : 0 < p.tickHz) (n : Nat) :
    outOfRange p (dutyOf p f n) ↔ p.oorPolicy = .hold ∧ f.freq * n > f.nsamp * p.tickHz := by
  have h100 : dutyOf p f n > 100 ↔ f.freq * n > f.nsamp * p.tickHz := by
    rw [gt_iff_lt, ← not_le, dutyOf_le_iff (h.scale_pos hp), not_le]
    exact mul_lt_mul_iff_right₀ (by norm_num)
  rw [outOfRange_iff, or_iff_right (not_lt.mpr (dutyOf_nonneg h n)), h100]

/-! ### The bands (R95) -/

/-- In range, the greater value extends, or the lesser one retracts, or both lie in the dead zone. -/
theorem position_code_mono (h0 : 0 ≤ q) (hqr : q ≤ r) (h100 : r ≤ 100) :
    (position p f (.duty q)).code ≤ (position p f (.duty r)).code := by
  by_cases hext : thExt f ≤ r
  · rw [position_eq_extend (not_outOfRange (h0.trans hqr) h100) hext]
    exact Cmd.code_le_extend _
  · have hext' : ¬ thExt f ≤ q := fun h => hext (h.trans hqr)
    by_cases hret : q ≤ thRet f
    · rw [position_eq_retract (not_outOfRange h0 (hqr.trans h100)) hext' hret]
      exact Cmd.retract_code_le _
    · rw [position_eq_hold hext' hret, position_eq_hold hext fun h => hret (hqr.trans h)]

end

/-- Settles O19: each test of R91 on the quotient is the test of R94 on the two products. -/
theorem decodeByCrossMultiplication : Obligations.DecodeByCrossMultiplication := by
  intro s ch c f n hc hr hf hv hp lhs scale v
  have hscale := hv.scale_pos hp
  have hcmd : position s.params f (measOf s.params f (.acc n)) = v :=
    if_congr (outOfRange_dutyOf_iff hv hp n) rfl <|
      if_congr (le_dutyOf_iff hscale (thExt f) n) rfl <|
        if_congr (dutyOf_le_iff hscale (thRet f) n) rfl rfl
  rw [exec_decode_run _ hc hr hf, hcmd]

/-- Settles O20: `TH_RET < TH_EXT` lie between the configured ends, on either side of the midpoint (R12, R133). -/
theorem decodeBoundariesAndMonotonicity : Obligations.DecodeBoundariesAndMonotonicity := by
  intro p f hv
  obtain ⟨-, hlt, hmin, hmax, -, -, hmidRet, hmidExt⟩ := hv.thresholds
  obtain ⟨-, horder, hmin0, hmax100, -⟩ := hv.bounds
  have hdead (q : ℚ) (hret : thRet f < q) (hext : q < thExt f) : position p f (.duty q) = .hold :=
    position_eq_hold (not_le.mpr hext) (not_le.mpr hret)
  refine ⟨hdead, ?_, ?_, hdead _ hmidRet hmidExt, fun q r => position_code_mono⟩
  · exact position_eq_extend (not_outOfRange (hmin0.trans horder.le) hmax100) hmax
  · exact position_eq_retract (not_outOfRange hmin0 (horder.le.trans hmax100)) (not_le.mpr (hmin.trans_lt hlt)) hmin

/-- Settles O18: the header spells DECODE, and its latch takes the position of the operand's value, a clause for each
test. -/
theorem decodeComparesWithTheThresholds : Obligations.DecodeComparesWithTheThresholds := by
  refine ⟨fun d ch h w hh => ?_, fun s ch c f m hc hr hf =>
    ⟨position s.params f (measOf s.params f m), exec_decode_run m hc hr hf, ?_, fun q hq => ?_⟩⟩
  · obtain ⟨hop, hch⟩ := OpWord.op_ch_of_header (w := ⟨h, [w]⟩) (by decide) hh
    exact decode_eq_ok_iff.mpr ⟨hop, hch, w, rfl, rfl⟩
  · rintro rfl
    rfl
  · have hm : measOf s.params f m = .duty q := by
      rcases hq with rfl | ⟨n, rfl, rfl⟩ <;> rfl
    rw [hm]
    exact ⟨fun hoor => position_of_outOfRange (outOfRange_iff.mpr hoor),
      fun hin hext => position_eq_extend (mt outOfRange_iff.mp hin) hext,
      fun hin hext hret => position_eq_retract (mt outOfRange_iff.mp hin) hext hret,
      fun _ hext hret => position_eq_hold hext hret⟩

end Sys2Proof.Machine
end

section
/-!
DEBOUNCE (R101 to R107): its word, the push and the test under the invariant of the channel, and sequences of pushes and
of polls.
-/

namespace Sys2Proof

/-- The code of a command is read back from the two bits it stands in (R55, R63). -/
theorem Cmd.ofCode?_bitField_of_mod {w : Word} {v : Cmd} (h : w % 4 = v.code) :
    Cmd.ofCode? (bitField w 1 0) = some v := by
  have hbits : bitField w 1 0 = bitField v.code 1 0 := by simp [bitField, ← h]
  rw [hbits, v.ofCode?_code]

end Sys2Proof

namespace Sys2Proof.Machine

/-! ### A sequence of operations on one channel -/

/-- An induction over operations on one channel: `P n` holds of the channel after `n` of them, if it holds before the
first and each operation takes effect and leads from `P n` to `P (n + 1)`. -/
theorem execAll_map_next {α : Type} {s : State} {ch : ChIndex} {c : Channel} {op : α → Instr}
    {P : Nat → Channel → Prop} (hc : s.channel? ch = some c) (hop : ∀ x, (op x).channel = ch) (xs : List α)
    (hzero : P 0 c)
    (hstep : ∀ n d x, n < xs.length → x ∈ xs → P n d →
      ∃ d', channelEffect s.params s.wrOk (op x) d = .next d' ∧ P (n + 1) d') :
    ∃ c', execAll (xs.map op) s = .next (s.setChannel ch c') ∧ P xs.length c' := by
  induction xs using List.reverseRecOn with
  | nil => exact ⟨c, by rw [State.setChannel_self hc]; rfl, hzero⟩
  | append_singleton xs x ih =>
    rw [List.length_append, List.length_singleton] at hstep ⊢
    obtain ⟨d, hd, hP⟩ := ih fun n e y hn hy => hstep n e y (by omega) (List.mem_append_left _ hy)
    obtain ⟨d', heff, hP'⟩ := hstep xs.length d x (by omega) (by simp) hP
    have hlast : exec (op x) (s.setChannel ch d) = .next (s.setChannel ch d') := by
      obtain rfl := hop x
      rw [exec_next (State.channel?_setChannel_self hc d) heff, State.setChannel_setChannel]
    refine ⟨d', ?_, hP'⟩
    rw [List.map_append, execAll_append, hd, andThen, List.map_singleton, execAll_cons, hlast]
    rfl

/-! ### The test (R103) -/

/-- A window that is not full reports nothing (R103 (a)). -/
theorem stableTest_of_cnt_ne {hcap : Nat} {c : Channel} (h : c.cnt ≠ hcap) : stableTest hcap c = .noChange :=
  if_neg fun ⟨hfull, _⟩ => h hfull

theorem cnt_of_length_window_lt {hcap : Nat} {c : Channel} (h : (c.window hcap).length < hcap) :
    c.cnt = (c.window hcap).length := by
  rw [Channel.length_window] at h ⊢
  split at h
  next hlt => rw [if_pos hlt]
  next => omega

theorem window_of_cnt_zero {hcap : Nat} {c : Channel} (hpos : 0 < hcap) (h : c.cnt = 0) : c.window hcap = [] :=
  List.eq_nil_of_length_eq_zero (by rw [Channel.length_window, h, if_pos hpos])

/-- Agreeing commands at the end of the window are all of it if there are `HCAP` of them (R17). -/
theorem window_eq_replicate_of_suffix {hcap : Nat} {c : Channel} {v : Cmd}
    (h : List.replicate hcap v <:+ c.window hcap) : c.window hcap = List.replicate hcap v := by
  refine (h.eq_of_length_le ?_).symm
  rw [Channel.length_window, List.length_replicate]
  split <;> omega

/-! ### A running channel in its invariant -/

/-- A running channel with configuration `f` that meets its invariant: the premise of the statements on DEBOUNCE. -/
structure RunsWith (p : Params) (f : ChanConfig) (c : Channel) : Prop where
  inv : ChannelInv p c
  running : c.chState = .run
  configured : c.cfg = some f

section
variable {p : Params} {f : ChanConfig} {c : Channel} {v : Cmd} {n : Nat}

theorem RunsWith.cursor_lt (h : RunsWith p f c) : c.wp < f.hcap := h.inv.cursorInRange h.running f h.configured

theorem RunsWith.hcap_pos (h : RunsWith p f c) : 0 < f.hcap := Nat.zero_lt_of_lt h.cursor_lt

theorem RunsWith.cnt_le (h : RunsWith p f c) : c.cnt ≤ f.hcap := h.inv.cntBounded f h.configured

theorem RunsWith.push (h : RunsWith p f c) (v : Cmd) : RunsWith p f (pushCmd f.hcap v c) :=
  ⟨h.inv.pushCmd h.running h.configured v, h.running, h.configured⟩

theorem RunsWith.debounce (h : RunsWith p f c) (v : Cmd) : RunsWith p f (debounceChannel f v c) :=
  ⟨h.inv.debounceChannel h.running h.configured v, h.running, h.configured⟩

theorem RunsWith.poll (h : RunsWith p f c) (ch : Nat) (ok : Bool) (rs : List Capture) :
    RunsWith p f (pollChannel p ch ok f rs c) := by
  obtain ⟨a, k, m, b, -, e⟩ := pollChannel_stages p ch ok f rs c
  refine ⟨h.inv.pollChannel h.running h.configured ch ok rs, ?_, ?_⟩
  · rw [e, driveChannel_frame]; exact h.running
  · rw [e, driveChannel_frame]; exact h.configured

/-- The push on the window, by the window's own length (R102). -/
theorem RunsWith.window_push (h : RunsWith p f c) (v : Cmd) :
    (pushCmd f.hcap v c).window f.hcap =
      if (c.window f.hcap).length < f.hcap then c.window f.hcap ++ [v] else (c.window f.hcap).tail ++ [v] := by
  rw [Machine.window_pushCmd f.hcap v c h.hcap_pos h.cnt_le h.cursor_lt (h.inv.cursorAtCount f h.configured)]
  refine if_congr ?_ rfl rfl
  rw [Channel.length_window]
  split <;> omega

theorem RunsWith.mem_window_push (h : RunsWith p f c) (v : Cmd) : v ∈ (pushCmd f.hcap v c).window f.hcap := by
  rw [h.window_push]
  split <;> simp

/-- A push agreeing with the last `n < HCAP` commands: an eviction takes an older command, not one of these (R102). -/
theorem RunsWith.replicate_suffix_window_push (h : RunsWith p f c) (hn : n < f.hcap)
    (hs : List.replicate n v <:+ c.window f.hcap) :
    List.replicate (n + 1) v <:+ (pushCmd f.hcap v c).window f.hcap := by
  obtain ⟨old, hold⟩ := hs
  rw [h.window_push, ← hold, List.replicate_succ']
  split
  next => exact ⟨old, (List.append_assoc ..).symm⟩
  next hfull =>
    have hne : old ≠ [] := by
      rintro rfl
      rw [List.nil_append, List.length_replicate] at hfull
      exact hfull hn
    exact ⟨old.tail, by rw [List.tail_append_of_ne_nil hne, List.append_assoc]⟩

/-- The test of R103 under the invariant. -/
theorem RunsWith.stableTest_eq_stable_iff (h : RunsWith p f c) (x : Cmd) : stableTest f.hcap c = .stable x ↔
    c.cnt = f.hcap ∧ (∀ y ∈ c.window f.hcap, y = x) ∧ LastCmd.cmd x ≠ c.lastCmd :=
  stableTest_eq_stable f.hcap c x h.hcap_pos h.cursor_lt

/-- The push that makes `HCAP` agreeing commands, not delivered last, is reported (R103). With `HCAP = 1` every push is
such a one. -/
theorem RunsWith.stableTest_push_of_agreeing (h : RunsWith p f c) (hn : n + 1 = f.hcap)
    (hs : List.replicate n v <:+ c.window f.hcap) (hne : LastCmd.cmd v ≠ c.lastCmd) :
    stableTest f.hcap (pushCmd f.hcap v c) = .stable v := by
  have hw : (pushCmd f.hcap v c).window f.hcap = List.replicate f.hcap v :=
    window_eq_replicate_of_suffix (hn ▸ h.replicate_suffix_window_push (by omega) hs)
  have hcnt : (pushCmd f.hcap v c).cnt = f.hcap := by
    by_contra hcnt
    have hlt := lt_of_le_of_ne (h.push v).cnt_le hcnt
    have hlen := Channel.length_window f.hcap (pushCmd f.hcap v c)
    rw [hw, List.length_replicate, if_pos hlt] at hlen
    omega
  exact ((h.push v).stableTest_eq_stable_iff v).mpr ⟨hcnt, fun y hy => List.eq_of_mem_replicate (hw ▸ hy), hne⟩

/-- A push of the last delivered command reports nothing (R103 (c)): it stands in the window, so that a report could be
of this command only. -/
theorem RunsWith.stableTest_push_of_delivered (h : RunsWith p f c) (hlast : c.lastCmd = .cmd v) :
    stableTest f.hcap (pushCmd f.hcap v c) = .noChange := by
  cases hrpt : stableTest f.hcap (pushCmd f.hcap v c) with
  | noChange => rfl
  | stable x =>
    obtain ⟨-, hall, hne⟩ := ((h.push v).stableTest_eq_stable_iff x).mp hrpt
    obtain rfl := hall v (h.mem_window_push v)
    exact absurd hlast.symm hne

end

/-! ### The operation (R101 to R103) -/

theorem exec_debounce_run {s : State} {ch : ChIndex} {c : Channel} {f : ChanConfig} (v : Cmd)
    (hc : s.channel? ch = some c) (hr : c.chState = .run) (hf : c.cfg = some f) :
    exec (.debounce ch v) s = .next (s.setChannel ch (debounceChannel f v c)) :=
  exec_next hc (channelEffect_debounce_run ch v hr hf)

/-- Settles O23: the header spells DEBOUNCE, and the channel is the pushed one with the result of the test in its
latch. -/
theorem debouncePushesAndTests : Obligations.DebouncePushesAndTests := by
  refine ⟨fun d ch h v w hh hw => ?_, fun s ch c f v hc hr hf => ?_⟩
  · obtain ⟨hop, hch⟩ := OpWord.op_ch_of_header (w := ⟨h, [w]⟩) (by decide) hh
    exact decode_eq_ok_iff.mpr ⟨hop, hch, w, rfl, Cmd.ofCode?_bitField_of_mod hw⟩
  · refine ⟨debounceChannel f v c, c.h.write c.wp v, stableTest f.hcap (pushCmd f.hcap v c),
      exec_debounce_run v hc hr hf, rfl, Memory.read?_write_self .., fun i hi => Memory.read?_write_ne _ v hi, ?_, ?_⟩
    · exact fun hfull huniform hne => if_pos ⟨hfull, huniform, hne⟩
    · exact fun hnot => if_neg hnot

/-- Settles O21: the window and the cells of the channel are those after the push. -/
theorem debouncePushesOntoTheWindow : Obligations.DebouncePushesOntoTheWindow := by
  intro s ch c f v hc hinv hr hf
  exact ⟨debounceChannel f v c, exec_debounce_run v hc hr hf, RunsWith.window_push ⟨hinv, hr, hf⟩ v,
    Memory.read?_write_self .., fun i hi => Memory.read?_write_ne _ v hi, rfl⟩

/-- Settles O22: the report is the test's, the invariant after the operation says which cells have been written, and
with `HCAP = 1` a push makes `HCAP` agreeing commands. -/
theorem debounceReportsExactlyWhenStable : Obligations.DebounceReportsExactlyWhenStable := by
  intro s ch c f v hc hinv hr hf
  have hrun : RunsWith s.params f c := ⟨hinv, hr, hf⟩
  refine ⟨debounceChannel f v c, exec_debounce_run v hc hr hf, (hrun.push v).stableTest_eq_stable_iff,
    fun hnone => ?_, fun hfull i hi => ?_, fun hone hne => ?_⟩
  · cases hrpt : (debounceChannel f v c).rpt with
    | noChange => rfl
    | stable x => exact absurd ⟨x, hrpt⟩ hnone
  · exact ((hrun.debounce v).inv.cellsWritten i).mpr (hfull ▸ hi)
  · exact hrun.stableTest_push_of_agreeing (n := 0) hone.symm List.nil_suffix hne

/-! ### Sequences of pushes (R106) -/

/-- What `n` pushes make of channel `c` while its window is not full. -/
structure Filling (f : ChanConfig) (c : Channel) (n : Nat) (d : Channel) : Prop where
  running : d.chState = .run
  configured : d.cfg = some f
  counted : d.cnt = c.cnt + n
  quiet : 0 < n → d.rpt = .noChange

theorem Filling.debounce {f : ChanConfig} {c d : Channel} {n : Nat} (h : Filling f c n d)
    (hlt : c.cnt + (n + 1) < f.hcap) (v : Cmd) : Filling f c (n + 1) (debounceChannel f v d) := by
  have hcnt : (pushCmd f.hcap v d).cnt = c.cnt + (n + 1) := by
    rw [Channel.push_cnt, h.counted, if_pos (by omega), Nat.add_assoc]
  exact ⟨h.running, h.configured, hcnt, fun _ => stableTest_of_cnt_ne (by omega)⟩

/-- Settles O24: each push counts one command, and too few are pushed to fill the window. -/
theorem noStableReportBeforeTheWindowIsFull : Obligations.NoStableReportBeforeTheWindowIsFull := by
  intro s ch c f vs hc hr hf hlen
  obtain ⟨c', hexec, hfill⟩ := execAll_map_next (P := Filling f c) hc (fun _ => rfl) vs
    ⟨hr, hf, rfl, fun h => absurd h (lt_irrefl 0)⟩
    fun n d v hn _ hd =>
      ⟨_, channelEffect_debounce_run ch v hd.running hd.configured, hd.debounce (by omega) v⟩
  exact ⟨c', hexec, fun hne => hfill.quiet (List.length_pos_iff.mpr hne)⟩

/-- A running channel that ends in `n` agreeing commands `v` while `v` is not the last delivered one, and that reports
`v` if they fill the window. -/
structure EndsIn (p : Params) (f : ChanConfig) (v : Cmd) (n : Nat) (d : Channel) : Prop extends RunsWith p f d where
  agreeing : List.replicate n v <:+ d.window f.hcap
  undelivered : LastCmd.cmd v ≠ d.lastCmd
  reported : n = f.hcap → d.rpt = .stable v

theorem EndsIn.debounce {p : Params} {f : ChanConfig} {v : Cmd} {n : Nat} {d : Channel} (h : EndsIn p f v n d)
    (hlt : n < f.hcap) : EndsIn p f v (n + 1) (debounceChannel f v d) :=
  { h.toRunsWith.debounce v with
    agreeing := h.toRunsWith.replicate_suffix_window_push hlt h.agreeing
    undelivered := h.undelivered
    reported := fun hn => h.toRunsWith.stableTest_push_of_agreeing hn h.agreeing h.undelivered }

/-- Settles O25: each push adds one to the agreeing commands at the end of the window, until they are all of it. -/
theorem hcapAgreeingCommandsAreReported : Obligations.HcapAgreeingCommandsAreReported := by
  intro s ch c f v hc hinv hr hf hne
  have hrun : RunsWith s.params f c := ⟨hinv, hr, hf⟩
  obtain ⟨c', hexec, hend⟩ := execAll_map_next (P := EndsIn s.params f v) hc (fun _ => rfl) (List.replicate f.hcap v)
    ⟨hrun, List.nil_suffix, hne, fun h0 => absurd h0 hrun.hcap_pos.ne⟩
    fun n d x hn hx hd => by
      obtain rfl := List.eq_of_mem_replicate hx
      rw [List.length_replicate] at hn
      exact ⟨_, channelEffect_debounce_run ch x hd.running hd.configured, hd.debounce hn⟩
  rw [List.map_replicate] at hexec
  rw [List.length_replicate] at hend
  exact ⟨c', hexec, hend.reported rfl, window_eq_replicate_of_suffix hend.agreeing⟩

/-! ### Sequences of polls in the EXTEND band (R107) -/

section
variable {p : Params} {f : ChanConfig} {ch : Nat} {ok : Bool} {us : List Nat} {v : Cmd} {c d : Channel} {n : Nat}

/-- What the measurement, the decoder and the debouncer of a POLL without a `TIMEOUT` make of a channel (R136). -/
def debouncedPoll (p : Params) (f : ChanConfig) (us : List Nat) (v : Cmd) (d : Channel) : Channel :=
  { debounceChannel f v d with
    nosig := false, acc := us.sum, k := us.length, meas := .duty (dutyOf p f us.sum), cmd := v }

/-- A POLL without a `TIMEOUT` whose duty cycle decodes to `v`: the driver acts on the report of the push of `v`. -/
theorem pollChannel_durations (hv : position p f (.duty (dutyOf p f us.sum)) = v) :
    pollChannel p ch ok f (us.map .dur) d =
      { driveChannel p ch ok (stableTest f.hcap (pushCmd f.hcap v d)) (debouncedPoll p f us v d) with
        phase := .idle } := by
  rw [pollChannel_eq, measureChannel_durations]
  subst hv
  rfl

theorem pollChannel_durations_quiet (hv : position p f (.duty (dutyOf p f us.sum)) = v)
    (hquiet : stableTest f.hcap (pushCmd f.hcap v d) = .noChange) :
    pollChannel p ch ok f (us.map .dur) d = { debouncedPoll p f us v d with phase := .idle } := by
  rw [pollChannel_durations hv, hquiet]
  rfl

/-- An EXTEND command on a channel that is not extended, without `HAS_WR_STATUS` (R116). -/
theorem driveChannel_extend (hw : p.hasWrStatus = false) (hl : d.lines ≠ p.extendCfg) :
    driveChannel p ch ok (.stable .extend) d =
      { d.goodWrite p p.extendCfg with extTimer := 0, lastCmd := .cmd .extend, drvState := .extending } := by
  have hgood : writeFails p ok = false := by rw [writeFails, hw, Bool.false_and]
  rw [driveChannel, if_neg hl, assertLines, hgood]
  rfl

theorem pollChannel_durations_extend (hv : position p f (.duty (dutyOf p f us.sum)) = .extend)
    (hstable : stableTest f.hcap (pushCmd f.hcap .extend d) = .stable .extend) (hw : p.hasWrStatus = false)
    (hl : d.lines ≠ p.extendCfg) :
    pollChannel p ch ok f (us.map .dur) d =
      { (debouncedPoll p f us .extend d).goodWrite p p.extendCfg with
        extTimer := 0, lastCmd := .cmd .extend, drvState := .extending, phase := .idle } := by
  have hl' : (debouncedPoll p f us .extend d).lines ≠ p.extendCfg := hl
  rw [pollChannel_durations hv, hstable, driveChannel_extend hw hl']

/-- Channel `d` after `n` POLLs in the EXTEND band, fewer than `HCAP`: nothing but EXTEND commands in the window, none
delivered, and the lines as on channel `c` before. -/
structure AwaitsExtend (f : ChanConfig) (c : Channel) (n : Nat) (d : Channel) : Prop where
  pushed : d.window f.hcap = List.replicate n .extend
  undelivered : d.lastCmd = .none
  lines : d.lines = c.lines
  pinA : d.pinA = c.pinA
  pinB : d.pinB = c.pinB
  drvState : d.drvState = c.drvState
  quiet : 0 < n → d.rpt = .noChange

/-- The extend configuration asserted by the last delivered command, with the timer at 0 (R116). -/
structure Extended (p : Params) (d : Channel) : Prop where
  delivered : d.lastCmd = .cmd .extend
  lines : d.lines = p.extendCfg
  drvState : d.drvState = .extending
  timer : d.extTimer = 0

theorem AwaitsExtend.poll (hrun : RunsWith p f d) (h : AwaitsExtend f c n d) (hlt : n + 1 < f.hcap)
    (hv : position p f (.duty (dutyOf p f us.sum)) = .extend) :
    AwaitsExtend f c (n + 1) (pollChannel p ch ok f (us.map .dur) d) := by
  have hwindow : (pushCmd f.hcap .extend d).window f.hcap = List.replicate (n + 1) .extend := by
    rw [hrun.window_push, h.pushed, List.length_replicate, if_pos (by omega), List.replicate_succ']
  have hcnt : (pushCmd f.hcap .extend d).cnt = n + 1 := by
    rw [cnt_of_length_window_lt (by rwa [hwindow, List.length_replicate]), hwindow, List.length_replicate]
  have hquiet : stableTest f.hcap (pushCmd f.hcap .extend d) = .noChange := stableTest_of_cnt_ne (by omega)
  rw [pollChannel_durations_quiet hv hquiet]
  exact ⟨hwindow, h.undelivered, h.lines, h.pinA, h.pinB, h.drvState, fun _ => hquiet⟩

/-- The `HCAP`-th poll is reported and extends: a channel that delivered nothing is not extended (R23). -/
theorem AwaitsExtend.poll_extends (hrun : RunsWith p f d) (h : AwaitsExtend f c n d) (hn : n + 1 = f.hcap)
    (hw : p.hasWrStatus = false) (hv : position p f (.duty (dutyOf p f us.sum)) = .extend) :
    (pollChannel p ch ok f (us.map .dur) d).rpt = .stable .extend ∧
      Extended p (pollChannel p ch ok f (us.map .dur) d) := by
  have hstable : stableTest f.hcap (pushCmd f.hcap .extend d) = .stable .extend :=
    hrun.stableTest_push_of_agreeing hn (by rw [h.pushed]) (by rw [h.undelivered]; exact nofun)
  have hl : d.lines ≠ p.extendCfg := fun e => hrun.inv.extendedCommanded e h.undelivered
  rw [pollChannel_durations_extend hv hstable hw hl]
  exact ⟨hstable, rfl, rfl, rfl, rfl⟩

/-- A later poll pushes the last delivered command once more. -/
theorem Extended.poll (hrun : RunsWith p f d) (h : Extended p d)
    (hv : position p f (.duty (dutyOf p f us.sum)) = .extend) :
    (pollChannel p ch ok f (us.map .dur) d).rpt = .noChange ∧ Extended p (pollChannel p ch ok f (us.map .dur) d) := by
  have hquiet := hrun.stableTest_push_of_delivered h.delivered
  rw [pollChannel_durations_quiet hv hquiet]
  exact ⟨hquiet, h.delivered, h.lines, h.drvState, h.timer⟩

/-- A running channel after `n` POLLs in the EXTEND band, from channel `c` with an empty history and nothing
delivered. -/
structure ExtendPolled (p : Params) (f : ChanConfig) (c : Channel) (n : Nat) (d : Channel) : Prop
    extends RunsWith p f d where
  before : n < f.hcap → AwaitsExtend f c n d
  reported : n = f.hcap → d.rpt = .stable .extend
  quiet : f.hcap < n → d.rpt = .noChange
  extended : f.hcap ≤ n → Extended p d

theorem ExtendPolled.of_empty (hrun : RunsWith p f c) (hcnt : c.cnt = 0) (hlast : c.lastCmd = .none) :
    ExtendPolled p f c 0 c :=
  have hpos := hrun.hcap_pos
  { hrun with
    before := fun _ => ⟨window_of_cnt_zero hpos hcnt, hlast, rfl, rfl, rfl, rfl, fun h => absurd h (lt_irrefl 0)⟩
    reported := fun h => absurd h hpos.ne
    quiet := fun h => absurd h (Nat.not_lt_zero _)
    extended := fun h => absurd hpos (Nat.not_lt.mpr h) }

theorem ExtendPolled.poll (h : ExtendPolled p f c n d) (hw : p.hasWrStatus = false)
    (hv : position p f (.duty (dutyOf p f us.sum)) = .extend) :
    ExtendPolled p f c (n + 1) (pollChannel p ch ok f (us.map .dur) d) := by
  have hrun := h.toRunsWith
  rcases Nat.lt_or_ge n f.hcap with hlt | hge
  · have hextends (hn : n + 1 = f.hcap) := (h.before hlt).poll_extends (ch := ch) (ok := ok) hrun hn hw hv
    exact { hrun.poll ch ok (us.map .dur) with
      before := fun hn => (h.before hlt).poll hrun hn hv
      reported := fun hn => (hextends hn).1
      quiet := fun hn => absurd hn (by omega)
      extended := fun hn => (hextends (by omega)).2 }
  · obtain ⟨hquiet, hextended⟩ := (h.extended hge).poll (ch := ch) (ok := ok) hrun hv
    exact { hrun.poll ch ok (us.map .dur) with
      before := fun hn => absurd hn (by omega)
      reported := fun hn => absurd hn (by omega)
      quiet := fun _ => hquiet
      extended := fun _ => hextended }

end

/-- Settles O40: every POLL decodes to EXTEND, and each takes `ExtendPolled` to the next number. -/
theorem hcapExtendPollsExtendOnce : Obligations.HcapExtendPollsExtendOnce := by
  intro s ch c f tss ⟨_, _, hall⟩ hc hr hf hcnt hlast hw hband
  have hrun : RunsWith s.params f c := ⟨hall c (List.mem_of_getElem? hc), hr, hf⟩
  have hvalid : Valid s.params f := hrun.inv.runValid hr f hf
  obtain ⟨c', hexec, hpolled⟩ := execAll_map_next (P := ExtendPolled s.params f c) hc (fun _ => rfl) tss
    (.of_empty hrun hcnt hlast)
    fun n d us _ hus hd => by
      obtain ⟨hlen, hext, h100⟩ := hband us hus
      have hv := position_eq_extend (not_outOfRange (p := s.params) (dutyOf_nonneg hvalid us.sum) h100) hext
      exact ⟨_, channelEffect_poll_run ch hd.running hd.configured (samples?_of_eq (by rw [List.length_map, hlen])),
        hd.poll hw hv⟩
  refine ⟨c', hexec, fun hlt => ?_, hpolled.reported, hpolled.quiet, fun hle => ?_⟩
  · obtain ⟨-, hnone, hlines, hpinA, hpinB, hdrv, hquiet⟩ := hpolled.before hlt
    exact ⟨hlines, hpinA, hpinB, hdrv, hnone, hquiet⟩
  · obtain ⟨hdelivered, hlines, hdrv, htimer⟩ := hpolled.extended hle
    obtain ⟨-, hpinA, hpinB⟩ := hpolled.inv.writesGood hw
    exact ⟨hlines, hpinA, hpinB, hpolled.inv.enHigh.1, hdrv, htimer, hdelivered⟩

end Sys2Proof.Machine
end

section
/-!
DRIVE and TICK (R112 to R124): their words, a rule for each thing they can do to a channel, and sequences of them. A
rule says what a write does with a given outcome; which outcomes there are depends on `HAS_WR_STATUS`.
-/

namespace Sys2Proof

/-- The code of a report is read back from the three bits it stands in (R59, R63). -/
theorem Report.ofCode?_bitField_of_mod {w : Word} {r : Report} (h : w % 8 = r.code) :
    Report.ofCode? (bitField w 2 0) = some r := by
  have hbits : bitField w 2 0 = bitField (r.code + if false then 8 else 0) 2 0 := by simp [bitField, ← h]
  rw [hbits, r.ofCode?_code]

end Sys2Proof

namespace Sys2Proof.Machine

/-! ### The outcomes of a line write (R124) -/

section
variable {p : Params} {ok : Bool} {c : Channel} {l : LineCfg}

theorem writeFails_of_noStatus (h : p.hasWrStatus = false) (ok : Bool) : writeFails p ok = false := by
  rw [writeFails, h, Bool.false_and]

theorem writeFails_of_good (p : Params) : writeFails p true = false := Bool.and_false _

theorem writeFails_of_bad (h : p.hasWrStatus = true) : writeFails p false = true := by
  rw [writeFails, h]; rfl

/-- Without `HAS_WR_STATUS` a write is its lines and nothing else. -/
theorem Channel.goodWrite_of_noStatus (h : p.hasWrStatus = false) : c.goodWrite p l = c.putLines l := by
  simp [Channel.goodWrite, Channel.putLines, h]

theorem Channel.goodWrite_of_status (h : p.hasWrStatus = true) :
    c.goodWrite p l = { c.putLines l with wrFault := false } := by
  simp [Channel.goodWrite, h]

theorem Channel.failedWrite_frame (p : Params) (ch : Nat) (l : LineCfg) (c : Channel) :
    ∃ (a b : Level) (n : Nat), (a = c.pinA ∨ a = l.dirA) ∧ (b = c.pinB ∨ b = l.dirB) ∧
      c.failedWrite p ch l = { c with wrFault := true, pinA := a, pinB := b, free := n } :=
  ⟨_, _, _, pinAfterFailure_old_or_new .., pinAfterFailure_old_or_new .., rfl⟩

end

/-! ### What DRIVE does (R112 to R116) -/

/-- The stable command `v` makes DRIVE write the lines `l` on channel `c` and record `d` (R115, R116). -/
def WritesLines (p : Params) (c : Channel) (v : Cmd) (l : LineCfg) (d : DrvState) : Prop :=
  (v = .retract ∧ l = p.retractCfg ∧ d = .retracting) ∨
    (v = .extend ∧ l = p.extendCfg ∧ d = .extending ∧ c.lines ≠ p.extendCfg)

section
variable {p : Params} {ch : Nat} {ok : Bool} {c : Channel} {v : Cmd} {l : LineCfg} {d : DrvState}

theorem writesLines_retract (p : Params) (c : Channel) : WritesLines p c .retract p.retractCfg .retracting :=
  .inl ⟨rfl, rfl, rfl⟩

theorem writesLines_extend (h : c.lines ≠ p.extendCfg) : WritesLines p c .extend p.extendCfg .extending :=
  .inr ⟨rfl, rfl, rfl, h⟩

theorem driveChannel_of_writesLines (h : WritesLines p c v l d) :
    driveChannel p ch ok (.stable v) c = assertLines p ch ok l v d c := by
  rcases h with ⟨rfl, rfl, rfl⟩ | ⟨rfl, rfl, rfl, hl⟩
  · rfl
  · exact if_neg hl

theorem driveChannel_of_write_good (h : WritesLines p c v l d) (hw : writeFails p ok = false) :
    driveChannel p ch ok (.stable v) c =
      { c.goodWrite p l with extTimer := 0, lastCmd := .cmd v, drvState := d } := by
  rw [driveChannel_of_writesLines h, assertLines, hw]; rfl

theorem driveChannel_of_write_bad (h : WritesLines p c v l d) (hw : writeFails p ok = true) :
    driveChannel p ch ok (.stable v) c = c.failedWrite p ch l := by
  rw [driveChannel_of_writesLines h, assertLines, if_pos hw]

theorem driveChannel_extend_of_extended (hl : c.lines = p.extendCfg) :
    driveChannel p ch ok (.stable .extend) c = { c with lastCmd := .cmd .extend, drvState := .extending } :=
  if_pos hl

theorem driveChannel_chState (p : Params) (ch : Nat) (ok : Bool) (r : Report) (c : Channel) :
    (driveChannel p ch ok r c).chState = c.chState := by rw [driveChannel_frame]

theorem exec_drive_run {s : State} {ch : ChIndex} (r : Report) (hc : s.channel? ch = some c)
    (hr : c.chState = .run) (hw : (ok || s.params.hasWrStatus) = true) :
    exec (.drive ch r ok) s = .next (s.setChannel ch (driveChannel s.params ch.toNat ok r c)) :=
  exec_next hc (channelEffect_drive_run ch r ok hr hw)

/-- DRIVE of "no change" (R113). -/
theorem exec_drive_noChange {s : State} {ch : ChIndex} (hc : s.channel? ch = some c) (hr : c.chState = .run)
    (hw : (ok || s.params.hasWrStatus) = true) : exec (.drive ch .noChange ok) s = .next s := by
  rw [exec_drive_run _ hc hr hw, driveChannel, State.setChannel_self hc]

end

/-- Settles O26: the header spells DRIVE, and without `HAS_WR_STATUS` a write is its lines and nothing else. -/
theorem driveActsOnTheReport : Obligations.DriveActsOnTheReport := by
  refine ⟨fun d ch h r w hh hw => ?_, fun s ch c hc hr hs => ?_⟩
  · obtain ⟨hop, hch⟩ := OpWord.op_ch_of_header (w := ⟨h, [w]⟩) (by decide) hh
    exact decode_eq_ok_iff.mpr ⟨hop, hch, w, rfl, Report.ofCode?_bitField_of_mod hw, rfl⟩
  · have hdrive (r : Report) := exec_drive_run (ok := true) r hc hr rfl
    have hgood := writeFails_of_good s.params
    refine ⟨exec_drive_noChange hc hr rfl, hdrive _, ?_, fun hl => ?_, fun hl => ?_⟩
    · rw [hdrive, driveChannel_of_write_good (writesLines_retract s.params c) hgood, Channel.goodWrite_of_noStatus hs]
      rfl
    · rw [hdrive, driveChannel_of_write_good (writesLines_extend hl) hgood, Channel.goodWrite_of_noStatus hs]
      rfl
    · rw [hdrive, driveChannel_extend_of_extended hl]

/-- Settles O27: with `HAS_WR_STATUS` every verdict is accepted, and a report that writes no line does not look
at it. -/
theorem driveReportsWriteStatus : Obligations.DriveReportsWriteStatus := by
  intro s ch c hc hr hs
  have hdrive (r : Report) (ok : Bool) := exec_drive_run (ok := ok) r hc hr (by rw [hs, Bool.or_true])
  refine ⟨fun ok => exec_drive_noChange hc hr (by rw [hs, Bool.or_true]), fun ok => hdrive _ ok, fun ok hl => ?_,
    fun v l d (hwrites : WritesLines s.params c v l d) => ⟨?_, ?_⟩⟩
  · rw [hdrive, driveChannel_extend_of_extended hl]
  · rw [hdrive, driveChannel_of_write_good hwrites (writeFails_of_good _), Channel.goodWrite_of_status hs]
    rfl
  · obtain ⟨a, b, n, ha, hb, hfailed⟩ := c.failedWrite_frame s.params ch.toNat l
    exact ⟨a, b, n, ha, hb, by rw [hdrive, driveChannel_of_write_bad hwrites (writeFails_of_bad hs), hfailed]⟩

/-! ### What TICK does (R118) -/

section
variable {p : Params} {ch : Nat} {ok : Bool} {limit : Nat} {c : Channel}

theorem tickExtended_of_lt (h : c.extTimer + 1 < limit) :
    tickExtended p ch ok limit c = { c with extTimer := c.extTimer + 1 } :=
  if_neg (Nat.not_le.mpr h)

theorem tickExtended_of_release_good (h : limit ≤ c.extTimer + 1) (hw : writeFails p ok = false) :
    tickExtended p ch ok limit c = { c.goodWrite p p.stopCfg with extTimer := 0, drvState := .holding } := by
  rw [tickExtended, if_pos h, hw]; rfl

theorem tickExtended_of_release_bad (h : limit ≤ c.extTimer + 1) (hw : writeFails p ok = true) :
    tickExtended p ch ok limit c = { c.failedWrite p ch p.stopCfg with extTimer := c.extTimer + 1 } := by
  rw [tickExtended, if_pos h, if_pos hw]

/-- A release without `HAS_WR_STATUS` succeeds whatever the verdict. -/
theorem tickExtended_of_release_noStatus (h : limit ≤ c.extTimer + 1) (hs : p.hasWrStatus = false) :
    tickExtended p ch ok limit c = { c.putLines p.stopCfg with extTimer := 0, drvState := .holding } := by
  rw [tickExtended_of_release_good h (writeFails_of_noStatus hs ok), Channel.goodWrite_of_noStatus hs]

end

section
variable {s : State} {ch : ChIndex} {c : Channel}

theorem exec_tick_extended {f : ChanConfig} (hc : s.channel? ch = some c) (hl : c.lines = s.params.extendCfg)
    (hf : c.cfg = some f) :
    exec (.tick ch) s = .next (s.setChannel ch (tickExtended s.params ch.toNat s.wrOk (extLimit f) c)) :=
  exec_next hc (channelEffect_tick_extended ch hl hf)

theorem exec_tick_idle (hc : s.channel? ch = some c) (hl : c.lines ≠ s.params.extendCfg) :
    exec (.tick ch) s = .next s :=
  (exec_next (i := .tick ch) hc (channelEffect_tick_idle ch hl)).trans (congrArg _ (State.setChannel_self hc))

end

/-- Settles O28: the header spells TICK, and without `HAS_WR_STATUS` a release succeeds. -/
theorem tickCountsAndReleases : Obligations.TickCountsAndReleases := by
  refine ⟨fun d ch h hh => ?_, fun s ch c hc hs =>
    ⟨exec_tick_idle hc, fun f hl hf => ⟨fun (hlt : _ < extLimit f) => ?_, fun (hge : extLimit f ≤ _) => ?_⟩⟩⟩
  · obtain ⟨hop, hch⟩ := OpWord.op_ch_of_header (w := ⟨h, []⟩) (by decide) hh
    exact decode_eq_ok_iff.mpr ⟨hop, hch, rfl⟩
  · rw [exec_tick_extended hc hl hf, tickExtended_of_lt hlt]
  · rw [exec_tick_extended hc hl hf, tickExtended_of_release_noStatus hge hs]
    rfl

/-- Settles O29: the tick that reaches the limit writes the lines, and the verdict decides what becomes of that. -/
theorem tickReportsWriteStatus : Obligations.TickReportsWriteStatus := by
  refine fun s ch c hc hs => ⟨exec_tick_idle hc, fun f hl hf =>
    ⟨fun hlt => ?_, fun hge hok => ?_, fun hge hok => ?_⟩⟩ <;> rw [exec_tick_extended hc hl hf]
  · rw [tickExtended_of_lt hlt]
  · rw [hok, tickExtended_of_release_good hge (writeFails_of_good _), Channel.goodWrite_of_status hs]
    rfl
  · obtain ⟨a, b, n, ha, hb, hfailed⟩ := c.failedWrite_frame s.params ch.toNat s.params.stopCfg
    refine ⟨a, b, n, ha, hb, ?_⟩
    rw [hok, tickExtended_of_release_bad hge (writeFails_of_bad hs), hfailed]

/-! ### Sequences of ticks (R119, R124, R139) -/

section
variable {s : State} {ch : ChIndex} {ok : Nat → Bool} {c d d' : Channel} {n : Nat} {w : Bool}

theorem tickTimes_succ_of_next (hc : s.channel? ch = some c)
    (h : tickTimes ch ok n s = .next ({ s with wrOk := w }.setChannel ch d))
    (heff : channelEffect s.params (ok n) (.tick ch) d = .next d') :
    tickTimes ch ok (n + 1) s = .next ({ s with wrOk := ok n }.setChannel ch d') := by
  have hd : ({ s with wrOk := ok n }.setChannel ch d).channel? ch = some d :=
    State.channel?_setChannel_self (s := { s with wrOk := ok n }) hc d
  rw [tickTimes_succ, h]
  exact (exec_next (i := .tick ch) hd heff).trans (congrArg _ (State.setChannel_setChannel ..))

/-- An induction over the ticks of a channel: `P k` holds of it after `k` of them, if it holds before the first and each
takes effect and leads from `P k` to `P (k + 1)`. -/
theorem tickTimes_next {P : Nat → Channel → Prop} (hc : s.channel? ch = some c) (hzero : P 0 c)
    (hstep : ∀ k d, k < n → P k d → ∃ d', channelEffect s.params (ok k) (.tick ch) d = .next d' ∧ P (k + 1) d') :
    ∃ d, tickTimes ch ok n s = .next ({ s with wrOk := if n = 0 then s.wrOk else ok (n - 1) }.setChannel ch d) ∧
      P n d := by
  induction n with
  | zero => exact ⟨c, by rw [tickTimes_zero, if_pos rfl]; exact congrArg _ (State.setChannel_self hc).symm, hzero⟩
  | succ n ih =>
    obtain ⟨d, hticks, hP⟩ := ih fun k d hk => hstep k d (by omega)
    obtain ⟨d', heff, hP'⟩ := hstep n d (by omega) hP
    exact ⟨d', tickTimes_succ_of_next hc hticks heff, hP'⟩

end

/-- Settles O30: every tick before the limit counts, and the tick that reaches it releases. -/
theorem extensionLastsExactlyTheLimit : Obligations.ExtensionLastsExactlyTheLimit := by
  intro s ch c f ok hc hs hf hl hlt left
  have hcount (n : Nat) (hn : n < left) : tickTimes ch ok n s =
      .next ({ s with wrOk := if n = 0 then s.wrOk else ok (n - 1) }.setChannel ch
        { c with extTimer := c.extTimer + n }) := by
    obtain ⟨d, hticks, rfl⟩ := tickTimes_next (ok := ok) (n := n)
      (P := fun k d => d = { c with extTimer := c.extTimer + k }) hc rfl fun k d hk hd => by
        subst hd
        refine ⟨_, channelEffect_tick_extended ch hl hf, tickExtended_of_lt ?_⟩
        change c.extTimer + k + 1 < extLimit f
        omega
    exact hticks
  refine ⟨hcount, ?_⟩
  obtain ⟨m, hm⟩ : ∃ m, left = m + 1 := Nat.exists_eq_add_one.mpr (by omega)
  have hlast : extLimit f ≤ ({ c with extTimer := c.extTimer + m } : Channel).extTimer + 1 := by
    change extLimit f ≤ c.extTimer + m + 1
    omega
  rw [hm]
  refine tickTimes_succ_of_next hc (hcount m (by omega)) ?_
  rw [channelEffect_tick_extended (c := { c with extTimer := c.extTimer + m }) ch hl hf,
    tickExtended_of_release_noStatus hlast hs]
  rfl

/-- Channel `d` after `n` failed releases of channel `c`: the timer counted on and nothing but `wr_fault` and the pins
changed besides. -/
structure ReleaseFailed (c : Channel) (n : Nat) (d : Channel) : Prop where
  configured : d.cfg = c.cfg
  lines : d.lines = c.lines
  timer : d.extTimer = c.extTimer + n
  drvState : d.drvState = c.drvState
  lastCmd : d.lastCmd = c.lastCmd
  recorded : 0 < n → d.wrFault = true

theorem ReleaseFailed.tick {p : Params} {ch : Nat} {limit n : Nat} {c d : Channel} (h : ReleaseFailed c n d)
    (hlim : limit ≤ c.extTimer + 1) (hs : p.hasWrStatus = true) :
    ReleaseFailed c (n + 1) (tickExtended p ch false limit d) := by
  have htimer := h.timer
  rw [tickExtended_of_release_bad (by omega) (writeFails_of_bad hs)]
  exact ⟨h.configured, h.lines, congrArg (· + 1) htimer, h.drvState, h.lastCmd, fun _ => rfl⟩

/-- Settles O60: at the limit every tick releases; the first `n` fail, which leaves the channel at the limit, and the
next one does not. -/
theorem failedReleaseIsRetriedOnEveryTick : Obligations.FailedReleaseIsRetriedOnEveryTick := by
  intro s ch c f ok n hc hs hf hl hlim hbad hgood
  have htick {k : Nat} {d : Channel} (hd : ReleaseFailed c k d) (b : Bool) :=
    channelEffect_tick_extended (ok := b) ch (hd.lines.trans hl) (hd.configured.trans hf)
  obtain ⟨c₁, hticks, hfailed⟩ := tickTimes_next (ok := ok) (n := n) (P := ReleaseFailed c) hc
    ⟨rfl, rfl, rfl, rfl, rfl, fun h => absurd h (lt_irrefl 0)⟩ fun k d hk hd => by
      rw [hbad k hk]
      exact ⟨_, htick hd false, hd.tick hlim hs⟩
  have htimer := hfailed.timer
  have hrelease := htick hfailed (ok n)
  rw [hgood, tickExtended_of_release_good (by omega) (writeFails_of_good _), Channel.goodWrite_of_status hs,
    ← hgood] at hrelease
  have hreleased := tickTimes_succ_of_next hc hticks hrelease
  rw [hgood] at hreleased
  exact ⟨_, c₁, _, hticks, State.channel?_setChannel_self (s := { s with wrOk := _ }) hc c₁, hfailed.lines, htimer,
    hfailed.drvState, hfailed.lastCmd, hfailed.recorded, hreleased, rfl, rfl, rfl, rfl, rfl, hfailed.lastCmd, rfl⟩

/-! ### Sequences of stable commands (R120, R123) -/

theorem execAll_cons_of_next {i : Instr} {s u : State} (h : exec i s = .next u) (is : List Instr) :
    execAll (i :: is) s = execAll is u := by
  rw [execAll_cons, h]; rfl

/-- A DRIVE with a good verdict on a running channel, and what follows it. -/
theorem execAll_drive_cons {s : State} {ch : ChIndex} {c : Channel} (hc : s.channel? ch = some c)
    (hr : c.chState = .run) (r : Report) (is : List Instr) :
    execAll (.drive ch r true :: is) s =
      execAll is (s.setChannel ch (driveChannel s.params ch.toNat true r c)) :=
  execAll_cons_of_next (exec_drive_run r hc hr rfl) is

/-- Settles O32: the RETRACT writes its lines whatever the EXTEND left, and the HOLD writes none. -/
theorem roundTripEndsRetracted : Obligations.RoundTripEndsRetracted := by
  intro s ch c hc hr hs
  have hdrive (d : Channel) (hd : d.chState = .run) (r : Report) (is : List Instr) :=
    execAll_drive_cons (State.channel?_setChannel_self hc d) hd r is
  simp only [State.setChannel_params, State.setChannel_setChannel] at hdrive
  let ce := driveChannel s.params ch.toNat true (.stable .extend) c
  let cr := driveChannel s.params ch.toNat true (.stable .retract) ce
  have hce : ce.chState = .run := (driveChannel_chState ..).trans hr
  have hcr : cr.chState = .run := (driveChannel_chState ..).trans hce
  have hretracted : cr.lines = s.params.retractCfg := by
    change (driveChannel _ _ _ _ ce).lines = _
    rw [driveChannel_of_write_good (writesLines_retract s.params ce) (writeFails_of_good _)]
    rfl
  refine ⟨{ cr with lastCmd := .cmd .hold, drvState := .holding }, cr, ?_, ?_, rfl, hretracted, rfl, rfl⟩
  · rw [execAll_drive_cons hc hr, hdrive ce hce]
    rfl
  · rw [execAll_drive_cons hc hr, hdrive ce hce, hdrive cr hcr]
    rfl

end Sys2Proof.Machine
end

section
/-!
What a POLL does with the report of its test (R104, R120, R124): never a second delivery of the last command, and the
same report again after a failed write.
-/

namespace Sys2Proof.Machine

theorem State.setChannel_inj {s : State} {ch : ChIndex} {c a b : Channel} (hc : s.channel? ch = some c)
    (h : s.setChannel ch a = s.setChannel ch b) : a = b := by
  have ha := State.channel?_setChannel_self hc a
  rw [h, State.channel?_setChannel_self hc b] at ha
  exact (Option.some.inj ha).symm

/-- An operation on a channel the device has replaces that channel by its effect. -/
theorem exec_eq_next_of_channel {i : Instr} {s t : State} {ch : ChIndex} {c : Channel} (hi : i.channel = ch)
    (hc : s.channel? ch = some c) (h : exec i s = .next t) :
    ∃ c', channelEffect s.params s.wrOk i c = .next c' ∧ t = s.setChannel ch c' := by
  obtain rfl := hi
  rcases exec_eq_next h with ⟨hnone, -⟩ | ⟨d, c', hd, heff, rfl⟩
  · rw [hc] at hnone; cases hnone
  · obtain rfl := Option.some.inj (hc.symm.trans hd)
    exact ⟨c', heff, rfl⟩

theorem execAll_cons_eq_next {i : Instr} {is : List Instr} {s t : State} (h : execAll (i :: is) s = .next t) :
    ∃ u, exec i s = .next u ∧ execAll is u = .next t := by
  rw [execAll_cons] at h
  cases he : exec i s with
  | next u => exact ⟨u, rfl, by rwa [he] at h⟩
  | fault e => rw [he] at h; cases h
  | refused e => rw [he] at h; cases h

section
variable {p : Params} {f : ChanConfig} {ok : Bool} {c c' : Channel} {us : List Capture} {v x : Cmd}

/-- What a POLL can do: nothing, or the pipeline on its samples. -/
theorem channelEffect_poll_eq_next {ch : ChIndex} {rs : List Capture}
    (h : channelEffect p ok (.poll ch rs) c = .next c') :
    c' = c ∨ ∃ f us, c.chState = .run ∧ c.cfg = some f ∧ c' = pollChannel p ch.toNat ok f us c := by
  simp only [channelEffect] at h
  rcases Channel.whenRun_eq_next h with rfl | ⟨hr, h⟩
  · exact .inl rfl
  · obtain ⟨f, hf, h⟩ := Channel.withCfg_eq_next h
    split at h
    next => cases h; exact .inl rfl
    next us _ => cases h; exact .inr ⟨f, us, hr, hf, rfl⟩

theorem exec_poll_run {s : State} {ch : ChIndex} {rs : List Capture} (hc : s.channel? ch = some c)
    (hr : c.chState = .run) (hf : c.cfg = some f) (hlen : f.nsamp ≤ rs.length) :
    exec (.poll ch rs) s =
      .next (s.setChannel ch (pollChannel s.params ch.toNat s.wrOk f (rs.take f.nsamp) c)) :=
  exec_next hc (channelEffect_poll_run ch hr hf (samples?_of_le hlen))

/-- The channel that a POLL hands to its driver: the decoded command `v` pushed and tested, and the latches of the
measurement. -/
def pollDebounced (f : ChanConfig) (v : Cmd) (a k : Nat) (m : Meas) (b : Bool) (c : Channel) : Channel :=
  { debounceChannel f v c with acc := a, k := k, meas := m, nosig := b, cmd := v }

/-- A POLL whose measurement decodes to `v`: the driver acts on the report of the push of `v` (R136). -/
theorem pollChannel_eq_drive (ch : Nat) (ok : Bool) (hv : position p f (measureChannel p f us c).meas = v) :
    ∃ a k m b, pollChannel p ch ok f us c =
      { driveChannel p ch ok (stableTest f.hcap (pushCmd f.hcap v c)) (pollDebounced f v a k m b c) with
        phase := .idle } := by
  obtain ⟨a, k, m, b, hm, hpoll⟩ := pollChannel_stages p ch ok f us c
  obtain rfl : position p f m = v := by rw [← hv, hm]
  exact ⟨a, k, m, b, hpoll⟩

theorem pollChannel_rpt (ch : Nat) (ok : Bool) (hv : position p f (measureChannel p f us c).meas = v) :
    (pollChannel p ch ok f us c).rpt = stableTest f.hcap (pushCmd f.hcap v c) := by
  obtain ⟨a, k, m, b, hpoll⟩ := pollChannel_eq_drive ch ok hv
  rw [hpoll, driveChannel_frame]
  rfl

/-- The last delivered command is not reported again (R103 (c), R104). -/
theorem ne_lastCmd_of_stableTest {hcap : Nat} (h : stableTest hcap c = .stable x) : LastCmd.cmd x ≠ c.lastCmd := by
  unfold stableTest at h
  split at h
  next htest =>
    obtain ⟨-, -, hne⟩ := htest
    cases h
    exact hne
  next => cases h

end

/-! ### No second EXTEND (R120) -/

/-- The extension is over, or was never asserted, and EXTEND was the last delivered command. -/
structure Released (p : Params) (c : Channel) : Prop where
  delivered : c.lastCmd = .cmd .extend
  lines : c.lines ≠ p.extendCfg

section
variable {p : Params} {f : ChanConfig} {ok : Bool} {c c' : Channel} {us : List Capture}

/-- A POLL on a released channel leaves it released or delivers another command: its report is not EXTEND. -/
theorem Released.poll (h : Released p c) (ch : Nat) :
    Released p (pollChannel p ch ok f us c) ∨ (pollChannel p ch ok f us c).lastCmd = .cmd .retract ∨
      (pollChannel p ch ok f us c).lastCmd = .cmd .hold := by
  obtain ⟨a, k, m, b, hpoll⟩ := pollChannel_eq_drive (us := us) ch ok rfl
  rw [hpoll]
  cases hrpt : stableTest f.hcap (pushCmd f.hcap (position p f (measureChannel p f us c).meas) c) with
  | noChange => exact .inl ⟨h.delivered, h.lines⟩
  | stable x =>
    cases x with
    | hold => exact .inr (.inr rfl)
    | extend =>
      have hne := ne_lastCmd_of_stableTest hrpt
      exact absurd h.delivered.symm hne
    | retract =>
      cases hw : writeFails p ok with
      | true =>
        rw [driveChannel_of_write_bad (writesLines_retract ..) hw]
        exact .inl ⟨h.delivered, h.lines⟩
      | false =>
        rw [driveChannel_of_write_good (writesLines_retract ..) hw]
        exact .inr (.inl rfl)

theorem Released.channelEffect {ch : ChIndex} {i : Instr} (h : Released p c) (hi : i = .tick ch ∨ ∃ rs, i = .poll ch rs)
    (he : channelEffect p ok i c = .next c') :
    Released p c' ∨ c'.lastCmd = .cmd .retract ∨ c'.lastCmd = .cmd .hold := by
  rcases hi with rfl | ⟨rs, rfl⟩
  · rw [channelEffect_tick_idle ch h.lines] at he
    cases he
    exact .inl h
  · rcases channelEffect_poll_eq_next he with rfl | ⟨f, us, -, -, rfl⟩
    · exact .inl h
    · exact h.poll ch.toNat

end

/-- Settles O31: the first operation after which the channel is not released delivered another command. -/
theorem reextensionNeedsAnotherCommand : Obligations.ReextensionNeedsAnotherCommand := by
  intro s t ch c c' ops hc hlast hl hops hexec hc' hl'
  induction ops generalizing s c with
  | nil =>
    cases hexec
    obtain rfl := Option.some.inj (hc.symm.trans hc')
    exact absurd hl' hl
  | cons i is ih =>
    have hi := hops i List.mem_cons_self
    have hch : i.channel = ch := by rcases hi with rfl | ⟨rs, rfl⟩ <;> rfl
    obtain ⟨u, hfirst, hrest⟩ := execAll_cons_eq_next hexec
    obtain ⟨d, heff, rfl⟩ := exec_eq_next_of_channel hch hc hfirst
    have hd := State.channel?_setChannel_self hc d
    rcases Released.channelEffect ⟨hlast, hl⟩ hi heff with hreleased | hother
    · obtain ⟨before, after, m, cm, rfl, hbefore, hcm⟩ := ih (s.setChannel ch d) d hd hreleased.delivered
        hreleased.lines (fun j hj => hops j (List.mem_cons_of_mem _ hj)) hrest hl'
      exact ⟨i :: before, after, m, cm, rfl, (execAll_cons_of_next hfirst before).trans hbefore, hcm⟩
    · exact ⟨[i], is, _, d, rfl, execAll_cons_of_next hfirst [], hd, hother⟩

/-! ### The same command again after a failed write (R124) -/

section
variable {p : Params} {f : ChanConfig} {c d : Channel} {v x : Cmd} {us : List Capture} {l : LineCfg} {st : DrvState}

theorem WritesLines.congr (h : WritesLines p c x l st) (hl : d.lines = c.lines) : WritesLines p d x l st := by
  rwa [WritesLines, hl]

/-- A full window of a command that was not delivered: one more push of it is reported too. -/
theorem RunsWith.stableTest_push_of_stable (h : RunsWith p f c) (hs : stableTest f.hcap c = .stable x) :
    stableTest f.hcap (pushCmd f.hcap x c) = .stable x := by
  obtain ⟨hfull, hall, hne⟩ := (h.stableTest_eq_stable_iff x).mp hs
  obtain ⟨n, hn⟩ : ∃ n, f.hcap = n + 1 := Nat.exists_eq_add_one.mpr h.hcap_pos
  have hwindow : c.window f.hcap = List.replicate (1 + n) x :=
    List.eq_replicate_iff.mpr ⟨by rw [Channel.length_window, hfull, if_neg (lt_irrefl _)]; omega, hall⟩
  refine h.stableTest_push_of_agreeing hn.symm ?_ hne
  rw [hwindow, List.replicate_add]
  exact List.suffix_append _ _

/-- What a POLL whose line write failed leaves of channel `c`. -/
structure WriteRefused (c d : Channel) : Prop where
  lines : d.lines = c.lines
  extTimer : d.extTimer = c.extTimer
  lastCmd : d.lastCmd = c.lastCmd
  drvState : d.drvState = c.drvState
  wrFault : d.wrFault = true

theorem pollChannel_of_write_bad (ch : Nat) (hs : p.hasWrStatus = true)
    (hv : position p f (measureChannel p f us c).meas = v)
    (hrpt : stableTest f.hcap (pushCmd f.hcap v c) = .stable x) (hw : WritesLines p c x l st) :
    WriteRefused c (pollChannel p ch false f us c) ∧
      stableTest f.hcap (pollChannel p ch false f us c) = .stable x := by
  obtain ⟨a, k, m, b, hpoll⟩ := pollChannel_eq_drive ch false hv
  have hw' : WritesLines p (pollDebounced f v a k m b c) x l st := hw.congr rfl
  rw [hpoll, hrpt, driveChannel_of_write_bad hw' (writeFails_of_bad hs)]
  exact ⟨⟨rfl, rfl, rfl, rfl, rfl⟩, hrpt⟩

/-- What a POLL whose line write of `l` for command `x` was good leaves. -/
structure WriteDone (x : Cmd) (l : LineCfg) (st : DrvState) (d : Channel) : Prop where
  lines : d.lines = l
  pinA : d.pinA = l.dirA
  pinB : d.pinB = l.dirB
  extTimer : d.extTimer = 0
  lastCmd : d.lastCmd = .cmd x
  drvState : d.drvState = st
  wrFault : d.wrFault = false

theorem pollChannel_of_write_good (ch : Nat) (hs : p.hasWrStatus = true)
    (hv : position p f (measureChannel p f us c).meas = v)
    (hrpt : stableTest f.hcap (pushCmd f.hcap v c) = .stable x) (hw : WritesLines p c x l st) :
    WriteDone x l st (pollChannel p ch true f us c) := by
  obtain ⟨a, k, m, b, hpoll⟩ := pollChannel_eq_drive ch true hv
  have hw' : WritesLines p (pollDebounced f v a k m b c) x l st := hw.congr rfl
  rw [hpoll, hrpt, driveChannel_of_write_good hw' (writeFails_of_good p), Channel.goodWrite_of_status hs]
  exact ⟨rfl, rfl, rfl, rfl, rfl, rfl, rfl⟩

end

/-- Settles O36: after the failed write the window is still full of the reported command, which was not delivered. -/
theorem failedWriteIsRetriedByTheNextPoll : Obligations.FailedWriteIsRetriedByTheNextPoll := by
  intro s ch c c' f rs x hc hinv hr hf hlen hs hok hexec hrpt hx hext l
  have hrun : RunsWith s.params f c := ⟨hinv, hr, hf⟩
  have hwrites : WritesLines s.params c x l (if x = .extend then .extending else .retracting) := by
    cases x with
    | hold => exact absurd rfl hx
    | retract => exact writesLines_retract ..
    | extend => exact writesLines_extend (hext rfl)
  rw [exec_poll_run hc hr hf hlen, hok] at hexec
  obtain rfl := State.setChannel_inj hc (Host.Outcome.next.inj hexec)
  rw [pollChannel_rpt _ _ rfl] at hrpt
  obtain ⟨hfailed, hstands⟩ := pollChannel_of_write_bad ch.toNat hs rfl hrpt hwrites
  have hrun' := hrun.poll ch.toNat false (rs.take f.nsamp)
  generalize pollChannel s.params ch.toNat false f (rs.take f.nsamp) c = c' at hfailed hstands hrun' ⊢
  have hagain := hrun'.stableTest_push_of_stable hstands
  have hwrites' := hwrites.congr hfailed.lines
  refine ⟨hfailed.wrFault, hfailed.lastCmd, hfailed.lines, hfailed.drvState, hfailed.extTimer,
    fun rs' ok hlen' hpos => ⟨pollChannel s.params ch.toNat ok f (rs'.take f.nsamp) c', ?_, ?_, ?_, ?_⟩⟩
  · have hc' : ({ s.setChannel ch c' with wrOk := ok } : State).channel? ch = some c' :=
      State.channel?_setChannel_self hc c'
    exact (exec_poll_run hc' hrun'.running hrun'.configured hlen').trans
      (congrArg _ (State.setChannel_setChannel { s with wrOk := ok } ..))
  · rw [pollChannel_rpt _ _ hpos, hagain]
  · rintro rfl
    obtain ⟨hlines, hpinA, hpinB, htimer, hlast, hdrv, hwr⟩ :=
      pollChannel_of_write_good ch.toNat hs hpos hagain hwrites'
    exact ⟨hlines, hpinA, hpinB, htimer, hlast, hdrv, hwr⟩
  · rintro rfl
    obtain ⟨hretried, -⟩ := pollChannel_of_write_bad ch.toNat hs hpos hagain hwrites'
    exact ⟨hretried.lines.trans hfailed.lines, hretried.extTimer.trans hfailed.extTimer,
      hretried.lastCmd.trans hfailed.lastCmd, hretried.drvState.trans hfailed.drvState, hretried.wrFault⟩

end Sys2Proof.Machine
end

section
/-!
The runs under the host before the `HCAP`-th POLL of a channel is presented (R123 (a), R135, R180). Whatever the order
in which RESET, INIT, TICK and POLL are performed, the commands in the window and the POLLs still to come are not more than
the POLLs presented, so that too few commands are in the window for a report.
-/

namespace Sys2Proof.Machine

/-! ### The POLLs that the host presents (R140, R141) -/

/-- The operations that the host and the time base present. -/
inductive HostOp (cfgs : ChIndex → ChanConfig) : Instr → Prop
  | reset (ch : ChIndex) : HostOp cfgs (.reset ch)
  | init (ch : ChIndex) : HostOp cfgs (.init ch (cfgs ch))
  | poll (ch : ChIndex) (rs : List Capture) : HostOp cfgs (.poll ch rs)
  | tick (ch : ChIndex) : HostOp cfgs (.tick ch)

/-- The word is a POLL of channel `ch` (R63, R64). -/
def isPollOf (ch : ChIndex) (q : Presented) : Bool := q.word.op == 3 && q.word.ch == ch

/-- `k` POLLs of channel `ch` may be among the host's first `n` operations: the `k`-th of them is its operation number
`(k + 1) * nch + ch`, counted from 0. -/
def PollsPresented (nch : Nat) (ch : ChIndex) (n k : Nat) : Prop := k = 0 ∨ (k + 1) * nch + ch.toNat < n

section
variable {nch n k j : Nat} {ch : ChIndex} {cfgs : ChIndex → ChanConfig} {rs : List Capture}

theorem hostOp_hostIssue (nch : Nat) (cfgs : ChIndex → ChanConfig) (rs : List Capture) (n : Nat) :
    HostOp cfgs (hostIssue nch cfgs rs n) := by
  simp only [hostIssue]
  split
  · exact .reset _
  · split
    · exact .init _
    · exact .poll _ _

theorem le_of_hostIssue_opCode (h : (hostIssue nch cfgs rs n).opCode = 3) : 2 * nch ≤ n := by
  simp only [hostIssue] at h
  split at h
  · cases h
  · split at h
    · cases h
    · omega

theorem isPollOf_encode_iff (durW : Nat) (i : Instr) (ok : Bool) :
    isPollOf ch ⟨encode durW i, ok⟩ = true ↔ i.opCode = 3 ∧ i.channel = ch := by
  simp [isPollOf, OpWord.op_encode, OpWord.ch_encode]

theorem isPollOf_of_decode {durW : Nat} {q : Presented} {i : Instr} (h : decode durW q.word = .ok i)
    (hpoll : i.opCode = 3) : isPollOf i.channel q = true := by
  obtain ⟨hop, hch, -⟩ := decode_eq_ok_iff.mp h
  simp [isPollOf, hop, hpoll, hch]

theorem PollsPresented.mono (h : PollsPresented nch ch n k) (hj : j ≤ k) : PollsPresented nch ch n j := by
  rcases h with rfl | h
  · exact .inl (by omega)
  · have : (j + 1) * nch ≤ (k + 1) * nch := Nat.mul_le_mul_right nch (by omega)
    exact .inr (by omega)

/-- The host's next operation. -/
theorem PollsPresented.next (h : PollsPresented nch ch n k) : PollsPresented nch ch (n + 1) k :=
  h.imp_right Nat.lt_succ_of_lt

/-- The host's next operation, if it is a POLL of the channel: it comes one round after the last one. -/
theorem PollsPresented.next_poll (h : PollsPresented nch ch n k) (hlt : ch.toNat < nch) (hle : nch ≤ 16)
    (hch : hostChannel nch n = ch) (hn : 2 * nch ≤ n) : PollsPresented nch ch (n + 1) (k + 1) := by
  have hmod : n % nch = ch.toNat := by
    have := Nat.mod_lt n (Nat.zero_lt_of_lt hlt)
    have hto := congrArg BitVec.toNat hch
    rw [hostChannel, BitVec.toNat_ofNat] at hto
    omega
  have hdiv : n / nch * nch + ch.toNat = n := by rw [← hmod]; exact Nat.div_add_mod' n nch
  have hround : k + 2 ≤ n / nch := by
    rcases h with rfl | h
    · exact (Nat.le_div_iff_mul_le (by omega)).mpr hn
    · exact Nat.lt_of_mul_lt_mul_right (a := nch) (by omega)
  have : (k + 1 + 1) * nch ≤ n / nch * nch := Nat.mul_le_mul_right nch hround
  exact .inr (by omega)

/-- Before the `HCAP`-th POLL is presented, fewer than `HCAP` are. -/
theorem PollsPresented.lt {hcap : Nat} (h : PollsPresented nch ch n k) (hk : 0 < k)
    (hn : n ≤ (hcap + 1) * nch + ch.toNat) : k < hcap := by
  rcases h with rfl | h
  · omega
  · have : k + 1 < hcap + 1 := Nat.lt_of_mul_lt_mul_right (a := nch) (by omega)
    omega

end

/-! ### What these operations do to a channel -/

section
variable {p : Params} {f : ChanConfig} {ok : Bool} {c c' : Channel} {ch : ChIndex} {cfgs : ChIndex → ChanConfig}
  {i : Instr}

theorem channelEffect_tick_eq_next (h : channelEffect p ok (.tick ch) c = .next c') :
    c' = c ∨ ∃ f, c.lines = p.extendCfg ∧ c' = tickExtended p ch.toNat ok (extLimit f) c := by
  by_cases hl : c.lines = p.extendCfg
  · simp only [channelEffect, if_pos hl] at h
    obtain ⟨f, -, h⟩ := Channel.withCfg_eq_next h
    cases h
    exact .inr ⟨f, hl, rfl⟩
  · rw [channelEffect_tick_idle ch hl] at h
    cases h
    exact .inl rfl

/-- What INIT writes (R132). -/
theorem initChannel_frame (p : Params) (f : ChanConfig) (c : Channel) :
    ∃ g st q, (g = c.cfg ∨ g = some f) ∧ initChannel p f c = { c with cfg := g, chState := st, cfgCause := q } := by
  have ignored (h : initChannel p f c = c) :
      ∃ g st q, (g = c.cfg ∨ g = some f) ∧ initChannel p f c = { c with cfg := g, chState := st, cfgCause := q } :=
    ⟨c.cfg, c.chState, c.cfgCause, .inl rfl, h⟩
  cases hs : c.chState with
  | run | cfgFault => exact ignored (by simp only [initChannel, hs])
  | uninit =>
    simp only [initChannel, hs]
    split <;> exact ⟨some f, _, _, .inr rfl, rfl⟩

/-- What an operation of the host or the time base can do to its channel. -/
theorem HostOp.effect (hi : HostOp cfgs i) (h : channelEffect p ok i c = .next c') :
    c' = c ∨ c' = resetChannel c ∨ c' = initChannel p (cfgs i.channel) c ∨
      (∃ f, c.lines = p.extendCfg ∧ c' = tickExtended p i.channel.toNat ok (extLimit f) c) ∨
      ∃ f us, i.opCode = 3 ∧ c.cfg = some f ∧ c' = pollChannel p i.channel.toNat ok f us c := by
  cases hi with
  | reset ch => cases h; exact .inr (.inl rfl)
  | init ch => cases h; exact .inr (.inr (.inl rfl))
  | poll ch rs =>
    rcases channelEffect_poll_eq_next h with rfl | ⟨f, us, -, hf, rfl⟩
    · exact .inl rfl
    · exact .inr (.inr (.inr (.inr ⟨f, us, rfl, hf, rfl⟩)))
  | tick ch =>
    rcases channelEffect_tick_eq_next h with rfl | ⟨f, hl, rfl⟩
    · exact .inl rfl
    · exact .inr (.inr (.inr (.inl ⟨f, hl, rfl⟩)))

theorem pollChannel_cfg (p : Params) (ch : Nat) (ok : Bool) (f : ChanConfig) (us : List Capture) (c : Channel) :
    (pollChannel p ch ok f us c).cfg = c.cfg := by
  obtain ⟨a, k, m, b, hpoll⟩ := pollChannel_eq_drive (us := us) ch ok rfl
  rw [hpoll, driveChannel_frame]
  rfl

theorem pollChannel_cnt_le (p : Params) (ch : Nat) (ok : Bool) (f : ChanConfig) (us : List Capture) (c : Channel) :
    (pollChannel p ch ok f us c).cnt ≤ c.cnt + 1 := by
  obtain ⟨a, k, m, b, hpoll⟩ := pollChannel_eq_drive (us := us) ch ok rfl
  rw [hpoll, driveChannel_frame]
  change (if c.cnt < f.hcap then c.cnt + 1 else c.cnt) ≤ c.cnt + 1
  split <;> omega

theorem HostOp.keeps_configuration (hi : HostOp cfgs i) (h : channelEffect p ok i c = .next c')
    (hc : ∀ g, c.cfg = some g → g = cfgs i.channel) : ∀ g, c'.cfg = some g → g = cfgs i.channel := by
  rcases hi.effect h with rfl | rfl | rfl | ⟨f, -, rfl⟩ | ⟨f, us, -, -, rfl⟩
  · exact hc
  · exact nofun
  · obtain ⟨g, st, q, rfl | rfl, hinit⟩ := initChannel_frame p (cfgs i.channel) c
    · rw [hinit]; exact hc
    · rw [hinit]; exact fun g hg => (Option.some.inj hg).symm
  · rw [tickExtended_cfg]; exact hc
  · rw [pollChannel_cfg]; exact hc

/-- Only a POLL adds a command to the window, and it adds one. -/
theorem HostOp.cnt_le (hi : HostOp cfgs i) (h : channelEffect p ok i c = .next c') :
    c'.cnt ≤ c.cnt + if i.opCode = 3 then 1 else 0 := by
  rcases hi.effect h with rfl | rfl | rfl | ⟨f, -, rfl⟩ | ⟨f, us, hpoll, -, rfl⟩
  · exact Nat.le_add_right ..
  · exact Nat.zero_le _
  · obtain ⟨g, st, q, -, hinit⟩ := initChannel_frame p (cfgs i.channel) c
    rw [hinit]
    exact Nat.le_add_right ..
  · rw [tickExtended_frame]
    exact Nat.le_add_right ..
  · rw [if_pos hpoll]
    exact pollChannel_cnt_le ..

/-- A channel at SAFE_DEFAULT (R111, R172). -/
structure AtSafeDefault (c : Channel) : Prop where
  lines : c.lines = safeLines
  pinA : c.pinA = .high
  pinB : c.pinB = .low
  drvState : c.drvState = .safeDefault
  lastCmd : c.lastCmd = .none

/-- SAFE_DEFAULT is not the extend configuration (R6). -/
theorem AtSafeDefault.not_extended (h : AtSafeDefault c) (hp : p.wf) : c.lines ≠ p.extendCfg := by
  obtain ⟨-, hsafe, hne, -⟩ := hp
  rw [h.lines, ← hsafe]
  exact hne

/-- A POLL that does not fill the window drives nothing (R103 (a), R113). -/
theorem AtSafeDefault.poll (h : AtSafeDefault c) (ch : Nat) (ok : Bool) (us : List Capture)
    (hlt : c.cnt + 1 < f.hcap) : AtSafeDefault (pollChannel p ch ok f us c) := by
  obtain ⟨a, k, m, b, hpoll⟩ := pollChannel_eq_drive (us := us) ch ok rfl
  rw [hpoll, stableTest_of_cnt_ne (by rw [Channel.push_cnt]; split <;> omega)]
  exact ⟨h.lines, h.pinA, h.pinB, h.drvState, h.lastCmd⟩

theorem HostOp.atSafeDefault (hi : HostOp cfgs i) (hp : p.wf) (h : channelEffect p ok i c = .next c')
    (hc : AtSafeDefault c) (hlt : ∀ f, i.opCode = 3 → c.cfg = some f → c.cnt + 1 < f.hcap) : AtSafeDefault c' := by
  rcases hi.effect h with rfl | rfl | rfl | ⟨f, hl, -⟩ | ⟨f, us, hpoll, hf, rfl⟩
  · exact hc
  · exact ⟨rfl, rfl, rfl, rfl, rfl⟩
  · obtain ⟨g, st, q, -, hinit⟩ := initChannel_frame p (cfgs i.channel) c
    rw [hinit]
    exact ⟨hc.lines, hc.pinA, hc.pinB, hc.drvState, hc.lastCmd⟩
  · exact absurd hl (hc.not_extended hp)
  · exact hc.poll _ ok us (hlt f hpoll hf)

end

/-! ### The invariant of a run -/

/-- Channel `ch` with configuration `f` to come, after the host presented its first `n` operations, with `qs` presented
and not yet performed. -/
structure HostedChannel (p : Params) (nch : Nat) (ch : ChIndex) (f : ChanConfig) (n : Nat) (qs : List Presented)
    (c : Channel) : Prop where
  inv : ChannelInv p c
  configured : ∀ g, c.cfg = some g → g = f
  presented : PollsPresented nch ch n (c.cnt + qs.countP (isPollOf ch))
  atSafeDefault : n ≤ (f.hcap + 1) * nch + ch.toNat → AtSafeDefault c

section
variable {p : Params} {nch n : Nat} {ch : ChIndex} {f : ChanConfig} {qs : List Presented} {q : Presented} {ok : Bool}
  {c c' : Channel} {cfgs : ChIndex → ChanConfig} {i : Instr}

theorem HostedChannel.of_reset (hp : p.wf) (nch : Nat) (ch : ChIndex) (f : ChanConfig) :
    HostedChannel p nch ch f 0 [] Channel.reset :=
  ⟨channelInv_resetChannel hp Channel.reset, nofun, .inl rfl, fun _ => ⟨rfl, rfl, rfl, rfl, rfl⟩⟩

theorem HostedChannel.issue (h : HostedChannel p nch ch f n qs c) (hlt : ch.toNat < nch) (hle : nch ≤ 16) (durW : Nat)
    (rs : List Capture) (ok : Bool) :
    HostedChannel p nch ch f (n + 1) (qs ++ [⟨encode durW (hostIssue nch cfgs rs n), ok⟩]) c := by
  refine ⟨h.inv, h.configured, ?_, fun hn => h.atSafeDefault (by omega)⟩
  rw [List.countP_append, List.countP_singleton, ← Nat.add_assoc]
  split
  next hpoll =>
    rw [isPollOf_encode_iff, hostIssue_channel] at hpoll
    obtain ⟨hop, hch⟩ := hpoll
    exact h.presented.next_poll hlt hle hch (le_of_hostIssue_opCode hop)
  next => exact h.presented.next

/-- More operations presented that are no POLLs. -/
theorem HostedChannel.append (h : HostedChannel p nch ch f n qs c) {qs' : List Presented}
    (hno : ∀ q ∈ qs', ¬ isPollOf ch q = true) : HostedChannel p nch ch f n (qs ++ qs') c := by
  refine { h with presented := ?_ }
  rw [List.countP_append, List.countP_eq_zero.mpr hno]
  exact h.presented

/-- A word refused, or an operation of another channel. -/
theorem HostedChannel.drop (h : HostedChannel p nch ch f n (q :: qs) c) : HostedChannel p nch ch f n qs c := by
  refine { h with presented := h.presented.mono ?_ }
  rw [List.countP_cons]
  omega

/-- The operation presented first performed: if it is a POLL, it is one of those counted. -/
theorem HostedChannel.perform (h : HostedChannel p nch i.channel (cfgs i.channel) n (q :: qs) c) (hp : p.wf)
    (hi : HostOp cfgs i) {durW : Nat} (hq : decode durW q.word = .ok i) (he : channelEffect p ok i c = .next c') :
    HostedChannel p nch i.channel (cfgs i.channel) n qs c' := by
  have hpresented := h.presented
  rw [List.countP_cons] at hpresented
  refine ⟨h.inv.channelEffect hp he, hi.keeps_configuration he h.configured, hpresented.mono ?_,
    fun hn => hi.atSafeDefault hp he (h.atSafeDefault hn) fun g hpoll hg => ?_⟩
  · have hcnt := hi.cnt_le he
    by_cases hpoll : i.opCode = 3
    · rw [if_pos hpoll] at hcnt
      rw [if_pos (isPollOf_of_decode hq hpoll)]
      omega
    · rw [if_neg hpoll] at hcnt
      omega
  · obtain rfl := h.configured g hg
    rw [if_pos (isPollOf_of_decode hq hpoll)] at hpresented
    have := hpresented.lt (by omega) hn
    omega

end

/-- A device of `nch` channels after the host presented its first `n` operations: only words of the host and the time
base are presented, and channel `ch` is as they leave it. -/
structure HostedDevice (p : Params) (nch : Nat) (cfgs : ChIndex → ChanConfig) (ch : ChIndex) (n : Nat) (t : State) :
    Prop where
  params : t.params = p
  channels : t.nch = nch
  hostWords : ∀ q ∈ t.pending, ∀ i, decode p.durW q.word = .ok i → HostOp cfgs i
  hosted : ∀ c, t.channel? ch = some c → HostedChannel p nch ch (cfgs ch) n t.pending c

section
variable {p : Params} {nch n : Nat} {cfgs : ChIndex → ChanConfig} {ch : ChIndex} {t u : State}

/-- The word of an operation of the host spells that operation (O3). -/
theorem hostOp_of_decode_encode {durW : Nat} {i j : Instr} (hi : HostOp cfgs i) (henc : i.encodable durW = true)
    (hj : decode durW (encode durW i) = .ok j) : HostOp cfgs j := by
  rw [decodeOfEncodeIsTheOperation durW i henc] at hj
  cases hj
  exact hi

theorem HostedDevice.of_reset (hp : p.wf) (nch : Nat) (cfgs : ChIndex → ChanConfig) (ch : ChIndex) :
    HostedDevice p nch cfgs ch 0 (State.resetOf p nch) := by
  refine ⟨rfl, List.length_replicate, nofun, fun c hc => ?_⟩
  obtain rfl := List.eq_of_mem_replicate (List.mem_of_getElem? hc)
  exact .of_reset hp nch ch (cfgs ch)

theorem HostedDevice.issue (h : HostedDevice p nch cfgs ch n t) (hn : nch ≤ 16) {rs : List Capture}
    (henc : (hostIssue t.nch cfgs rs n).encodable t.params.durW = true) (ok : Bool) :
    HostedDevice p nch cfgs ch (n + 1) (t.present ⟨encode t.params.durW (hostIssue t.nch cfgs rs n), ok⟩) := by
  obtain ⟨rfl, rfl, hwords, hhosted⟩ := h
  refine ⟨rfl, rfl, fun q hq i hi => ?_, fun c hc => (hhosted c hc).issue (State.channel?_lt hc) hn _ rs ok⟩
  rcases List.mem_append.mp hq with hq | hq
  · exact hwords q hq i hi
  · obtain rfl := List.mem_singleton.mp hq
    exact hostOp_of_decode_encode (hostOp_hostIssue ..) henc hi

theorem HostedDevice.timeBase (h : HostedDevice p nch cfgs ch n t) (ok : ChIndex → Bool) :
    HostedDevice p nch cfgs ch n (t.presentAll (t.tickWords ok)) := by
  obtain ⟨rfl, rfl, hwords, hhosted⟩ := h
  refine ⟨rfl, rfl, fun q hq i hi => ?_, fun c hc => (hhosted c hc).append fun q hq => ?_⟩
  · rcases List.mem_append.mp hq with hq | hq
    · exact hwords q hq i hi
    · obtain ⟨j, -, rfl⟩ := List.mem_map.mp hq
      exact hostOp_of_decode_encode (.tick j) rfl hi
  · obtain ⟨j, -, rfl⟩ := List.mem_map.mp hq
    simp [isPollOf_encode_iff, Instr.opCode]

/-- The word presented first taken, and nothing done. -/
theorem HostedDevice.take (h : HostedDevice p nch cfgs ch n t) {q : Presented} {rest : List Presented}
    (hpend : t.pending = q :: rest) (ok : Bool) :
    HostedDevice p nch cfgs ch n { t with pending := rest, wrOk := ok } := by
  refine ⟨h.params, h.channels, fun q' hq' => h.hostWords q' (hpend ▸ List.mem_cons_of_mem q hq'), fun c hc => ?_⟩
  have hhosted := h.hosted c hc
  rw [hpend] at hhosted
  exact hhosted.drop

/-- The operation presented first performed. -/
theorem HostedDevice.exec (h : HostedDevice p nch cfgs ch n t) (hp : p.wf) {q : Presented} {rest : List Presented}
    (hpend : t.pending = q :: rest) {i : Instr} (hq : decode p.durW q.word = .ok i)
    (he : exec i { t with pending := rest, wrOk := q.wrOk } = .next u) : HostedDevice p nch cfgs ch n u := by
  have htaken := h.take hpend q.wrOk
  obtain ⟨hparams, hpending, -, hnch⟩ := exec_keeps he
  refine ⟨hparams.trans h.params, hnch.trans h.channels, hpending ▸ htaken.hostWords, fun c' hc' => ?_⟩
  rw [hpending]
  by_cases hch : i.channel = ch
  · subst hch
    rcases exec_eq_next he with ⟨-, rfl⟩ | ⟨c, d, hc, heff, rfl⟩
    · exact htaken.hosted c' hc'
    · obtain rfl := Option.some.inj ((State.channel?_setChannel_self hc d).symm.trans hc')
      have hhosted := h.hosted c hc
      rw [hpend] at hhosted
      have hi := h.hostWords q (hpend ▸ List.mem_cons_self) i hq
      exact hhosted.perform hp hi hq (h.params ▸ heff)
  · rw [exec_channel?_ne he (Ne.symm hch)] at hc'
    exact htaken.hosted c' hc'

theorem HostedDevice.step (h : HostedDevice p nch cfgs ch n t) (hp : p.wf) (hstep : step t = .next u) :
    HostedDevice p nch cfgs ch n u := by
  rcases step_eq_next hstep with ⟨-, rfl⟩ | ⟨q, rest, hpend, ⟨-, -, rfl⟩ | ⟨i, hq, he⟩⟩
  · exact h
  · exact h.take hpend q.wrOk
  · obtain ⟨hdec, -⟩ := State.decodeWord_eq_ok_iff.mp hq
    exact h.exec hp hpend (h.params ▸ hdec) he

theorem HostRun.hostedDevice (hp : p.wf) (hn : nch ≤ 16) (h : HostRun cfgs (State.resetOf p nch) n t) (ch : ChIndex) :
    HostedDevice p nch cfgs ch n t := by
  induction h with
  | start => exact .of_reset hp nch cfgs ch
  | issue n t rs ok _ _ henc ih => exact ih.issue hn henc ok
  | timeBase n t ok _ ih => exact ih.timeBase ok
  | step n t u _ hstep ih => exact ih.step hp hstep

end

/-- Settles O59: the channel is at SAFE_DEFAULT by the invariant of the run, and enabled by the channel's own. -/
theorem hostRunStaysAtSafeDefaultBeforeTheHcapthPoll :
    Obligations.HostRunStaysAtSafeDefaultBeforeTheHcapthPoll := by
  intro p nch cfgs n t ch c hp hn hrun hc hlt
  have hhosted := (hrun.hostedDevice hp hn ch).hosted c hc
  obtain ⟨hen, hpinEn⟩ := hhosted.inv.enHigh
  obtain ⟨hlines, hpinA, hpinB, hdrv, hlast⟩ := hhosted.atSafeDefault hlt
  exact ⟨hen, hlines, hpinEn, hpinA, hpinB, hdrv, hlast⟩

end Sys2Proof.Machine
end

section
/-!
The lifecycle (R130 to R133): what is ignored, and what INIT records of a configuration.
-/

namespace Sys2Proof.Machine

/-! ### What is ignored (R130, R131) -/

/-- An operation that leaves its channel as it is changes nothing. -/
theorem exec_of_effect_self {i : Instr} {s : State} {c : Channel} (hc : s.channel? i.channel = some c)
    (h : channelEffect s.params s.wrOk i c = .next c) : exec i s = .next s := by
  rw [exec_next hc h, State.setChannel_self hc]

theorem exec_nop (ch : ChIndex) (s : State) : exec (.nop ch) s = .next s := by
  cases hc : s.channel? ch with
  | none => exact exec_none hc
  | some c => exact exec_of_effect_self hc rfl

/-- Settles O10: the header spells NOP, whose effect on a channel is the channel. -/
theorem nopChangesNothing : Obligations.NopChangesNothing := by
  refine ⟨fun d ch h hh => ?_, fun s ch => exec_nop ch s⟩
  obtain ⟨hop, hch⟩ := OpWord.op_ch_of_header (w := ⟨h, []⟩) (n := 0) (by decide) hh
  exact decode_eq_ok_iff.mpr ⟨hop, hch, rfl⟩

theorem initChannel_of_not_uninit {c : Channel} (h : c.chState ≠ .uninit) (p : Params) (f : ChanConfig) :
    initChannel p f c = c := by
  cases hs : c.chState with
  | uninit => exact absurd hs h
  | run | cfgFault => simp only [initChannel, hs]

theorem exec_init_ignored {s : State} {ch : ChIndex} {c : Channel} (hc : s.channel? ch = some c)
    (h : c.chState ≠ .uninit) (f : ChanConfig) : exec (.init ch f) s = .next s :=
  exec_of_effect_self (i := .init ch f) hc (congrArg _ (initChannel_of_not_uninit h s.params f))

/-- POLL and the four operations of its stages (R64) are under the lifecycle guard. -/
theorem channelEffect_of_not_run {p : Params} {ok : Bool} {c : Channel} {i : Instr} (hr : c.chState ≠ .run)
    (hi : i.opCode = 3 ∨ 5 ≤ i.opCode) : channelEffect p ok i c = .next c := by
  cases i with
  | poll | measure | decode | debounce | drive => simp only [channelEffect, Channel.whenRun_not hr]
  | nop | reset | init | tick => simp [Instr.opCode] at hi

/-- Settles O11: the guard hands back a channel that does not run, and such a channel is not extended, so that a TICK
finds nothing to count. -/
theorem lifecycleGuardIgnores : Obligations.LifecycleGuardIgnores := by
  intro s ch c hc
  refine ⟨exec_init_ignored hc, fun hr => ?_, fun hinv hp hr => exec_tick_idle hc (hinv.not_extended_of_not_run hp hr)⟩
  have ignored (i : Instr) (hi : s.channel? i.channel = some c) (hop : i.opCode = 3 ∨ 5 ≤ i.opCode) :
      exec i s = .next s := exec_of_effect_self hi (channelEffect_of_not_run hr hop)
  refine ⟨fun rs => ignored (.poll ch rs) hc ?_, fun rs => ignored (.measure ch rs) hc ?_,
    fun m => ignored (.decode ch m) hc ?_, fun v => ignored (.debounce ch v) hc ?_,
    fun r ok => ignored (.drive ch r ok) hc ?_⟩ <;> simp [Instr.opCode]

/-! ### INIT (R132, R133) -/

/-- INIT of an uninitialized channel: the failed checks decide where it goes (R132). -/
theorem initChannel_of_uninit {c : Channel} (h : c.chState = .uninit) (p : Params) (f : ChanConfig) :
    initChannel p f c = { c with
      cfg := some f, cfgCause := cfgChecks p f
      chState := if cfgChecks p f = .empty then .run else .cfgFault } := by
  simp only [initChannel, h]
  split <;> rfl

section
variable (p : Params) (f : ChanConfig)

theorem cfgChecks_cRange_iff : (cfgChecks p f).cRange = true ↔ f.dmin < 0 ∨ f.dmax > 100 := by
  simp [cfgChecks]

theorem cfgChecks_cTol_iff : (cfgChecks p f).cTol = true ↔ f.tol < 0 ∨ f.tol ≥ 50 := by
  simp [cfgChecks]

/-- `TRAVEL` is in (0, 1] when its two numbers are positive and in order (R133). -/
theorem cfgChecks_cTravel_iff : (cfgChecks p f).cTravel = true ↔
    f.travelDen = 0 ∨ (f.travelNum : ℚ) / (f.travelDen : ℚ) ≤ 0 ∨ (f.travelNum : ℚ) / (f.travelDen : ℚ) > 1 := by
  have hcheck : (cfgChecks p f).cTravel = true ↔
      f.travelDen = 0 ∨ f.travelNum = 0 ∨ f.travelDen < f.travelNum := by simp [cfgChecks, or_assoc]
  rw [hcheck]
  rcases Nat.eq_zero_or_pos f.travelDen with hden | hden
  · simp [hden]
  · have hden' : (0 : ℚ) < f.travelDen := Nat.cast_pos.mpr hden
    have hzero : (f.travelNum : ℚ) / f.travelDen ≤ 0 ↔ f.travelNum = 0 := by
      rw [div_le_iff₀ hden', zero_mul]; exact_mod_cast Nat.le_zero
    have hone : (f.travelNum : ℚ) / f.travelDen > 1 ↔ f.travelDen < f.travelNum := by
      rw [gt_iff_lt, one_lt_div hden']; exact Nat.cast_lt
    rw [hzero, hone]

/-- `EXT_LIMIT` of R12, as a floor of the rational quotient. -/
theorem floor_extLimit : ⌊(f.travelNum : ℚ) * (f.strokeTicks : ℚ) / (f.travelDen : ℚ)⌋ = (extLimit f : ℤ) := by
  rw [← Nat.cast_mul, Rat.floor_natCast_div_natCast, extLimit, Int.natCast_div]

theorem cfgChecks_cStroke_iff : (cfgChecks p f).cStroke = true ↔ f.strokeTicks = 0 ∨ (1 ≤ f.travelDen ∧
    ⌊(f.travelNum : ℚ) * (f.strokeTicks : ℚ) / (f.travelDen : ℚ)⌋ = 0) := by
  rw [floor_extLimit, Nat.cast_eq_zero]
  simp [cfgChecks]

theorem cfgChecks_cPins_iff : (cfgChecks p f).cPins = true ↔ f.inPin = f.enPin ∨ f.inPin = f.dirAPin ∨
    f.inPin = f.dirBPin ∨ f.enPin = f.dirAPin ∨ f.enPin = f.dirBPin ∨ f.dirAPin = f.dirBPin := by
  simp only [cfgChecks, pinsClash, Bool.not_eq_true', decide_eq_false_iff_not, List.nodup_cons, List.mem_cons,
    List.not_mem_nil, or_false, List.nodup_nil, and_true, not_and_or, not_not, not_false_eq_true, or_assoc]

theorem cfgChecks_cWidth_iff : (cfgChecks p f).cWidth = true ↔
    f.freq > 0 ∧ (p.tickHz : ℚ) / f.freq ≥ (2 : ℚ) ^ p.durW := by
  simp [cfgChecks, period]

end

/-- Settles O12: the header and the image spell INIT, and its causes are the checks of R133. -/
theorem initChecksTheConfiguration : Obligations.InitChecksTheConfiguration := by
  refine ⟨fun d ch h f hh henc => ?_, fun s ch c f hc => ⟨fun hs => exec_init_ignored hc hs f, fun hs => ?_⟩⟩
  · obtain ⟨hop, hch⟩ := OpWord.op_ch_of_header (w := ⟨h, f.toWords⟩) (by decide) hh
    exact decode_eq_ok_iff.mpr ⟨hop, hch, ChanConfig.ofWords_toWords henc⟩
  · exact ⟨cfgChecks s.params f,
      exec_next (i := .init ch f) hc (congrArg _ (initChannel_of_uninit hs s.params f)),
      decide_eq_true_iff, decide_eq_true_iff, cfgChecks_cRange_iff s.params f, cfgChecks_cTol_iff s.params f,
      decide_eq_true_iff, decide_eq_true_iff, cfgChecks_cTravel_iff s.params f, cfgChecks_cStroke_iff s.params f,
      cfgChecks_cPins_iff s.params f, cfgChecks_cWidth_iff s.params f⟩

end Sys2Proof.Machine
end

section
/-!
The runs of a device (R138, R140): every operation answers a next state under the invariant, so that no step stops.
-/

namespace Sys2Proof.Machine

/-! ### Every operation and every step answers a next state -/

section
variable {p : Params} {c : Channel}

/-- A running channel with a configuration finds there what it reads (R13). -/
theorem exists_channelEffect_of_run {f : ChanConfig} (hr : c.chState = .run) (hf : c.cfg = some f) (ok : Bool)
    (i : Instr) : ∃ c', channelEffect p ok i c = .next c' := by
  cases i with
  | nop ch | reset ch | init ch g => exact ⟨_, rfl⟩
  | poll ch rs =>
    cases hs : samples? f rs with
    | none => exact ⟨c, channelEffect_poll_short ch hr hf hs⟩
    | some us => exact ⟨_, channelEffect_poll_run ch hr hf hs⟩
  | tick ch =>
    by_cases hl : c.lines = p.extendCfg
    · exact ⟨_, channelEffect_tick_extended ch hl hf⟩
    · exact ⟨c, channelEffect_tick_idle ch hl⟩
  | measure ch rs =>
    cases hs : samples? f rs with
    | none => exact ⟨c, channelEffect_measure_short ch hr hf hs⟩
    | some us => exact ⟨_, channelEffect_measure_run ch hr hf hs⟩
  | decode ch m => exact ⟨_, channelEffect_decode_run ch m hr hf⟩
  | debounce ch v => exact ⟨_, channelEffect_debounce_run ch v hr hf⟩
  | drive ch r wrOk => exact ⟨_, by rw [channelEffect, Channel.whenRun_run hr]⟩

/-- A channel that does not run and is not extended reads no configuration (R131). -/
theorem exists_channelEffect_of_not_run (hr : c.chState ≠ .run) (hl : c.lines ≠ p.extendCfg) (ok : Bool) (i : Instr) :
    ∃ c', channelEffect p ok i c = .next c' := by
  cases i with
  | nop ch | reset ch | init ch g => exact ⟨_, rfl⟩
  | tick ch => exact ⟨c, channelEffect_tick_idle ch hl⟩
  | poll | measure | decode | debounce | drive => exact ⟨c, channelEffect_of_not_run hr (by simp [Instr.opCode])⟩

theorem ChannelInv.exists_channelEffect (hp : p.wf) (h : ChannelInv p c) (ok : Bool) (i : Instr) :
    ∃ c', Machine.channelEffect p ok i c = .next c' := by
  by_cases hr : c.chState = .run
  · obtain ⟨f, hf⟩ := Option.ne_none_iff_exists'.mp (mt h.cfgWritten.mpr (by rw [hr]; decide))
    exact exists_channelEffect_of_run hr hf ok i
  · exact exists_channelEffect_of_not_run hr (h.not_extended_of_not_run hp hr) ok i

end

theorem State.Inv.channel {s : State} (h : s.Inv) {ch : ChIndex} {c : Channel} (hc : s.channel? ch = some c) :
    ChannelInv s.params c := by
  obtain ⟨-, -, hall⟩ := h
  exact hall c (List.mem_of_getElem? hc)

/-- An operation whose effect on its channel is a channel answers a next state. -/
theorem exists_exec {i : Instr} {s : State}
    (h : ∀ c, s.channel? i.channel = some c → ∃ c', channelEffect s.params s.wrOk i c = .next c') :
    ∃ t, exec i s = .next t := by
  cases hc : s.channel? i.channel with
  | none => exact ⟨s, exec_none hc⟩
  | some c =>
    obtain ⟨c', heff⟩ := h c hc
    exact ⟨_, exec_next hc heff⟩

theorem State.Inv.exists_channelEffect {s : State} (h : s.Inv) (ok : Bool) (i : Instr) {ch : ChIndex} {c : Channel}
    (hc : s.channel? ch = some c) : ∃ c', channelEffect s.params ok i c = .next c' := by
  have ⟨hp, _⟩ := h
  exact (h.channel hc).exists_channelEffect hp ok i

theorem State.Inv.exists_exec {s : State} (h : s.Inv) (i : Instr) : ∃ t, Machine.exec i s = .next t :=
  Machine.exists_exec fun _ hc => h.exists_channelEffect s.wrOk i hc

theorem State.Inv.exists_step {s : State} (h : s.Inv) : ∃ t, step s = .next t := by
  cases hq : s.pending with
  | nil => exact ⟨s, step_of_pending_nil hq⟩
  | cons q rest =>
    cases hd : s.decodeWord q.word with
    | error e => exact ⟨_, step_of_decodeWord_error hq hd⟩
    | ok i =>
      rw [step_of_decodeWord_ok hq hd]
      exact State.Inv.exists_exec (s := { s with pending := rest, wrOk := q.wrOk }) h i

/-! ### Runs -/

/-- What is presented touches no channel. -/
theorem State.Inv.present {s : State} (h : s.Inv) (q : Presented) : (s.present q).Inv := h

theorem Run.inv {s t : State} (hs : s.Inv) (h : Run s t) : t.Inv := by
  induction h with
  | start => exact hs
  | present t q _ ih => exact ih.present q
  | step t u _ hstep ih => exact stepKeepsTheInvariant t u ih hstep

/-- Settles O43: the invariant holds after reset (O41), every step keeps it (O42), and under it every step answers. -/
theorem reachableDeviceNeverStops : Obligations.ReachableDeviceNeverStops := by
  intro p nch t hp hn hrun
  have hinv : t.Inv := hrun.inv (invHoldsAfterReset p nch hp hn)
  have ⟨_, _, hall⟩ := hinv
  exact ⟨hinv, hinv.exists_step, fun c hc => (hall c hc).enHigh⟩

/-- Operations presented together are presented one after another. -/
theorem Run.presentAll {s t : State} (h : Run s t) (qs : List Presented) : Run s (t.presentAll qs) := by
  induction qs generalizing t with
  | nil => simpa [State.presentAll] using h
  | cons q qs ih => simpa [State.presentAll, State.present] using ih (h.present s t q)

/-- The host and the time base present operations like any other (R140, R141). -/
theorem HostRun.run {cfgs : ChIndex → ChanConfig} {s t : State} {n : Nat} (h : HostRun cfgs s n t) : Run s t := by
  induction h with
  | start => exact .start s
  | issue n t rs ok _ _ _ ih => exact ih.present s t _
  | timeBase n t ok _ ih => exact ih.presentAll _
  | step n t u _ hstep ih => exact ih.step s t u hstep

/-- Settles O58: such a run is a run of the device, and those never stop (O43). -/
theorem hostRunNeverStops : Obligations.HostRunNeverStops := by
  intro p nch cfgs n t hp hn hrun
  obtain ⟨hinv, hnext, -⟩ := reachableDeviceNeverStops p nch t hp hn hrun.run
  exact ⟨hrun.run, hinv, hnext⟩

end Sys2Proof.Machine
end

section
/-!
The time base, the startup and the polling loop (R135, R140, R141): an operation for each channel is performed on each
channel alone, and the rounds of the loop are the host's operations in order.
-/

namespace Sys2Proof.Machine

/-! ### One operation for each channel -/

/-- State `t` is state `s` after the operation `op ch` on each channel `ch`, with the verdict `ok ch`. -/
def PerformedOnEach (op : ChIndex → Instr) (ok : ChIndex → Bool) (s t : State) : Prop :=
  ∀ ch c, s.channel? ch = some c →
    ∃ c', channelEffect s.params (ok ch) (op ch) c = .next c' ∧ t.channel? ch = some c'

section
variable {op : ChIndex → Instr} {ok : ChIndex → Bool} {s t : State}

/-- Operations on distinct channels: each is performed on its channel as it was before all of them (R8, R168). -/
theorem performAll_map_channels (hop : ∀ ch, (op ch).channel = ch) {chs : List ChIndex} (hnodup : chs.Nodup)
    (htotal : ∀ ch ∈ chs, ∀ c, s.channel? ch = some c →
      ∃ c', channelEffect s.params (ok ch) (op ch) c = .next c') :
    ∃ t, performAll (chs.map fun ch => ⟨op ch, ok ch⟩) s = .next t ∧
      (∀ ch ∉ chs, t.channel? ch = s.channel? ch) ∧
      ∀ ch ∈ chs, ∀ c, s.channel? ch = some c →
        ∃ c', channelEffect s.params (ok ch) (op ch) c = .next c' ∧ t.channel? ch = some c' := by
  induction chs generalizing s with
  | nil => exact ⟨s, rfl, fun _ _ => rfl, nofun⟩
  | cons ch chs ih =>
    obtain ⟨hnew, hnodup⟩ := List.nodup_cons.mp hnodup
    obtain ⟨u, hu⟩ : ∃ u, exec (op ch) { s with wrOk := ok ch } = .next u :=
      exists_exec fun c hc => htotal ch List.mem_cons_self c (hop ch ▸ hc)
    obtain ⟨hparams, -⟩ := exec_keeps hu
    have hframe : ∀ j, j ≠ ch → u.channel? j = s.channel? j := fun j hj =>
      exec_channel?_ne (s := { s with wrOk := ok ch }) hu (by rwa [hop])
    have hothers : ∀ j ∈ chs, u.channel? j = s.channel? j := fun j hj => hframe j fun e => hnew (e ▸ hj)
    obtain ⟨t, ht, hrest, hdone⟩ := ih (s := u) hnodup fun j hj c hc =>
      hparams ▸ htotal j (List.mem_cons_of_mem _ hj) c (hothers j hj ▸ hc)
    refine ⟨t, ?_, fun j hj => ?_, fun j hj c hc => ?_⟩
    · rw [List.map_cons, performAll_cons, hu]
      exact ht
    · obtain ⟨hne, hj⟩ := not_or.mp (mt List.mem_cons.mpr hj)
      rw [hrest j hj, hframe j hne]
    · rcases List.mem_cons.mp hj with rfl | hj
      · obtain ⟨c', heff, rfl⟩ := exec_eq_next_of_channel (hop j) (s := { s with wrOk := ok j }) hc hu
        exact ⟨c', heff, (hrest j hnew).trans (State.channel?_setChannel_self (s := { s with wrOk := ok j }) hc c')⟩
      · exact hparams ▸ hdone j hj c (hothers j hj ▸ hc)

theorem State.mem_channelIndices {ch : ChIndex} {c : Channel} (h : s.channel? ch = some c) :
    ch ∈ s.channelIndices :=
  List.mem_map.mpr ⟨ch.toNat, List.mem_range.mpr (State.channel?_lt h), by simp⟩

/-- A header names up to 16 channels apart (R63). -/
theorem State.nodup_channelIndices (hn : s.nch ≤ 16) : s.channelIndices.Nodup := by
  refine List.Nodup.map_on (fun i hi j hj hij => ?_) List.nodup_range
  have h := congrArg BitVec.toNat hij
  rw [List.mem_range] at hi hj
  simp only [BitVec.toNat_ofNat] at h
  omega

/-- An operation for each channel of the device. -/
theorem performAll_channelIndices (hop : ∀ ch, (op ch).channel = ch) (hn : s.nch ≤ 16)
    (htotal : ∀ ch c, s.channel? ch = some c → ∃ c', channelEffect s.params (ok ch) (op ch) c = .next c') :
    ∃ t, performAll (s.channelIndices.map fun ch => ⟨op ch, ok ch⟩) s = .next t ∧ PerformedOnEach op ok s t := by
  obtain ⟨t, ht, -, hdone⟩ := performAll_map_channels hop (State.nodup_channelIndices hn)
    fun ch _ c hc => htotal ch c hc
  exact ⟨t, ht, fun ch c hc => hdone ch (State.mem_channelIndices hc) c hc⟩

/-- Under the invariant of the device every such operation takes effect. -/
theorem State.Inv.performAll_channelIndices (h : s.Inv) (hop : ∀ ch, (op ch).channel = ch) :
    ∃ t, performAll (s.channelIndices.map fun ch => ⟨op ch, ok ch⟩) s = .next t ∧ PerformedOnEach op ok s t := by
  have ⟨_, hn, _⟩ := h
  exact Machine.performAll_channelIndices hop hn fun ch _ hc => h.exists_channelEffect (ok ch) (op ch) hc

/-- The effect on a channel, as an operation of the device with its own verdict. -/
theorem PerformedOnEach.exec (h : PerformedOnEach op ok s t) (hop : ∀ ch, (op ch).channel = ch) {ch : ChIndex}
    {c : Channel} (hc : s.channel? ch = some c) :
    ∃ c', Machine.exec (op ch) { s with wrOk := ok ch } = .next ({ s with wrOk := ok ch }.setChannel ch c') ∧
      t.channel? ch = some c' := by
  obtain ⟨c', heff, ht⟩ := h ch c hc
  refine ⟨c', ?_, ht⟩
  have hexec := exec_next (i := op ch) (s := { s with wrOk := ok ch }) (by rw [hop]; exact hc) heff
  rwa [hop] at hexec

end

/-- Operations with verdicts keep the invariant. -/
theorem State.Inv.performAll {qs : List Issued} {s t : State} (h : s.Inv) (he : performAll qs s = .next t) :
    t.Inv := by
  induction qs generalizing s with
  | nil => cases he; exact h
  | cons q qs ih =>
    rw [performAll_cons] at he
    obtain ⟨u, hu⟩ := State.Inv.exists_exec (s := { s with wrOk := q.wrOk }) h q.op
    rw [hu] at he
    exact ih (State.Inv.exec (s := { s with wrOk := q.wrOk }) h hu) he

/-- Settles O47: the TICKs go to distinct channels. -/
theorem timeBaseTicksEveryChannel : Obligations.TimeBaseTicksEveryChannel := by
  intro s ok hinv
  obtain ⟨t, ht, hdone⟩ := hinv.performAll_channelIndices (op := .tick) (ok := ok) fun _ => rfl
  exact ⟨t, ht, fun ch c hc => hdone.exec (fun _ => rfl) hc⟩

/-- Settles O56: the POLLs go to distinct channels, and on one that does not run the guard hands back the channel. -/
theorem pollRoundPollsEveryChannel : Obligations.PollRoundPollsEveryChannel := by
  intro s captures ok hinv
  obtain ⟨t, ht, hdone⟩ :=
    hinv.performAll_channelIndices (op := fun ch => .poll ch (captures ch)) (ok := ok) fun _ => rfl
  refine ⟨t, ht, hinv.performAll ht, fun ch c hc => ?_⟩
  obtain ⟨c', hexec, hc'⟩ := hdone.exec (fun _ => rfl) hc
  refine ⟨c', hexec, hc', fun hr => ?_⟩
  obtain ⟨d, heff, hd⟩ := hdone ch c hc
  rw [channelEffect_of_not_run hr (.inl rfl)] at heff
  cases heff
  exact Option.some.inj (hc'.symm.trans hd)

/-! ### Startup (R135, R177) -/

theorem State.channelIndices_congr {s t : State} (h : t.nch = s.nch) : t.channelIndices = s.channelIndices := by
  rw [State.channelIndices, h, State.channelIndices]

/-- RESET and INIT of every channel take effect in every state. -/
theorem startup_eq_next {s : State} (hn : s.nch ≤ 16) (cfgs : ChIndex → ChanConfig) :
    ∃ t, startup cfgs s = .next t ∧ t.params = s.params ∧ t.nch = s.nch ∧
      ∀ ch c, s.channel? ch = some c →
        t.channel? ch = some (initChannel s.params (cfgs ch) (resetChannel c)) := by
  obtain ⟨u, hu, hreset⟩ := performAll_channelIndices (op := .reset) (ok := fun _ => true) (fun _ => rfl) hn
    fun ch c _ => ⟨_, rfl⟩
  obtain ⟨hparams, -, hnch⟩ := performAll_keeps hu
  obtain ⟨t, ht, hinit⟩ := performAll_channelIndices (op := fun ch => .init ch (cfgs ch)) (ok := fun _ => true)
    (fun _ => rfl) (hnch.trans_le hn) fun ch c _ => ⟨_, rfl⟩
  obtain ⟨hparams', -, hnch'⟩ := performAll_keeps ht
  refine ⟨t, ?_, hparams'.trans hparams, hnch'.trans hnch, fun ch c hc => ?_⟩
  · rw [startup, performAll_append, hu, ← State.channelIndices_congr hnch]
    exact ht
  · obtain ⟨c₁, heff₁, hc₁⟩ := hreset ch c hc
    obtain ⟨c₂, heff₂, hc₂⟩ := hinit ch c₁ hc₁
    cases heff₁
    cases heff₂
    rw [hc₂, hparams]

/-- Settles O55: INIT finds each channel as RESET leaves it. -/
theorem startupInitializesEveryChannel : Obligations.StartupInitializesEveryChannel := by
  intro s cfgs hn
  obtain ⟨t, ht, hparams, hnch, hchannels⟩ := startup_eq_next hn cfgs
  refine ⟨t, ht, hparams, hnch, fun ch hch => ?_⟩
  obtain ⟨c, hc⟩ := Option.isSome_iff_exists.mp hch
  refine ⟨_, hchannels ch c hc, ?_⟩
  rw [initChannel_of_uninit rfl]
  exact ⟨rfl, rfl, rfl, rfl, rfl, rfl, rfl, rfl, rfl, rfl, rfl, rfl⟩

/-! ### The control loop as the host's operations (R140, R141) -/

theorem andThen_assoc (r : Host.Outcome State Fault Refusal) (f g : State → Host.Outcome State Fault Refusal) :
    andThen (andThen r f) g = andThen r fun s => andThen (f s) g := by
  cases r <;> rfl

/-- The continuation matters only on a state that the outcome can be. -/
theorem andThen_congr {r : Host.Outcome State Fault Refusal} {f g : State → Host.Outcome State Fault Refusal}
    (h : ∀ t, r = .next t → f t = g t) : andThen r f = andThen r g := by
  cases r with
  | next t => exact h t rfl
  | fault e => rfl
  | refused e => rfl

section
variable (nch : Nat) (cfgs : ChIndex → ChanConfig) (captures : Nat → ChIndex → List Capture)
  (ok : Nat → ChIndex → Bool)

/-- The host's `n`-th operation, with the captures and the verdict that its round of the polling loop yields. -/
def hostIssued (n : Nat) : Issued :=
  ⟨hostIssue nch cfgs (captures (n / nch - 2) (hostChannel nch n)) n,
    decide (n < 2 * nch) || ok (n / nch - 2) (hostChannel nch n)⟩

/-- The host's operations in its round `r`, one for each channel. -/
def hostRound (r : Nat) : List Issued := (List.range nch).map fun i => hostIssued nch cfgs captures ok (r * nch + i)

theorem map_hostIssued_range_succ (k : Nat) :
    (List.range ((k + 1) * nch)).map (hostIssued nch cfgs captures ok) =
      (List.range (k * nch)).map (hostIssued nch cfgs captures ok) ++ hostRound nch cfgs captures ok k := by
  rw [Nat.succ_mul, List.range_add, List.map_append, List.map_map]
  rfl

variable {nch} {i : Nat}

theorem hostChannel_round (r : Nat) (hi : i < nch) : hostChannel nch (r * nch + i) = BitVec.ofNat 4 i := by
  rw [hostChannel, Nat.mul_add_mod_of_lt hi]

theorem hostIssued_reset (hi : i < nch) :
    hostIssued nch cfgs captures ok (0 * nch + i) = ⟨.reset (BitVec.ofNat 4 i), true⟩ := by
  have hlt : 0 * nch + i < nch := by omega
  simp only [hostIssued, hostIssue, hostChannel_round 0 hi, if_pos hlt, show 0 * nch + i < 2 * nch by omega,
    decide_true, Bool.true_or]

theorem hostIssued_init (hi : i < nch) : hostIssued nch cfgs captures ok (1 * nch + i) =
    ⟨.init (BitVec.ofNat 4 i) (cfgs (BitVec.ofNat 4 i)), true⟩ := by
  have hge : ¬ 1 * nch + i < nch := by omega
  have hlt : 1 * nch + i < 2 * nch := by omega
  simp only [hostIssued, hostIssue, hostChannel_round 1 hi, if_neg hge, if_pos hlt, decide_eq_true hlt, Bool.true_or]

theorem hostIssued_poll (k : Nat) (hi : i < nch) : hostIssued nch cfgs captures ok ((k + 2) * nch + i) =
    ⟨.poll (BitVec.ofNat 4 i) (captures k (BitVec.ofNat 4 i)), ok k (BitVec.ofNat 4 i)⟩ := by
  have hround : ((k + 2) * nch + i) / nch - 2 = k := by
    rw [Nat.mul_comm, Nat.mul_add_div (by omega), Nat.div_eq_of_lt hi]
    omega
  have hge : ¬ (k + 2) * nch + i < 2 * nch := by
    have : 2 * nch ≤ (k + 2) * nch := Nat.mul_le_mul_right nch (by omega)
    omega
  have hge' : ¬ (k + 2) * nch + i < nch := by omega
  simp only [hostIssued, hostIssue, hostChannel_round (k + 2) hi, hround, if_neg hge', if_neg hge, decide_eq_false hge,
    Bool.false_or]

/-- A round in which the host issues `q ch` to each channel. -/
theorem hostRound_eq_map {r : Nat} {q : ChIndex → Issued} {s : State}
    (h : ∀ i, i < s.nch → hostIssued s.nch cfgs captures ok (r * s.nch + i) = q (BitVec.ofNat 4 i)) :
    hostRound s.nch cfgs captures ok r = s.channelIndices.map q := by
  rw [hostRound, State.channelIndices, List.map_map]
  exact List.map_congr_left fun i hi => h i (List.mem_range.mp hi)

/-- The startup is the host's first two rounds. -/
theorem startup_eq_hostIssued (s : State) : startup cfgs s =
    performAll ((List.range (2 * s.nch)).map (hostIssued s.nch cfgs captures ok)) s := by
  have hreset := hostRound_eq_map (q := fun ch => ⟨.reset ch, true⟩) (s := s) cfgs captures ok fun i =>
    hostIssued_reset cfgs captures ok
  have hinit := hostRound_eq_map (q := fun ch => ⟨.init ch (cfgs ch), true⟩) (s := s) cfgs captures ok fun i =>
    hostIssued_init cfgs captures ok
  rw [map_hostIssued_range_succ, map_hostIssued_range_succ, Nat.zero_mul, List.range_zero, List.map_nil,
    List.nil_append, hreset, hinit]
  rfl

/-- Iteration `k` of the polling loop is the host's round `k + 2`. -/
theorem pollRound_eq_hostRound (k : Nat) (s : State) : pollRound (captures k) (ok k) s =
    performAll (hostRound s.nch cfgs captures ok (k + 2)) s := by
  rw [hostRound_eq_map (q := fun ch => ⟨.poll ch (captures k ch), ok k ch⟩) cfgs captures ok fun i =>
    hostIssued_poll cfgs captures ok k]
  rfl

/-- One more iteration of the control loop. -/
theorem controlLoop_succ (k : Nat) (s : State) : controlLoop cfgs captures ok (k + 1) s =
    andThen (controlLoop cfgs captures ok k s) (pollRound (captures k) (ok k)) :=
  (andThen_assoc ..).symm

theorem controlLoop_eq_hostIssued (k : Nat) (s : State) : controlLoop cfgs captures ok k s =
    performAll ((List.range ((k + 2) * s.nch)).map (hostIssued s.nch cfgs captures ok)) s := by
  induction k with
  | zero =>
    have hstart : controlLoop cfgs captures ok 0 s = startup cfgs s := by
      rw [controlLoop]; cases startup cfgs s <;> rfl
    rw [hstart, startup_eq_hostIssued cfgs captures ok]
  | succ k ih =>
    rw [controlLoop_succ, ih, map_hostIssued_range_succ s.nch cfgs captures ok (k + 2), performAll_append]
    refine andThen_congr fun t ht => ?_
    obtain ⟨-, -, hnch⟩ := performAll_keeps ht
    rw [pollRound_eq_hostRound cfgs captures ok, hnch]

end

/-- Settles O57: by induction on the iterations, each of which is the host's next round. -/
theorem controlLoopIsWhatTheHostIssues : Obligations.ControlLoopIsWhatTheHostIssues :=
  fun s cfgs captures ok k => controlLoop_eq_hostIssued cfgs captures ok k s

end Sys2Proof.Machine
end

section
/-!
POLL (R136 to R139): its word, the four stages it is made of, its frame, its abbreviations, and that too few of them
actuate nothing.
-/

namespace Sys2Proof.Machine

/-! ### The four stages (R136) -/

section
variable {p : Params} {f : ChanConfig}

/-- The operand that hands DECODE a measurement as it is stands for that measurement (R61). -/
theorem measOf_argOf (p : Params) (f : ChanConfig) (m : Meas) : measOf p f (argOf m) = m := by
  cases m <;> rfl

theorem measureChannel_chState (p : Params) (f : ChanConfig) (rs : List Capture) (c : Channel) :
    (measureChannel p f rs c).chState = c.chState := by
  obtain ⟨a, k, m, b, h⟩ := measureChannel_frame p f rs c
  rw [h]

/-- The verdict on the DRIVE stage of a POLL counts as good without `HAS_WR_STATUS` (R124). -/
theorem writeFails_or_noStatus (p : Params) (ok : Bool) : writeFails p (ok || !p.hasWrStatus) = writeFails p ok := by
  cases hs : p.hasWrStatus <;> simp [writeFails, hs]

/-- DRIVE looks at the verdict only to ask whether a write fails. -/
theorem driveChannel_congr_verdict {ok ok' : Bool} (h : writeFails p ok = writeFails p ok') (ch : Nat) (r : Report)
    (c : Channel) : driveChannel p ch ok r c = driveChannel p ch ok' r c := by
  match r with
  | .noChange | .stable .hold => rfl
  | .stable .retract | .stable .extend => simp only [driveChannel, assertLines, h]

end

/-- Settles O33: the header spells POLL; each stage is performed on a running channel with the configuration, and DRIVE
takes the verdict in the form its word allows. -/
theorem pollIsItsFourStages : Obligations.PollIsItsFourStages := by
  refine ⟨fun d ch h ws hh => ?_, fun s ch c rs hc => ⟨fun hr => ?_, fun f hr hf hlen => ?_⟩⟩
  · obtain ⟨hop, hch⟩ := OpWord.op_ch_of_header (w := ⟨h, ws⟩) (by decide) hh
    exact decode_eq_ok_iff.mpr ⟨hop, hch, rfl⟩
  · exact exec_of_effect_self (i := .poll ch rs) hc (channelEffect_of_not_run hr (.inl rfl))
  · have hr1 := (measureChannel_chState s.params f rs c).trans hr
    have hf1 := (measureChannel_cfg s.params f rs c).trans hf
    have hdecode := exec_decode_run (argOf (measureChannel s.params f rs c).meas)
      (State.channel?_setChannel_self hc (measureChannel s.params f rs c)) hr1 hf1
    let c2 := decodeChannel s.params f (measureChannel s.params f rs c).meas (measureChannel s.params f rs c)
    let c3 := debounceChannel f c2.cmd c2
    have hverdict : ((s.wrOk || !s.params.hasWrStatus) || s.params.hasWrStatus) = true := by
      cases s.params.hasWrStatus <;> simp
    refine ⟨measureChannel s.params f rs c, c2, c3,
      driveChannel s.params ch.toNat (s.wrOk || !s.params.hasWrStatus) c3.rpt c3, exec_measure_run hc hr hf hlen,
      ?_, ?_, ?_, ?_⟩
    · rw [hdecode, measOf_argOf, State.setChannel_setChannel]
      rfl
    · rw [exec_debounce_run c2.cmd (State.channel?_setChannel_self hc c2) hr1 hf1, State.setChannel_setChannel]
    · rw [exec_drive_run c3.rpt (State.channel?_setChannel_self hc c3) hr1 hverdict, State.setChannel_setChannel]
      rfl
    · rw [exec_poll_run hc hr hf hlen.ge, ← hlen, List.take_length, pollChannel_eq,
        driveChannel_congr_verdict (writeFails_or_noStatus s.params s.wrOk)]
      rfl

/-! ### The frame (R136, R161) -/

/-- Settles O34: the driver's frame, on the channel with the decoded command pushed. -/
theorem pollFrame : Obligations.PollFrame := by
  intro s ch c f rs hc hr hf hlen
  refine ⟨_, exec_poll_run hc hr hf hlen, ?_⟩
  obtain ⟨a, k, m, b, hpoll⟩ := pollChannel_eq_drive (p := s.params) (f := f) (us := rs.take f.nsamp) (c := c)
    ch.toNat s.wrOk rfl
  rw [hpoll, driveChannel_frame]
  exact ⟨rfl, rfl, rfl, rfl, rfl, rfl, rfl, rfl, rfl, rfl, rfl, Memory.read?_write_self ..,
    fun i hi => Memory.read?_write_ne _ _ hi⟩

/-! ### The abbreviations (R139) -/

section
variable {p : Params} {f : ChanConfig}

/-- MEASURE sets `nosig` exactly when it reports no signal (R25, R76). -/
theorem measureChannel_nosig (p : Params) (f : ChanConfig) (rs : List Capture) (c : Channel) :
    (measureChannel p f rs c).nosig = decide ((measureChannel p f rs c).meas = .noSignal) := by
  rcases captures_split rs with ⟨ts, rfl⟩ | ⟨ts, rest, rfl⟩
  · simp [measureChannel_durations]
  · simp [measureChannel_timeout]

/-- DRIVE neither reads nor writes the latches of the stages before it, `nosig` or the phase. -/
theorem driveChannel_latches (p : Params) (ch : Nat) (ok : Bool) (r : Report) (a k : Nat) (m : Meas) (v : Cmd)
    (b : Bool) (ph : Phase) (c : Channel) :
    driveChannel p ch ok r { c with acc := a, k := k, meas := m, cmd := v, nosig := b, phase := ph } =
      { driveChannel p ch ok r c with acc := a, k := k, meas := m, cmd := v, nosig := b, phase := ph } := by
  match r with
  | .noChange | .stable .hold => rfl
  | .stable .retract => cases h : writeFails p ok <;> simp only [driveChannel, assertLines, h] <;> rfl
  | .stable .extend =>
    by_cases hl : c.lines = p.extendCfg
    · rw [driveChannel_extend_of_extended hl, driveChannel_extend_of_extended (by exact hl)]
    · rw [driveChannel_of_writesLines (writesLines_extend hl),
        driveChannel_of_writesLines (writesLines_extend (by exact hl))]
      cases h : writeFails p ok <;> simp only [assertLines, h] <;> rfl

/-- The channel after the push of `v` and what the driver makes of its report: what POLL and its two abbreviations have
in common (R139). -/
def pushedAndDriven (p : Params) (ch : Nat) (ok : Bool) (f : ChanConfig) (v : Cmd) (c : Channel) : Channel :=
  driveChannel p ch ok (stableTest f.hcap (pushCmd f.hcap v c)) (debounceChannel f v c)

/-- The latches of a channel are those it had (R139). -/
theorem pushedAndDriven_latches (p : Params) (ch : Nat) (ok : Bool) (f : ChanConfig) (v : Cmd) (c : Channel) :
    pushedAndDriven p ch ok f v c = { pushedAndDriven p ch ok f v c with
      acc := c.acc, k := c.k, meas := c.meas, cmd := c.cmd, nosig := c.nosig, phase := c.phase } :=
  driveChannel_latches p ch ok (stableTest f.hcap (pushCmd f.hcap v c)) c.acc c.k c.meas c.cmd c.nosig c.phase
    (debounceChannel f v c)

theorem afterMeasure_eq_pushedAndDriven (p : Params) (ch : Nat) (ok : Bool) (f : ChanConfig) (m : Meas) (b : Bool)
    (c : Channel) : afterMeasure p ch ok f { c with meas := m, nosig := b } =
      { pushedAndDriven p ch ok f (position p f m) c with
        acc := c.acc, k := c.k, meas := m, cmd := position p f m, nosig := b, phase := .idle } := by
  rw [afterMeasure_eq]
  have hdrive := driveChannel_latches p ch ok (stableTest f.hcap (pushCmd f.hcap (position p f m) c)) c.acc c.k m
    (position p f m) b c.phase (debounceChannel f (position p f m) c)
  exact congrArg (fun d : Channel => { d with phase := .idle }) hdrive

/-- A POLL, in its measurement `m` and what it has in common with its abbreviations. -/
theorem pollChannel_eq_pushedAndDriven (p : Params) (ch : Nat) (ok : Bool) (f : ChanConfig) (us : List Capture)
    (c : Channel) : ∃ a k m,
      measureChannel p f us c = { c with acc := a, k := k, meas := m, nosig := decide (m = .noSignal) } ∧
      pollChannel p ch ok f us c = { pushedAndDriven p ch ok f (position p f m) c with
        acc := a, k := k, meas := m, cmd := position p f m, nosig := decide (m = .noSignal), phase := .idle } := by
  obtain ⟨a, k, m, b, hm, hpoll⟩ := pollChannel_stages p ch ok f us c
  have hb : b = decide (m = .noSignal) := by simpa only [hm] using measureChannel_nosig p f us c
  subst hb
  have hdrive := driveChannel_latches p ch ok (stableTest f.hcap (pushCmd f.hcap (position p f m) c)) a k m
    (position p f m) (decide (m = .noSignal)) c.phase (debounceChannel f (position p f m) c)
  exact ⟨a, k, m, hm, hpoll.trans (congrArg (fun d : Channel => { d with phase := .idle }) hdrive)⟩

theorem polld_run {s : State} {ch : ChIndex} {c : Channel} (m : Meas) (hc : s.channel? ch = some c)
    (hr : c.chState = .run) (hf : c.cfg = some f) : polld ch m s = .next (s.setChannel ch
      (afterMeasure s.params ch.toNat s.wrOk f { c with meas := m, nosig := decide (m = .noSignal) })) :=
  State.onChannel_next hc (by rw [Channel.whenRun_run hr, Channel.withCfg_some hf])

theorem pollc_run {s : State} {ch : ChIndex} {c : Channel} (v : Cmd) (hc : s.channel? ch = some c)
    (hr : c.chState = .run) (hf : c.cfg = some f) :
    pollc ch v s = .next (s.setChannel ch (pushedAndDriven s.params ch.toNat s.wrOk f v c)) :=
  State.onChannel_next hc (by rw [Channel.whenRun_run hr, Channel.withCfg_some hf]; rfl)

end

/-- Settles O37: each abbreviation pushes the command that the POLL decodes and drives its report. -/
theorem pollAbbreviationsAgree : Obligations.PollAbbreviationsAgree := by
  intro s ch c f rs hc hr hf hlen
  obtain ⟨a, k, m, hm, hpoll⟩ :=
    pollChannel_eq_pushedAndDriven s.params ch.toNat s.wrOk f (rs.take f.nsamp) c
  have hmeasure : exec (.measure ch rs) s = .next (s.setChannel ch (measureChannel s.params f (rs.take f.nsamp) c)) :=
    exec_next (i := .measure ch rs) hc (channelEffect_measure_run ch hr hf (samples?_of_le hlen))
  refine ⟨_, _, hmeasure, exec_poll_run hc hr hf hlen, ?_, ?_⟩
  · rw [hm, hpoll, polld_run m hc hr hf, afterMeasure_eq_pushedAndDriven]
  · rw [hpoll, pollc_run (position s.params f m) hc hr hf, pushedAndDriven_latches]

/-! ### Too few POLLs to fill the window (R135, R180) -/

/-- What POLLs and TICKs that actuate nothing leave of channel `c`. -/
structure Unactuated (c d : Channel) : Prop where
  lines : d.lines = c.lines
  pinA : d.pinA = c.pinA
  pinB : d.pinB = c.pinB
  drvState : d.drvState = c.drvState
  lastCmd : d.lastCmd = c.lastCmd

theorem Unactuated.refl (c : Channel) : Unactuated c c := ⟨rfl, rfl, rfl, rfl, rfl⟩

theorem Unactuated.trans {c d e : Channel} (h : Unactuated c d) (h' : Unactuated d e) : Unactuated c e :=
  ⟨h'.lines.trans h.lines, h'.pinA.trans h.pinA, h'.pinB.trans h.pinB, h'.drvState.trans h.drvState,
    h'.lastCmd.trans h.lastCmd⟩

section
variable {p : Params} {f : ChanConfig} {c c' : Channel} {ok : Bool} {ch : ChIndex}

/-- A POLL that does not fill the window drives nothing (R103 (a), R113). -/
theorem unactuated_pollChannel (ch : Nat) (ok : Bool) (us : List Capture) (hlt : c.cnt + 1 < f.hcap) :
    Unactuated c (pollChannel p ch ok f us c) := by
  obtain ⟨a, k, m, b, hpoll⟩ := pollChannel_eq_drive (us := us) ch ok rfl
  rw [hpoll, stableTest_of_cnt_ne (by rw [Channel.push_cnt]; split <;> omega)]
  exact ⟨rfl, rfl, rfl, rfl, rfl⟩

/-- A TICK on a channel that delivered nothing does nothing: it is not extended (R23). -/
theorem ChannelInv.tick_undelivered (h : ChannelInv p c) (hlast : c.lastCmd = .none)
    (he : Machine.channelEffect p ok (.tick ch) c = .next c') : c' = c := by
  rw [channelEffect_tick_idle ch fun hl => h.extendedCommanded hl hlast] at he
  exact (Host.Outcome.next.inj he).symm

/-- A POLL on a channel whose window it does not fill. -/
theorem channelEffect_poll_unactuated {rs : List Capture} (hf : c.cfg = some f) (hlt : c.cnt + 1 < f.hcap)
    (he : channelEffect p ok (.poll ch rs) c = .next c') :
    Unactuated c c' ∧ c'.cfg = some f ∧ c'.cnt ≤ c.cnt + 1 := by
  rcases channelEffect_poll_eq_next he with rfl | ⟨g, us, -, hg, rfl⟩
  · exact ⟨.refl _, hf, Nat.le_succ _⟩
  · obtain rfl := Option.some.inj (hf.symm.trans hg)
    exact ⟨unactuated_pollChannel _ _ us hlt, (pollChannel_cfg ..).trans hf, pollChannel_cnt_le ..⟩

end

/-- The number of POLLs among POLLs and TICKs of channel `ch`. -/
def pollCount (ch : ChIndex) (ops : List Instr) : Nat := (ops.filter fun i => i != .tick ch).length

theorem pollCount_tick_cons (ch : ChIndex) (ops : List Instr) : pollCount ch (.tick ch :: ops) = pollCount ch ops := by
  simp [pollCount]

theorem pollCount_poll_cons (ch : ChIndex) (rs : List Capture) (ops : List Instr) :
    pollCount ch (.poll ch rs :: ops) = pollCount ch ops + 1 := by
  simp [pollCount]

/-- POLLs and TICKs on a channel that delivered nothing, too few POLLs to fill its window. -/
theorem execAll_unactuated {ch : ChIndex} {f : ChanConfig} {ops : List Instr} {s : State} {c : Channel}
    (hp : s.params.wf) (hinv : ChannelInv s.params c) (hc : s.channel? ch = some c) (hf : c.cfg = some f)
    (hlast : c.lastCmd = .none) (hops : ∀ i ∈ ops, i = .tick ch ∨ ∃ rs, i = .poll ch rs)
    (hfew : c.cnt + pollCount ch ops < f.hcap) :
    ∃ c', execAll ops s = .next (s.setChannel ch c') ∧ Unactuated c c' := by
  induction ops generalizing s c with
  | nil => exact ⟨c, congrArg _ (State.setChannel_self hc).symm, .refl c⟩
  | cons i is ih =>
    have hch : i.channel = ch := by rcases hops i List.mem_cons_self with rfl | ⟨rs, rfl⟩ <;> rfl
    obtain ⟨d, heff⟩ := hinv.exists_channelEffect hp s.wrOk i
    have hstep : Unactuated c d ∧ d.cfg = some f ∧ d.cnt + pollCount ch is < f.hcap := by
      rcases hops i List.mem_cons_self with rfl | ⟨rs, rfl⟩
      · rw [pollCount_tick_cons] at hfew
        obtain rfl := hinv.tick_undelivered hlast heff
        exact ⟨.refl _, hf, hfew⟩
      · rw [pollCount_poll_cons] at hfew
        obtain ⟨hsame, hcfg, hcnt⟩ := channelEffect_poll_unactuated hf (by omega) heff
        exact ⟨hsame, hcfg, by omega⟩
    obtain ⟨hsame, hcfg, hfew'⟩ := hstep
    obtain ⟨c', hexec, hrest⟩ := ih (s := s.setChannel ch d) hp (hinv.channelEffect hp heff)
      (State.channel?_setChannel_self hc d) hcfg (hsame.lastCmd.trans hlast)
      (fun j hj => hops j (List.mem_cons_of_mem _ hj)) hfew'
    subst hch
    refine ⟨c', ?_, hsame.trans hrest⟩
    rw [execAll_cons_of_next (exec_next hc heff), hexec, State.setChannel_setChannel]

/-- Settles O39: the window starts empty. -/
theorem noActuationBeforeHcapPolls : Obligations.NoActuationBeforeHcapPolls := by
  intro s ch c f ops ⟨hp, _, hall⟩ hc hf hcnt hlast hops hfew
  obtain ⟨c', hexec, hlines, hpinA, hpinB, hdrv, hlast'⟩ := execAll_unactuated (ops := ops) hp
    (hall c (List.mem_of_getElem? hc)) hc hf hlast hops (by rw [hcnt, Nat.zero_add]; exact hfew)
  exact ⟨c', hexec, hlines, hpinA, hpinB, hdrv, hlast'.trans hlast⟩

end Sys2Proof.Machine
end

section
/-!
Conditions and faults (R145 to R182): what a configuration fault and the RESET that leaves it do, a POLL without a
signal, and who writes which element of a channel.
-/

namespace Sys2Proof.Machine

/-! ### The configuration fault (R156, R159) -/

/-- In `CFG_FAULT` every operation but RESET hands back the channel: a TICK finds it retracted (R23). -/
theorem ChannelInv.channelEffect_of_cfgFault {p : Params} {c : Channel} (hp : p.wf) (h : ChannelInv p c)
    (hs : c.chState = .cfgFault) (ok : Bool) {i : Instr} (hi : i ≠ .reset i.channel) :
    Machine.channelEffect p ok i c = .next c := by
  have hr : c.chState ≠ .run := by rw [hs]; decide
  cases i with
  | nop ch => rfl
  | reset ch => exact absurd rfl hi
  | init ch f => exact congrArg _ (initChannel_of_not_uninit (by rw [hs]; decide) p f)
  | tick ch => exact channelEffect_tick_idle ch (h.not_extended_of_not_run hp hr)
  | poll | measure | decode | debounce | drive => exact channelEffect_of_not_run hr (by simp [Instr.opCode])

/-- Settles O13: the failed checks are not empty, and in `CFG_FAULT` every effect but that of RESET is the channel. -/
theorem configurationFaultIsLeftOnlyByReset : Obligations.ConfigurationFaultIsLeftOnlyByReset := by
  refine fun s ch c hp hc hinv => ⟨fun f hs hf => ?_, fun hs i hch hi => ?_⟩
  · have hinit := initChannel_of_uninit hs s.params f
    rw [if_neg hf] at hinit
    exact exec_next (i := .init ch f) hc (congrArg _ hinit)
  · subst hch
    exact exec_of_effect_self hc (hinv.channelEffect_of_cfgFault hp hs s.wrOk hi)

/-- Settles O14: INIT finds the channel as RESET leaves it, in `UNINIT`, and its checks pass. -/
theorem resetThenInitRuns : Obligations.ResetThenInitRuns := by
  intro s ch c f hc hf
  have hreset : exec (.reset ch) s = .next (s.setChannel ch (resetChannel c)) := exec_next (i := .reset ch) hc rfl
  have hinit : exec (.init ch f) (s.setChannel ch (resetChannel c)) =
      .next ((s.setChannel ch (resetChannel c)).setChannel ch (initChannel s.params f (resetChannel c))) :=
    exec_next (i := .init ch f) (State.channel?_setChannel_self hc _) rfl
  refine ⟨initChannel s.params f (resetChannel c), ?_, ?_⟩
  · rw [execAll_cons_of_next hreset, execAll_cons_of_next hinit, State.setChannel_setChannel]
    rfl
  · rw [initChannel_of_uninit rfl, if_pos hf, hf]
    exact ⟨rfl, rfl, rfl, rfl, rfl, rfl, rfl, rfl, window_of_cnt_zero (Valid.hcap_pos hf) rfl⟩

/-! ### A POLL without a signal (R147, R182) -/

/-- MEASURE on captures with a `TIMEOUT` among them records it (R76, R147). -/
theorem measureChannel_of_timeout_mem {us : List Capture} (h : Capture.timeout ∈ us) (p : Params) (f : ChanConfig)
    (c : Channel) : ∃ a k, measureChannel p f us c = { c with nosig := true, acc := a, k := k, meas := .noSignal } := by
  rcases captures_split us with ⟨ts, rfl⟩ | ⟨ts, rest, rfl⟩
  · simp at h
  · exact ⟨_, _, measureChannel_timeout ..⟩

section
variable {p : Params} {f : ChanConfig} {c : Channel}

/-- The test after a push reports the pushed command or nothing: that command stands in the window (R103). -/
theorem RunsWith.stableTest_push (h : RunsWith p f c) (v : Cmd) :
    stableTest f.hcap (pushCmd f.hcap v c) = .noChange ∨ stableTest f.hcap (pushCmd f.hcap v c) = .stable v := by
  cases hrpt : stableTest f.hcap (pushCmd f.hcap v c) with
  | noChange => exact .inl rfl
  | stable x =>
    obtain ⟨-, hall, -⟩ := ((h.push v).stableTest_eq_stable_iff x).mp hrpt
    exact .inr (congrArg _ (hall v (h.mem_window_push v)).symm)

/-- A pushed HOLD moves no line, reported or not (R113, R114). -/
theorem RunsWith.pushedAndDriven_hold (h : RunsWith p f c) (ch : Nat) (ok : Bool) : ∃ last st,
    pushedAndDriven p ch ok f .hold c = { debounceChannel f .hold c with lastCmd := last, drvState := st } := by
  rcases h.stableTest_push .hold with hrpt | hrpt <;> rw [pushedAndDriven, hrpt]
  · exact ⟨_, _, rfl⟩
  · exact ⟨_, _, rfl⟩

/-- A POLL with a `TIMEOUT` among its samples decodes to HOLD (R92), which it pushes and drives. -/
theorem pollChannel_of_timeout_mem {us : List Capture} (h : Capture.timeout ∈ us) (ch : Nat) (ok : Bool) : ∃ a k,
    pollChannel p ch ok f us c = { pushedAndDriven p ch ok f .hold c with
      acc := a, k := k, meas := .noSignal, cmd := .hold, nosig := true, phase := .idle } := by
  obtain ⟨a, k, m, hm, hpoll⟩ := pollChannel_eq_pushedAndDriven p ch ok f us c
  obtain ⟨a', k', hm'⟩ := measureChannel_of_timeout_mem h p f c
  obtain rfl : m = .noSignal := congrArg Channel.meas (hm.symm.trans hm')
  exact ⟨a, k, hpoll⟩

end

/-- Settles O35: the `TIMEOUT` decodes to HOLD, whose report moves no line. -/
theorem noSignalPollKeepsTheLines : Obligations.NoSignalPollKeepsTheLines := by
  intro s ch c f rs hc hinv hr hf hlen hmem
  have hrun : RunsWith s.params f c := ⟨hinv, hr, hf⟩
  obtain ⟨a, k, hpoll⟩ := pollChannel_of_timeout_mem (p := s.params) (f := f) (c := c) hmem ch.toNat s.wrOk
  obtain ⟨last, st, hdrive⟩ := hrun.pushedAndDriven_hold ch.toNat s.wrOk
  refine ⟨_, exec_poll_run hc hr hf hlen, ?_⟩
  rw [hpoll, hdrive]
  exact ⟨rfl, rfl, hr, rfl, rfl, rfl, rfl, rfl⟩

/-! ### Operations on different channels (R49, R168) -/

/-- An operation on a channel answers a channel, or stops at the one fault there is. -/
def Answers (r : ChannelOutcome) : Prop := (∃ c, r = .next c) ∨ r = .fault .configurationUnwritten

theorem Channel.answers_whenRun {c : Channel} {g : Channel → ChannelOutcome} (h : Answers (g c)) :
    Answers (c.whenRun g) := by
  by_cases hr : c.chState = .run
  · rwa [Channel.whenRun_run hr]
  · exact .inl ⟨c, Channel.whenRun_not hr g⟩

theorem Channel.answers_withCfg {c : Channel} {g : ChanConfig → ChannelOutcome} (h : ∀ f, Answers (g f)) :
    Answers (c.withCfg g) := by
  cases hf : c.cfg with
  | none => exact .inr (Channel.withCfg_none hf g)
  | some f => rw [Channel.withCfg_some hf]; exact h f

theorem answers_channelEffect (p : Params) (ok : Bool) (i : Instr) (c : Channel) :
    Answers (channelEffect p ok i c) := by
  cases i <;> simp only [channelEffect]
  case nop | reset | init => exact .inl ⟨_, rfl⟩
  case tick =>
    split
    · exact Channel.answers_withCfg fun f => .inl ⟨_, rfl⟩
    · exact .inl ⟨c, rfl⟩
  case poll rs | measure rs =>
    apply Channel.answers_whenRun
    refine Channel.answers_withCfg fun f => ?_
    cases samples? f rs <;> exact .inl ⟨_, rfl⟩
  case decode | debounce =>
    apply Channel.answers_whenRun
    exact Channel.answers_withCfg fun f => .inl ⟨_, rfl⟩
  case drive =>
    apply Channel.answers_whenRun
    exact .inl ⟨_, rfl⟩

/-- A channel the device does not have cannot be set. -/
theorem State.setChannel_of_none {s : State} {ch : ChIndex} (h : s.channel? ch = none) (c : Channel) :
    s.setChannel ch c = s := by
  rw [State.setChannel, List.set_eq_of_length_le (List.getElem?_eq_none_iff.mp h)]

/-- An operation sets its channel, or stops at the one fault there is. -/
theorem exec_eq_setChannel_or_fault (i : Instr) (s : State) :
    (∃ c, exec i s = .next (s.setChannel i.channel c)) ∨ exec i s = .fault .configurationUnwritten := by
  cases hc : s.channel? i.channel with
  | none => exact .inl ⟨Channel.reset, by rw [exec_none hc, State.setChannel_of_none hc]⟩
  | some c =>
    rcases answers_channelEffect s.params s.wrOk i c with ⟨c', heff⟩ | heff
    · exact .inl ⟨c', exec_next hc heff⟩
    · exact .inr (by rw [exec_eq_onChannel, State.onChannel_some hc, heff])

/-- An operation neither reads nor writes another channel (R8): setting that one before it or after it is the same. -/
theorem exec_setChannel_ne {i : Instr} {ch : ChIndex} (h : i.channel ≠ ch) (s : State) (d : Channel) :
    exec i (s.setChannel ch d) = andThen (exec i s) fun t => .next (t.setChannel ch d) := by
  have hsame := State.channel?_setChannel_ne s d h
  cases hc : s.channel? i.channel with
  | none => rw [exec_none hc, exec_none (hsame.trans hc)]; rfl
  | some c =>
    rw [exec_eq_onChannel i s, State.onChannel_some hc, exec_eq_onChannel, State.onChannel_some (hsame.trans hc)]
    simp only [State.setChannel_params, State.setChannel_wrOk]
    cases channelEffect s.params s.wrOk i c with
    | next c' => exact congrArg _ (State.setChannel_comm s d c' h)
    | fault e => rfl
    | refused e => rfl

/-- Settles O45: each operation sets its own channel, whatever the other set or has to set; and if one stops, it stops
in either order, and there is one fault only. -/
theorem operationsOnDifferentChannelsCommute : Obligations.OperationsOnDifferentChannelsCommute := by
  intro i j s hne
  rcases exec_eq_setChannel_or_fault i s with ⟨c, hi⟩ | hi <;>
    rcases exec_eq_setChannel_or_fault j s with ⟨d, hj⟩ | hj <;> rw [hi, hj]
  · change exec j _ = exec i _
    rw [exec_setChannel_ne hne, exec_setChannel_ne hne.symm, hi, hj]
    exact congrArg _ (State.setChannel_comm s d c hne)
  · change exec j _ = _
    rw [exec_setChannel_ne hne.symm, hj]
    rfl
  · change _ = exec i _
    rw [exec_setChannel_ne hne, hi]
    rfl
  · rfl

/-! ### Who writes what (R161) -/

/-- What an operation other than RESET may make of channel `c`, by the elements it writes: every other element is that
of `c`. A POLL stands with its four stages, and the elements it never writes are named instead. -/
inductive MayBecome (c : Channel) : Instr → Channel → Prop
  | same (i : Instr) : MayBecome c i c
  | init (ch : ChIndex) (f : ChanConfig) (g : Option ChanConfig) (st : ChState) (q : CfgCause)
      (h : c.chState = .uninit) : MayBecome c (.init ch f) { c with cfg := g, chState := st, cfgCause := q }
  | poll (ch : ChIndex) (rs : List Capture) {d : Channel} (hcfg : d.cfg = c.cfg) (hstate : d.chState = c.chState)
      (hcause : d.cfgCause = c.cfgCause) (hen : d.en = c.en) (hpin : d.pinEn = c.pinEn) : MayBecome c (.poll ch rs) d
  | tick (ch : ChIndex) (a b pinA pinB : Level) (st : DrvState) (t n : Nat) (w : Bool) : MayBecome c (.tick ch)
      { c with
        dirA := a, dirB := b, drvState := st, extTimer := t, wrFault := w, pinA := pinA, pinB := pinB, free := n }
  | measure (ch : ChIndex) (rs : List Capture) (a k : Nat) (m : Meas) (b : Bool) : MayBecome c (.measure ch rs)
      { c with acc := a, k := k, meas := m, nosig := b }
  | decode (ch : ChIndex) (m : MeasArg) (v : Cmd) : MayBecome c (.decode ch m) { c with cmd := v }
  | debounce (ch : ChIndex) (v : Cmd) (h : Memory) (cnt wp : Nat) (r : Report) : MayBecome c (.debounce ch v)
      { c with h := h, cnt := cnt, wp := wp, rpt := r }
  | drive (ch : ChIndex) (r : Report) (ok : Bool) (last : LastCmd) (a b pinA pinB : Level) (st : DrvState)
      (t n : Nat) (w : Bool) : MayBecome c (.drive ch r ok)
      { c with
        lastCmd := last, dirA := a, dirB := b, drvState := st, extTimer := t, wrFault := w, pinA := pinA, pinB := pinB
        free := n }

theorem mayBecome_initChannel (p : Params) (ch : ChIndex) (f : ChanConfig) (c : Channel) :
    MayBecome c (.init ch f) (initChannel p f c) := by
  by_cases hs : c.chState = .uninit
  · rw [initChannel_of_uninit hs]
    exact .init ch f _ _ _ hs
  · rw [initChannel_of_not_uninit hs]
    exact .same _

theorem mayBecome_pollChannel (p : Params) (ch : ChIndex) (ok : Bool) (f : ChanConfig) (rs us : List Capture)
    (c : Channel) : MayBecome c (.poll ch rs) (pollChannel p ch.toNat ok f us c) := by
  obtain ⟨a, k, m, b, -, hpoll⟩ := pollChannel_stages p ch.toNat ok f us c
  rw [hpoll, driveChannel_frame]
  exact .poll ch rs rfl rfl rfl rfl rfl

/-- A pipeline operation leaves its channel as it was, or had a configuration to work with (R131). -/
theorem Channel.whenRun_withCfg_eq_next {c c' : Channel} {g : Channel → ChanConfig → ChannelOutcome}
    (h : (c.whenRun fun c => c.withCfg (g c)) = .next c') : c' = c ∨ ∃ f, g c f = .next c' := by
  rcases Channel.whenRun_eq_next h with rfl | ⟨-, h⟩
  · exact .inl rfl
  · obtain ⟨f, -, h⟩ := Channel.withCfg_eq_next h
    exact .inr ⟨f, h⟩

/-- Every operation but RESET writes what is its to write. -/
theorem mayBecome_of_channelEffect {p : Params} {ok : Bool} {i : Instr} {c c' : Channel} (hi : i ≠ .reset i.channel)
    (h : channelEffect p ok i c = .next c') : MayBecome c i c' := by
  cases i with
  | nop ch => cases h; exact .same _
  | reset ch => exact absurd rfl hi
  | init ch f => cases h; exact mayBecome_initChannel p ch f c
  | poll ch rs =>
    rcases channelEffect_poll_eq_next h with rfl | ⟨f, us, -, -, rfl⟩
    · exact .same _
    · exact mayBecome_pollChannel p ch ok f rs us c
  | tick ch =>
    rcases channelEffect_tick_eq_next h with rfl | ⟨f, -, rfl⟩
    · exact .same _
    · rw [tickExtended_frame]
      exact .tick ch ..
  | measure ch rs =>
    simp only [channelEffect] at h
    rcases Channel.whenRun_withCfg_eq_next h with rfl | ⟨f, h⟩
    · exact .same _
    · split at h
      next => cases h; exact .same _
      next us _ =>
        cases h
        obtain ⟨a, k, m, b, hm⟩ := measureChannel_frame p f us c
        exact hm ▸ .measure ch rs a k m b
  | decode ch m =>
    simp only [channelEffect] at h
    rcases Channel.whenRun_withCfg_eq_next h with rfl | ⟨f, h⟩
    · exact .same _
    · cases h; exact .decode ch m _
  | debounce ch v =>
    simp only [channelEffect] at h
    rcases Channel.whenRun_withCfg_eq_next h with rfl | ⟨f, h⟩
    · exact .same _
    · cases h; exact .debounce ch v ..
  | drive ch r wrOk =>
    simp only [channelEffect] at h
    rcases Channel.whenRun_eq_next h with rfl | ⟨-, h⟩
    · exact .same _
    · split at h
      · cases h
        rw [driveChannel_frame]
        exact .drive ch r wrOk ..
      · cases h; exact .same _

/-- Settles O46: an operation changes at most what is its to write. -/
theorem eachElementHasItsWriters : Obligations.EachElementHasItsWriters := by
  intro i s t c c' hexec hc hc' hi
  obtain ⟨d, heff, rfl⟩ := exec_eq_next_of_channel rfl hc hexec
  obtain rfl : d = c' := Option.some.inj ((State.channel?_setChannel_self hc d).symm.trans hc')
  cases mayBecome_of_channelEffect hi heff with
  | same => simp
  | init ch f g st q hs => simp [Instr.channel, Channel.lines, hs]
  | poll ch rs hcfg hstate hcause hen hpin => simp [Instr.channel, hcfg, hstate, hcause, hen, hpin]
  | tick | measure | decode | debounce | drive => simp [Instr.channel, Channel.lines]

end Sys2Proof.Machine
end

section
/-!
RESET (R170, R171): its word, and what it gives every element of its channel.
-/

namespace Sys2Proof.Machine

/-- The header `{ch, 0x1}` with no operand is RESET of channel `ch`, whatever `DUR_W` is (R63). -/
theorem decode_reset (d : Nat) {ch : ChIndex} {h : BitVec 8} (hh : h.toNat = 16 * ch.toNat + 1) :
    decode d ⟨h, []⟩ = .ok (.reset ch) := by
  obtain ⟨hop, hch⟩ := OpWord.op_ch_of_header (w := ⟨h, []⟩) (n := 1) (by decide) hh
  exact decode_eq_ok_iff.mpr ⟨hop, hch, rfl⟩

/-- RESET is held up by no lifecycle state (R131, R170). -/
theorem exec_reset {s : State} {ch : ChIndex} {c : Channel} (hc : s.channel? ch = some c) :
    exec (.reset ch) s = .next (s.setChannel ch (resetChannel c)) :=
  exec_next (i := .reset ch) hc rfl

theorem resetChannel_h_read? (c : Channel) (i : Nat) : (resetChannel c).h.read? i = none :=
  Memory.read?_nil i

/-- Settles O9: the channel RESET leaves is `Channel.reset` but for the model's counter of free values, which R171 does
not speak of; its pins stand as its lines do, whatever a failed write had left on them (R44). -/
theorem resetGivesTheDocumentedValues : Obligations.ResetGivesTheDocumentedValues := by
  refine ⟨fun d _ _ hh => decode_reset d hh, fun s ch c hc => ⟨resetChannel c, exec_reset hc, ?_⟩⟩
  exact ⟨rfl, rfl, rfl, rfl, rfl, rfl, rfl, rfl, resetChannel_h_read? c, rfl, rfl, rfl, rfl, rfl, rfl, rfl, rfl, rfl⟩

end Sys2Proof.Machine
end

section
/-!
The words of the spec's examples (`30_encoding.md` section 6): each is the encoding of the operation it stands for, and
a reserved operation code is refused whatever operands follow it (R65).
-/

namespace Sys2Proof

/-- A word that is the encoding of an operation decodes to it (O3). -/
theorem decode_of_encode_eq {durW : Nat} {i : Instr} {w : OpWord} (henc : i.encodable durW = true)
    (hw : encode durW i = w) : decode durW w = .ok i :=
  hw ▸ decodeOfEncodeIsTheOperation durW i henc

/-- The operation codes from `0x9` on are reserved (R65). -/
theorem decode_of_reserved_op (durW : Nat) {w : OpWord} (h : 9 ≤ w.op) :
    decode durW w = .error (.reservedOp w.op) := by
  unfold decode
  split
  case h_10 => rw [if_pos h]
  all_goals omega

/-- Settles O5: the eight operations have an encoding, and it is the word written out; the code of `0x0B` is
reserved. -/
theorem exampleWordsDecode : Obligations.ExampleWordsDecode :=
  ⟨decode_of_encode_eq rfl rfl,
    decode_of_encode_eq rfl rfl,
    decode_of_encode_eq (by decide) rfl,
    decode_of_encode_eq rfl rfl,
    decode_of_encode_eq (by decide) rfl,
    decode_of_encode_eq (by decide) rfl,
    decode_of_encode_eq rfl rfl,
    decode_of_encode_eq rfl rfl,
    decode_of_reserved_op 32 (by decide)⟩

end Sys2Proof
end
